-- ==== Sys2Proof/Word.lean ====
section
/-! DEFINITION. The two word types of the block: a 32-bit register value and one byte of BUF. -/

namespace Sys2Proof

/-- A register, an operand or a command word: "Every register is 32 bits" (rules R7, R30, R110). -/
abbrev Word := BitVec 32

/-- One 8-bit byte of the buffer memory BUF (rule R80). -/
abbrev Byte := BitVec 8

end Sys2Proof
end

