-- ==== Sys2Proof/Syntax.lean ====
section
/-! DEFINITION. The commands of the block: one constructor for each row of spec/opcode_table.json. -/

namespace Sys2Proof

/-- A command (rule R114). A command word "carries no register numbers and no immediates" (rule R110), so
no constructor has an argument: every operand comes from the operand registers' snapshot (rule R47). -/
inductive Instr where
  /-- 0x00: do nothing and complete (rule R240). -/
  | nop
  /-- 0x01: decode one datagram of either version (rule R200). -/
  | pktDecode
  /-- 0x02: decode one IPv4 datagram (rule R170). -/
  | v4Decode
  /-- 0x03: decode one IPv6 datagram (rule R190). -/
  | v6Decode
  /-- 0x04: recompute and compare the IPv4 header checksum (rule R174). -/
  | v4HdrVerify
  /-- 0x05: validate the length of an IPv4 options region (rule R160). -/
  | optParse
  /-- 0x08: split a byte into nibbles (rule R150). -/
  | splitNibble
  /-- 0x09: split a byte at a bit boundary (rule R151). -/
  | splitBits
  /-- 0x0A: split 16 bits into 3 flag bits and a 13-bit offset (rule R152). -/
  | splitFlagsOffset
  /-- 0x10: IPv4 TCP/UDP checksum (rule R213). -/
  | ckV4Compute
  /-- 0x11: IPv6 TCP/UDP checksum (rule R214). -/
  | ckV6Compute
  /-- 0x12: ICMPv6 checksum (rule R215). -/
  | ckIcmpv6Compute
  /-- 0x18: verify an IPv4 TCP/UDP checksum (rule R216). -/
  | ckV4Verify
  /-- 0x19: verify an IPv6 TCP/UDP checksum (rule R217). -/
  | ckV6Verify
  /-- 0x1A: verify an ICMPv6 checksum (rule R218). -/
  | ckIcmpv6Verify
  /-- 0x3F: drop the decoded header and end the live view (rule R241). -/
  | clear
  deriving DecidableEq, Repr

end Sys2Proof
end

