-- ==== Sys2Proof/Decode.lean ====
section
/-! DEFINITION. The decoder of a command word (rules R110, R111, R114), total on every 32-bit word, and the
encoder written from the same table. -/

namespace Sys2Proof

/-- Why a command word is illegal (rule R111). An illegal word is no stop of the machine: it completes with
BAD_COMMAND (rule R242). -/
inductive DecodeError where
  /-- Bits 31:8, the MBZ field of rule R110, are not all zero. -/
  | mbzNotZero
  /-- Bits 7:0 are an OPC that rule R114 reserves. -/
  | reservedOpc
  deriving DecidableEq, Repr

/-- The OPC field, bits 7:0 (rule R110). -/
def opcField (v : Word) : Byte := v.extractLsb' 0 8

/-- The MBZ field, bits 31:8 (rule R110). -/
def mbzField (v : Word) : BitVec 24 := v.extractLsb' 8 24

/-- The opcode map of rule R114. -/
def opcodeMap : List (Byte × Instr) :=
  [ (0x00#8, .nop),
    (0x01#8, .pktDecode),
    (0x02#8, .v4Decode),
    (0x03#8, .v6Decode),
    (0x04#8, .v4HdrVerify),
    (0x05#8, .optParse),
    (0x08#8, .splitNibble),
    (0x09#8, .splitBits),
    (0x0A#8, .splitFlagsOffset),
    (0x10#8, .ckV4Compute),
    (0x11#8, .ckV6Compute),
    (0x12#8, .ckIcmpv6Compute),
    (0x18#8, .ckV4Verify),
    (0x19#8, .ckV6Verify),
    (0x1A#8, .ckIcmpv6Verify),
    (0x3F#8, .clear) ]

/-- The command an OPC names, if rule R114 lists it. -/
def opcodeLookup (opc : Byte) : Option Instr :=
  (opcodeMap.find? fun row => row.1 == opc).map Prod.snd

/-- Decoding a command word (rule R111): "every 32-bit word either names exactly one command or is illegal". -/
def decode (v : Word) : Except DecodeError Instr :=
  if mbzField v ≠ 0#24 then .error .mbzNotZero
  else
    match opcodeLookup (opcField v) with
    | some i => .ok i
    | none => .error .reservedOpc

/-- The command word of a command, `0x000000OO` (rule R114). -/
def encode : Instr → Word
  | .nop => 0x00000000#32
  | .pktDecode => 0x00000001#32
  | .v4Decode => 0x00000002#32
  | .v6Decode => 0x00000003#32
  | .v4HdrVerify => 0x00000004#32
  | .optParse => 0x00000005#32
  | .splitNibble => 0x00000008#32
  | .splitBits => 0x00000009#32
  | .splitFlagsOffset => 0x0000000A#32
  | .ckV4Compute => 0x00000010#32
  | .ckV6Compute => 0x00000011#32
  | .ckIcmpv6Compute => 0x00000012#32
  | .ckV4Verify => 0x00000018#32
  | .ckV6Verify => 0x00000019#32
  | .ckIcmpv6Verify => 0x0000001A#32
  | .clear => 0x0000003F#32

/-- The 32-bit command word whose bits are those of `w` below bit `nbits` and zero above. A command is one
32-bit word written whole (rules R84, R123), so no byte order enters. -/
def tableWord (nbits w : Nat) : Word := BitVec.ofNat 32 (w % 2 ^ nbits)

/-- What the decoder reads from a row of the opcode table (the host's question). -/
def decodeTableWord (nbits w : Nat) : Option Instr :=
  match decode (tableWord nbits w) with
  | .ok i => some i
  | .error _ => none

end Sys2Proof
end

