-- ==== Sys2Proof/Config.lean ====
section
/-! DEFINITION. The open parameters of the block (rule R6) and the free values (rules R274, R284, R290). -/

namespace Sys2Proof

/-- The three parameters "the model takes as arguments" (rule R6). None is fixed by the source. They are
plain data that `State` carries unchanged, so that every statement holds for every value of them. -/
structure Config where
  /-- BUF_SIZE: bytes of buffer memory BUF, 1 to 2^32 - 1 (rule R6, decision D6). -/
  bufSize     : Nat
  /-- REG_BASE: host-bus address of the register window (rules R6, R88). -/
  regBase     : Nat
  /-- BUF_HOST_BASE: host-bus address of BUF byte 0 (rules R6, R81, R88). -/
  bufHostBase : Nat
  deriving DecidableEq, Repr

/-- The parameters `State.reset` carries: BUF_SIZE at the spec's reference value 131072 (rule R6). The two
bus bases are platform values for which the spec gives no reference.
DESIGN CHOICE (log 1): 0x10000000 and 0x20000000. -/
def Config.reference : Config :=
  { bufSize := 131072, regBase := 0x10000000, bufHostBase := 0x20000000 }

/-- FREE VALUE. What the n-th unspecified register read returns: "Each such read returns a value drawn
freely, and proofs must hold for every value" (rules R274, R284). It has no body that a proof could see. -/
opaque Config.freeWord : Nat → Word

/-- FREE VALUE. What the n-th faulting BUF write leaves in its byte: "A BUF write that faulted leaves the
byte unspecified" (rule R290). It has no body that a proof could see. -/
opaque Config.freeByte : Nat → Byte

/-- FREE VALUE. What a command that reads the unwritten BUF byte at an address takes for it, at the n-th draw: "The
model gives such a read no value" (rules R98, R290; log 6). It has no body that a proof could see. -/
opaque Config.freeRead : Nat → Nat → Byte

end Sys2Proof
end

