-- ==== Sys2Proof/Machine/State.lean ====
section
/-! DEFINITION. The state of the block, the inputs that reach it from outside, and the reasons a step can
stop (files 10_state.md, 20_memory.md, 60_exceptions.md, 70_reset_and_hazards.md of spec/). -/

namespace Sys2Proof.Machine

/-- The faults (rules R274, R290) and the one stop of the model's own. A fault names the step at which it
happened ("Each fault is recorded with the step at which it happened", rule R290); the first step is step 1.
The three faults of the spec are RECORDED in `State.faults`, whether the Host or the Engine meets them, and the
machine goes on. -/
inductive Fault where
  /-- A Host BUF write inside the live view while HDR_KIND != 0 (rules R96, R288, R290). Raised by `bufWrite`,
  which records it and leaves the byte a free value. Safe for good runs (log 5). -/
  | viewMutation (step : Nat)
  /-- A Host BUF write while STATUS.BUSY = 1 (rules R97, R287, R290). Raised by `bufWrite`, which records it
  and leaves the byte a free value. Safe for good runs (log 5). -/
  | busyMutation (step : Nat)
  /-- A read of a BUF byte not written since reset, "by the Host or the Engine" (rules R98, R290). A Host read
  (`bufRead`) records it and returns no value. A command's reads (`noteReads`) record it, and the command goes on
  with a free value for each such byte. Safe for good runs (logs 6 and 18). -/
  | uninitRead (step : Nat)
  /-- The model's own: the body of a command was asked for while LATCH is empty. "The Engine's step is enabled
  only while BUSY = 1" (rule R50), and `step` never asks. Raised by `withLatch` (log 17). Safe. -/
  | noCommand (step : Nat)
  deriving DecidableEq, Repr

/-- The accesses "the model has no step for" (rule R274), and the name of a command with no meaning yet. -/
inductive Refusal where
  /-- Raised by an arm of `exec` that has no meaning yet: none is left. Safe. -/
  | notModelled (mnemonic : String)
  /-- A register access that is not 32 bits wide or not at a multiple of 4 (rules R30, R85, R274). Raised by
  `hostAccess`. Safe. -/
  | regAccessForm
  /-- A BUF port access that is not one byte wide (rules R81, R274). Raised by `hostAccess`. Safe. -/
  | bufAccessWidth
  /-- An access at a host-bus address of neither window, a BUF address >= BUF_SIZE among them (rules R81,
  R274; log 19). Raised by `hostAccess`. Safe. -/
  | noSuchAddress
  deriving DecidableEq, Repr

/-- The completion codes of rule R251. Codes 0x05 to 0x0F and 0x15 to 0xFF "are reserved and never produced".
`Code.num` gives their numbers. -/
inductive Code where
  | ok
  | truncated
  | wrongVersion
  | unsupportedVersion
  | lengthMismatch
  | badIhl
  | range
  | badCommand
  | noHeader
  | segTooLong
  deriving DecidableEq, Repr

/-- The stored fields of STATUS (rule R32). BUSY is 1 exactly while LATCH holds a command and ERR "equals
(CODE != 0)": both are computed (`State.busy`, `State.err`; log 4). -/
structure Status where
  /-- DONE, bit 1, W1C. -/
  done : Bool
  /-- BOOL, bit 3: the boolean result of a verify command. -/
  bool : Bool
  /-- OVR, bit 4, W1C and sticky. -/
  ovr  : Bool
  /-- CODE, bits 15:8. -/
  code : Code
  /-- UVER, bits 19:16. -/
  uver : BitVec 4
  deriving DecidableEq, Repr

/-- The operand registers (rules R34, R35, R36). -/
structure Operands where
  bufBase : Word
  bufLen  : Word
  segBase : Word
  segLen  : Word
  arg     : Word
  deriving DecidableEq, Repr

/-- The command latch (rule R47): the command word and the snapshot `L` of the operand registers. -/
structure Latch where
  word : Word
  ops  : Operands
  deriving DecidableEq, Repr

/-- The result and diagnostic registers (rules R37, R38). -/
structure Results where
  resA      : Word
  resB      : Word
  diagExp   : Word
  diagAct   : Word
  diagField : Word
  deriving DecidableEq, Repr

/-- The 33 decoded-header registers (rules R30, R41 to R46), each 32 bits. -/
structure Header where
  kind     : Word
  base     : Word
  hlen     : Word
  version  : Word
  ihl      : Word
  dscp     : Word
  ecn      : Word
  totalLen : Word
  ident    : Word
  flags    : Word
  fragOff  : Word
  ttl      : Word
  proto    : Word
  cksum    : Word
  src4     : Word
  dst4     : Word
  optAddr  : Word
  optLen   : Word
  payAddr  : Word
  payLen   : Word
  tclass   : Word
  flow     : Word
  plen6    : Word
  nextHdr  : Word
  hopLimit : Word
  src60    : Word
  src61    : Word
  src62    : Word
  src63    : Word
  dst60    : Word
  dst61    : Word
  dst62    : Word
  dst63    : Word
  deriving DecidableEq, Repr

/-- Every decoded-header register 0: "no header decoded" (rules R41, R263, R280). -/
def Header.zero : Header :=
  { kind := 0, base := 0, hlen := 0, version := 0, ihl := 0, dscp := 0, ecn := 0, totalLen := 0,
    ident := 0, flags := 0, fragOff := 0, ttl := 0, proto := 0, cksum := 0, src4 := 0, dst4 := 0,
    optAddr := 0, optLen := 0, payAddr := 0, payLen := 0, tclass := 0, flow := 0, plen6 := 0,
    nextHdr := 0, hopLimit := 0, src60 := 0, src61 := 0, src62 := 0, src63 := 0, dst60 := 0,
    dst61 := 0, dst62 := 0, dst63 := 0 }

/-- The registers of the window that have a name (rule R30). Every other offset is reserved (rule R40). -/
inductive Reg where
  | cmd | status | ctrl
  | bufBase | bufLen | segBase | segLen | arg
  | resA | resB | diagExp | diagAct | diagField | idr
  | hdrKind | hdrBase | hdrHlen | hdrVersion | hdrIhl | hdrDscp | hdrEcn | hdrTotalLen | hdrIdent
  | hdrFlags | hdrFragOff | hdrTtl | hdrProto | hdrCksum | hdrSrc4 | hdrDst4
  | hdrOptAddr | hdrOptLen | hdrPayAddr | hdrPayLen
  | hdrTclass | hdrFlow | hdrPlen6 | hdrNextHdr | hdrHopLimit
  | hdrSrc60 | hdrSrc61 | hdrSrc62 | hdrSrc63 | hdrDst60 | hdrDst61 | hdrDst62 | hdrDst63
  deriving DecidableEq, Repr

/-- The two address spaces of rule R80, as the Host reaches them. -/
inductive Port where
  | reg
  | buf
  deriving DecidableEq, Repr

/-- What a Host access does. A byte write stores the low 8 bits of its value (log 15). -/
inductive BusOp where
  | read
  | write (value : Word)
  deriving DecidableEq, Repr

/-- One Host access on the host bus: its address, its width in bytes and what it does (rules R30, R81, R124). -/
structure BusAccess where
  addr  : Nat
  width : Nat
  op    : BusOp
  deriving DecidableEq, Repr

/-- What may happen next: one Host access, the Engine's step, or reset (rules R8, R280). -/
inductive Event where
  | access (a : BusAccess)
  | engine
  | reset
  deriving DecidableEq, Repr

/-- What the Host's latest read returned. -/
inductive BusReply where
  /-- No read yet, or one that "the model gives no value" (rule R98). -/
  | noValue
  /-- A 32-bit register read. -/
  | word (w : Word)
  /-- A byte read of BUF. -/
  | byte (b : Byte)
  deriving DecidableEq, Repr

/-- The written bytes of BUF, as (address, byte) pairs with strictly rising addresses. An unlisted address
has not been written since reset and reads as no value (rules R98, R282; log 12). -/
abbrev Memory := List Host.Cell

/-- Everything the spec gives the machine. INVENTORY.md lists the rule and the reset value of each field. -/
structure State where
  /-- The open parameters (rule R6). No step changes them (log 1). -/
  cfg      : Config
  /-- STATUS (rule R32). -/
  status   : Status
  /-- CTRL bit 0, IRQ_EN; bits 31:1 "read 0 and ignore writes" (rule R33). -/
  irqEn    : Bool
  /-- The live operand registers (rules R34 to R36). -/
  ops      : Operands
  /-- RES_A, RES_B and the DIAG registers (rules R37, R38). -/
  res      : Results
  /-- The decoded-header registers (rules R41 to R46). -/
  hdr      : Header
  /-- LATCH; `none` is "empty" (rule R47). -/
  latch    : Option Latch
  /-- BUF: the bytes written since reset (rules R80, R98). -/
  buf      : Memory
  /-- The fault record, oldest first (rules R52, R290). -/
  faults   : List Fault
  /-- The model's own: steps taken so far, which numbers the faults (rule R290; log 16). -/
  time     : Nat
  /-- The model's own: the schedule, which agent moves next and what the Host does (rule R8; log 2). -/
  agenda   : List Event
  /-- The model's own: what the Host's latest read returned (log 9). -/
  lastRead : BusReply
  /-- The model's own: how many free values have been drawn (rules R274, R284; log 7). -/
  draws    : Nat
  deriving DecidableEq, Repr

/-- The state right after reset of a block with parameters `c` (rule R280), at the start of a run: fault
record empty (rule R290), nothing scheduled, no step taken, nothing read, nothing drawn. -/
def State.resetWith (c : Config) : State :=
  { cfg      := c
    status   := { done := false, bool := false, ovr := false, code := .ok, uver := 0 }
    irqEn    := false
    ops      := { bufBase := 0, bufLen := 0, segBase := 0, segLen := 0, arg := 0 }
    res      := { resA := 0, resB := 0, diagExp := 0, diagAct := 0, diagField := 0 }
    hdr      := Header.zero
    latch    := none
    buf      := []
    faults   := []
    time     := 0
    agenda   := []
    lastRead := .noValue
    draws    := 0 }

/-- The machine right after reset, with the reference parameters (rules R6, R280). -/
def State.reset : State := State.resetWith Config.reference

end Sys2Proof.Machine
end

