-- ==== Sys2Proof/Machine/Flags.lean ====
section
/-! DEFINITION. STATUS and its flags as the Host reads them (rules R32, R50, R251, R266, R284). -/

namespace Sys2Proof.Machine

/-- The number of a status code (rule R251). -/
def Code.num : Code → BitVec 8
  | .ok => 0x00#8
  | .truncated => 0x01#8
  | .wrongVersion => 0x02#8
  | .unsupportedVersion => 0x03#8
  | .lengthMismatch => 0x04#8
  | .badIhl => 0x10#8
  | .range => 0x11#8
  | .badCommand => 0x12#8
  | .noHeader => 0x13#8
  | .segTooLong => 0x14#8

/-- STATUS.BUSY: 1 from the CMD write that latches a command until its completion, which empties LATCH
(rules R32, R47, R250). -/
def State.busy (s : State) : Bool := s.latch.isSome

/-- STATUS.ERR "equals (CODE != 0)" (rule R32). -/
def State.err (s : State) : Bool := s.status.code.num != 0#8

/-- The interrupt output: irq = CTRL.IRQ_EN AND STATUS.DONE (rules R51, R266). -/
def State.irq (s : State) : Bool := s.irqEn && s.status.done

/-- The layout of STATUS, from bit 31 down to bit 0 (rule R32): reserved 31:20, UVER 19:16, CODE 15:8,
reserved 7:5, OVR, BOOL, ERR, DONE, BUSY. -/
def statusLayout (uver : BitVec 4) (code : BitVec 8) (ovr bool err done busy : Bool) : Word :=
  0#12 ++ uver ++ code ++ 0#3 ++ BitVec.ofBool ovr ++ BitVec.ofBool bool ++ BitVec.ofBool err ++
    BitVec.ofBool done ++ BitVec.ofBool busy

/-- What a Host read of STATUS returns while BUSY = 0 (rule R32). -/
def State.statusIdle (s : State) : Word :=
  statusLayout s.status.uver s.status.code.num s.status.ovr s.status.bool s.err s.status.done false

/-- What a Host read of STATUS returns while BUSY = 1: BUSY = 1, DONE = 0, OVR at its value, and ERR, BOOL,
CODE and UVER from the free word `f` (rules R32, R284). -/
def State.statusBusy (s : State) (f : Word) : Word :=
  statusLayout (f.extractLsb' 16 4) (f.extractLsb' 8 8) s.status.ovr (f.getLsbD 3) (f.getLsbD 2) false true

/-- The STATUS fields after a completion, all "together" (rules R50, R250): OVR "is not changed". -/
def Status.completed (st : Status) (code : Code) (bool : Bool) (uver : BitVec 4) : Status :=
  { done := true, bool := bool, ovr := st.ovr, code := code, uver := uver }

/-- A Host write of STATUS "changes only DONE and OVR: each is cleared where the written bit is 1" (rule R32). -/
def Status.writeOneToClear (st : Status) (v : Word) : Status :=
  { st with done := st.done && !v.getLsbD 1, ovr := st.ovr && !v.getLsbD 4 }

end Sys2Proof.Machine
end

