-- ==== Sys2Proof/Machine/Ops.lean ====
section
/-! DEFINITION. The shared operations over memory and registers: reading and writing BUF, the completion of a
command (the block's only "exception entry", rules R250, R264) and the latch. -/

namespace Sys2Proof.Machine

/-- What a step answers. -/
abbrev Answer := Host.Outcome State Fault Refusal

/-! ### Memory -/

/-- The byte an address holds, if it has been written since reset (rule R98). -/
def Memory.read : Memory → Nat → Option Byte
  | [], _ => none
  | (k, v) :: m, a => if k = a then some v else Memory.read m a

/-- One byte written, the addresses kept strictly rising (rules R10, R81). -/
def Memory.write : Memory → Nat → Byte → Memory
  | [], a, v => [(a, v)]
  | (k, w) :: m, a, v =>
    if a < k then (a, v) :: (k, w) :: m
    else if k = a then (a, v) :: m
    else (k, w) :: Memory.write m a v

/-- The canonical form: addresses strictly rising. No entry can equal what an unlisted address reads as,
because an unlisted address reads as no value. -/
def Memory.wf (m : Memory) : Bool := decide (m.Pairwise fun c d => c.1 < d.1)

/-- Every listed byte lies in BUF, "addresses 0 to BUF_SIZE-1" (rule R80). -/
def Memory.within (m : Memory) (size : Nat) : Bool := m.all fun c => decide (c.1 < size)

/-- The byte BUF[a]: no value outside BUF and none where nothing has been written since reset. -/
def State.readByte (s : State) (a : Nat) : Option Byte :=
  if a < s.cfg.bufSize then s.buf.read a else none

/-- The n bytes from `addr` on, if every one of them has been written since reset. -/
def State.readBytes (s : State) (addr : Nat) : Nat → Option (List Byte)
  | 0 => some []
  | n + 1 =>
    match s.readByte addr with
    | none => none
    | some b =>
      match State.readBytes s (addr + 1) n with
      | none => none
      | some bs => some (b :: bs)

/-- The byte a command reads at `a`: BUF[a], and a free value where nothing has been written since reset (rules
R98, R290; log 6). All reads of one command agree on it: "nothing can write BUF during a command" (rule R200). -/
def State.engineByte (s : State) (a : Nat) : Byte := (s.readByte a).getD (Config.freeRead s.draws a)

/-- `Bytes(addr, n)` (rule R10), as a command reads them. -/
def State.engineBytes (s : State) (addr : Nat) : Nat → List Byte
  | 0 => []
  | n + 1 => s.engineByte addr :: State.engineBytes s (addr + 1) n

/-- Bytes as one unsigned number, the first most significant (rule R83). -/
def bigEndian (bs : List Byte) : Nat := bs.foldl (fun n b => n * 256 + b.toNat) 0

/-- `MemRead(addr, n)` (rules R10, R83): the n bytes a command reads as one unsigned big-endian number. -/
def State.memRead (s : State) (addr n : Nat) : Nat := bigEndian (s.engineBytes addr n)

/-- `be16(v)` (rule R10). -/
def be16 (v : BitVec 16) : List Byte := [v.extractLsb' 8 8, v.extractLsb' 0 8]

/-- `be32(v)` (rule R10). -/
def be32 (v : Word) : List Byte :=
  [v.extractLsb' 24 8, v.extractLsb' 16 8, v.extractLsb' 8 8, v.extractLsb' 0 8]

/-- `be128(w0,w1,w2,w3)` (rule R10). -/
def be128 (w0 w1 w2 w3 : Word) : List Byte := be32 w0 ++ be32 w1 ++ be32 w2 ++ be32 w3

/-- "A byte window (base, len) lies in BUF exactly when base + len <= BUF_SIZE", computed exactly (rule R89). -/
def State.windowInBuf (s : State) (base len : Word) : Bool :=
  decide (base.toNat + len.toNat ≤ s.cfg.bufSize)

/-- The live view [HDR_BASE, HDR_PAY_ADDR + HDR_PAY_LEN), "while HDR_KIND != 0" (rule R96). -/
def State.inLiveView (s : State) (a : Nat) : Bool :=
  s.hdr.kind != 0#32 && decide (s.hdr.base.toNat ≤ a) &&
    decide (a < s.hdr.payAddr.toNat + s.hdr.payLen.toNat)

/-! ### Updates of the state -/

/-- The decoded-header registers rewritten whole (rules R46, R173, R191, R241, R263). -/
def State.setHdr (s : State) (h : Header) : State := { s with hdr := h }

/-- BUF rewritten. -/
def State.setBuf (s : State) (m : Memory) : State := { s with buf := m }

/-- Faults added to the record; "nothing ever removes a fault from it" (rule R290). -/
def State.record (s : State) (fs : List Fault) : State := { s with faults := s.faults ++ fs }

/-- What a Host read returns. -/
def State.reply (s : State) (r : BusReply) : State := { s with lastRead := r }

/-- One free value drawn. -/
def State.drawn (s : State) : State := { s with draws := s.draws + 1 }

/-- One step taken: its number, and the schedule without its first entry. -/
def State.advance (s : State) : State := { s with agenda := s.agenda.tail, time := s.time + 1 }

/-- The CMD write of `v` while BUSY = 0 (rules R31, R32, R47): the word and the snapshot of the operand
registers are latched and DONE is cleared. -/
def State.latchCommand (s : State) (v : Word) : State :=
  { s with latch := some { word := v, ops := s.ops }, status := { s.status with done := false } }

/-- The state after reset (rules R280, R281, R282): every register as the table says, BUF unwritten, a latched
command dropped without effect, the fault record unchanged. The parameters, the schedule, the step count and
what the Host read are not the block's to reset (log 10). -/
def State.afterReset (s : State) : State :=
  { State.resetWith s.cfg with
    faults := s.faults, time := s.time, agenda := s.agenda, lastRead := s.lastRead, draws := s.draws }

/-! ### The completion -/

/-- `Complete(code, bool, uver, a, b, exp, act, field)` (rule R250): the one way every command ends. LATCH
becomes empty, so BUSY becomes 0, and DONE becomes 1. -/
def State.complete (s : State) (code : Code) (bool : Bool) (uver : BitVec 4)
    (a b exp act field : Word) : State :=
  { s with
    latch  := none
    status := s.status.completed code bool uver
    res    := { resA := a, resB := b, diagExp := exp, diagAct := act, diagField := field } }

/-- `finish(BOOL = bool)` with RES_A = a and RES_B = b: status OK, diagnostics 0 (rule R250). -/
def State.finish (s : State) (bool : Bool) (a b : Word) : State :=
  s.complete .ok bool 0 a b 0 0 0

/-- An error of rule R251 with its diagnostics (rule R252). -/
structure Failure where
  code  : Code
  uver  : BitVec 4
  exp   : Word
  act   : Word
  field : Word
  deriving DecidableEq, Repr

/-- An error whose diagnostics are `exp`, `act` and `field`; UVER is 0 (rule R250). -/
def failure (code : Code) (exp act field : Word) : Failure :=
  { code := code, uver := 0, exp := exp, act := act, field := field }

/-- `raise Status(CODE, exp, act, field)` (rule R250): BOOL, RES_A and RES_B are 0. -/
def State.raise (s : State) (f : Failure) : State :=
  s.complete f.code false f.uver 0 0 f.exp f.act f.field

/-! ### Running a command's body -/

/-- Run a command's body on the latched command. The Engine is enabled only while one is latched (rules R8,
R50); asked without one, the model stops (log 17). -/
def withLatch (s : State) (body : Latch → Answer) : Answer :=
  match s.latch with
  | none => .fault (.noCommand s.time)
  | some l => body l

/-- The state once a command has read BUF[addr .. addr+n-1]. If one of these bytes has not been written since
reset, the fault UNINIT_READ is recorded with this step, once (the record "is a set of faults"), and a free value
is drawn (rules R98, R290; log 6). -/
def State.noteReads (s : State) (addr n : Nat) : State :=
  match s.readBytes addr n with
  | some _ => s
  | none => (s.record [.uninitRead s.time]).drawn

/-- What one of the decoders of rules R171, R191 and R200 finds: the decoded-header registers to write, or the
first check that failed; and how many bytes of the datagram, from its first on, it has read by then. -/
structure DecodeResult where
  reads   : Nat
  outcome : Except Failure Header
  deriving DecidableEq, Repr

/-- The decode ends at a check that failed (`fail` of rule R171), with `reads` bytes read. -/
def DecodeResult.fail (reads : Nat) (f : Failure) : DecodeResult := { reads := reads, outcome := .error f }

/-- The decode succeeds, with `reads` bytes read. -/
def DecodeResult.header (reads : Nat) (h : Header) : DecodeResult := { reads := reads, outcome := .ok h }

/-- The completion of a decode command. On success the decoded-header registers are written and the command
finishes with both results 0 (rules R170, R190). On failure "every decoded-header register" becomes 0 and the error
is raised (rules R171, R263). -/
def finishDecode (s : State) : Except Failure Header → State
  | .ok h => (s.setHdr h).finish false 0 0
  | .error f => (s.setHdr Header.zero).raise f

/-- The end of a decode command on the datagram at `base`: its reads noted, then its completion. -/
def applyDecode (s : State) (base : Nat) (d : DecodeResult) : Answer :=
  .next (finishDecode (s.noteReads base d.reads) d.outcome)

end Sys2Proof.Machine
end

