-- ==== Sys2Proof/Machine/Bus.lean ====
section
/-! DEFINITION. The Host's accesses: the register window (rules R30 to R41, R84 to R87, R284 to R286) and the
BUF port (rules R81, R96 to R98, R287, R288). -/

namespace Sys2Proof.Machine

/-! ### The register map -/

/-- The offset of a register in the window (rule R30). -/
def Reg.offset : Reg → Nat
  | .cmd => 0x000
  | .status => 0x004
  | .ctrl => 0x008
  | .bufBase => 0x00C
  | .bufLen => 0x010
  | .segBase => 0x014
  | .segLen => 0x018
  | .arg => 0x01C
  | .resA => 0x020
  | .resB => 0x024
  | .diagExp => 0x028
  | .diagAct => 0x02C
  | .diagField => 0x030
  | .idr => 0x034
  | .hdrKind => 0x040
  | .hdrBase => 0x044
  | .hdrHlen => 0x048
  | .hdrVersion => 0x04C
  | .hdrIhl => 0x050
  | .hdrDscp => 0x054
  | .hdrEcn => 0x058
  | .hdrTotalLen => 0x05C
  | .hdrIdent => 0x060
  | .hdrFlags => 0x064
  | .hdrFragOff => 0x068
  | .hdrTtl => 0x06C
  | .hdrProto => 0x070
  | .hdrCksum => 0x074
  | .hdrSrc4 => 0x078
  | .hdrDst4 => 0x07C
  | .hdrOptAddr => 0x080
  | .hdrOptLen => 0x084
  | .hdrPayAddr => 0x088
  | .hdrPayLen => 0x08C
  | .hdrTclass => 0x090
  | .hdrFlow => 0x094
  | .hdrPlen6 => 0x098
  | .hdrNextHdr => 0x09C
  | .hdrHopLimit => 0x0A0
  | .hdrSrc60 => 0x0A4
  | .hdrSrc61 => 0x0A8
  | .hdrSrc62 => 0x0AC
  | .hdrSrc63 => 0x0B0
  | .hdrDst60 => 0x0B4
  | .hdrDst61 => 0x0B8
  | .hdrDst62 => 0x0BC
  | .hdrDst63 => 0x0C0

/-- The control, operand, result and diagnostic registers and IDR, in the order of the window. -/
def commandRegs : List Reg :=
  [.cmd, .status, .ctrl, .bufBase, .bufLen, .segBase, .segLen, .arg, .resA, .resB, .diagExp, .diagAct,
   .diagField, .idr]

/-- The 33 decoded-header registers, in the order of the window (rules R41 to R46, R176). -/
def headerRegs : List Reg :=
  [.hdrKind, .hdrBase, .hdrHlen, .hdrVersion, .hdrIhl, .hdrDscp, .hdrEcn, .hdrTotalLen, .hdrIdent,
   .hdrFlags, .hdrFragOff, .hdrTtl, .hdrProto, .hdrCksum, .hdrSrc4, .hdrDst4, .hdrOptAddr, .hdrOptLen,
   .hdrPayAddr, .hdrPayLen, .hdrTclass, .hdrFlow, .hdrPlen6, .hdrNextHdr, .hdrHopLimit, .hdrSrc60,
   .hdrSrc61, .hdrSrc62, .hdrSrc63, .hdrDst60, .hdrDst61, .hdrDst62, .hdrDst63]

/-- The register at an offset; none at a reserved offset (rules R30, R40). -/
def regAt (off : Nat) : Option Reg := (commandRegs ++ headerRegs).find? fun r => r.offset == off

/-- The registers a Host read returns an unspecified value for while BUSY = 1 (rule R284). Of STATUS only some
fields are unspecified (`State.statusBusy`). -/
def Reg.unspecifiedWhileBusy (r : Reg) : Bool :=
  r == .status || r == .resA || r == .resB || r == .diagExp || r == .diagAct || r == .diagField ||
    headerRegs.contains r

/-! ### Reading a register -/

/-- The identification constant 0x49504801, "IPH" and revision 1 (rule R39). -/
def idrConstant : Word := 0x49504801#32

/-- What a Host read of a register returns while BUSY = 0. CMD "returns 0" (rule R31). -/
def State.regValue (s : State) : Reg → Word
  | .cmd => 0
  | .status => s.statusIdle
  | .ctrl => (BitVec.ofBool s.irqEn).setWidth 32
  | .bufBase => s.ops.bufBase
  | .bufLen => s.ops.bufLen
  | .segBase => s.ops.segBase
  | .segLen => s.ops.segLen
  | .arg => s.ops.arg
  | .resA => s.res.resA
  | .resB => s.res.resB
  | .diagExp => s.res.diagExp
  | .diagAct => s.res.diagAct
  | .diagField => s.res.diagField
  | .idr => idrConstant
  | .hdrKind => s.hdr.kind
  | .hdrBase => s.hdr.base
  | .hdrHlen => s.hdr.hlen
  | .hdrVersion => s.hdr.version
  | .hdrIhl => s.hdr.ihl
  | .hdrDscp => s.hdr.dscp
  | .hdrEcn => s.hdr.ecn
  | .hdrTotalLen => s.hdr.totalLen
  | .hdrIdent => s.hdr.ident
  | .hdrFlags => s.hdr.flags
  | .hdrFragOff => s.hdr.fragOff
  | .hdrTtl => s.hdr.ttl
  | .hdrProto => s.hdr.proto
  | .hdrCksum => s.hdr.cksum
  | .hdrSrc4 => s.hdr.src4
  | .hdrDst4 => s.hdr.dst4
  | .hdrOptAddr => s.hdr.optAddr
  | .hdrOptLen => s.hdr.optLen
  | .hdrPayAddr => s.hdr.payAddr
  | .hdrPayLen => s.hdr.payLen
  | .hdrTclass => s.hdr.tclass
  | .hdrFlow => s.hdr.flow
  | .hdrPlen6 => s.hdr.plen6
  | .hdrNextHdr => s.hdr.nextHdr
  | .hdrHopLimit => s.hdr.hopLimit
  | .hdrSrc60 => s.hdr.src60
  | .hdrSrc61 => s.hdr.src61
  | .hdrSrc62 => s.hdr.src62
  | .hdrSrc63 => s.hdr.src63
  | .hdrDst60 => s.hdr.dst60
  | .hdrDst61 => s.hdr.dst61
  | .hdrDst62 => s.hdr.dst62
  | .hdrDst63 => s.hdr.dst63

/-- What a Host read of a register of rule R284 returns while BUSY = 1, from the free word `f`. -/
def State.busyValue (s : State) (f : Word) (r : Reg) : Word :=
  if r = .status then s.statusBusy f else f

/-- A 32-bit Host read of the register at an offset. It "has no side effect" (rule R87): only what the Host
read, and a free value drawn, change. A reserved offset reads 0 (rules R30, R40). -/
def State.regRead (s : State) (off : Nat) : State :=
  match regAt off with
  | none => s.reply (.word 0)
  | some r =>
    if s.busy && r.unspecifiedWhileBusy then
      (s.reply (.word (s.busyValue (Config.freeWord s.draws) r))).drawn
    else s.reply (.word (s.regValue r))

/-! ### Writing a register -/

/-- A Host write of CMD: it latches a command while BUSY = 0 and is dropped, setting STATUS.OVR, while BUSY = 1
(rules R31, R285). -/
def State.writeCmd (s : State) (v : Word) : State :=
  if s.busy then { s with status := { s.status with ovr := true } } else s.latchCommand v

/-- A 32-bit Host write of `v` to a register. Operand registers and CTRL store at once, BUSY or not (rule R286).
"A write to a read-only register or to a read-only field is ignored" (rule R30). -/
def State.writeReg (s : State) (v : Word) : Reg → State
  | .cmd => s.writeCmd v
  | .status => { s with status := s.status.writeOneToClear v }
  | .ctrl => { s with irqEn := v.getLsbD 0 }
  | .bufBase => { s with ops := { s.ops with bufBase := v } }
  | .bufLen => { s with ops := { s.ops with bufLen := v } }
  | .segBase => { s with ops := { s.ops with segBase := v } }
  | .segLen => { s with ops := { s.ops with segLen := v } }
  | .arg => { s with ops := { s.ops with arg := v } }
  | _ => s

/-- A 32-bit Host write of `v` at an offset. A write to a reserved offset is ignored (rules R30, R40). -/
def State.regWrite (s : State) (off : Nat) (v : Word) : State :=
  match regAt off with
  | none => s
  | some r => s.writeReg v r

/-! ### The BUF port -/

/-- A Host byte read of BUF[a]. A byte not written since reset is the fault UNINIT_READ, and "the model gives
such a read no value" (rules R98, R284, R290; log 18). -/
def State.bufRead (s : State) (a : Nat) : State :=
  match s.readByte a with
  | some b => s.reply (.byte b)
  | none => (s.record [.uninitRead s.time]).reply .noValue

/-- The faults of a Host BUF write at `a`: BUSY_MUTATION while BUSY = 1 and VIEW_MUTATION inside the live view
(rules R96, R97, R287, R288). Each has its own condition, so both are recorded where both hold (log 8). -/
def State.writeFaults (s : State) (a : Nat) : List Fault :=
  (if s.busy then [.busyMutation s.time] else []) ++ (if s.inLiveView a then [.viewMutation s.time] else [])

/-- A Host byte write `MemWrite(a, 1, v)` (rules R10, R81). A write that faults is recorded and "leaves the byte
unspecified": a free value (rule R290; log 5). -/
def State.bufWrite (s : State) (a : Nat) (v : Byte) : State :=
  match s.writeFaults a with
  | [] => s.setBuf (s.buf.write a v)
  | fs => ((s.record fs).setBuf (s.buf.write a (Config.freeByte s.draws))).drawn

/-! ### One access on the host bus -/

/-- Which port, and which offset in it, a host-bus address reaches (rules R30, R81, R88). Where a platform let
the two windows overlap, the register window would win (log 3). -/
def route (c : Config) (addr : Nat) : Option (Port × Nat) :=
  if c.regBase ≤ addr ∧ addr < c.regBase + 0x100 then some (.reg, addr - c.regBase)
  else if c.bufHostBase ≤ addr ∧ addr < c.bufHostBase + c.bufSize then some (.buf, addr - c.bufHostBase)
  else none

/-- One Host access. The forms rules R81 and R85 leave without a meaning are refused (rule R274). -/
def hostAccess (b : BusAccess) (s : State) : Answer :=
  match route s.cfg b.addr with
  | none => .refused .noSuchAddress
  | some (.reg, off) =>
    if b.width = 4 ∧ off % 4 = 0 then
      match b.op with
      | .read => .next (s.regRead off)
      | .write v => .next (s.regWrite off v)
    else .refused .regAccessForm
  | some (.buf, a) =>
    if b.width = 1 then
      match b.op with
      | .read => .next (s.bufRead a)
      | .write v => .next (s.bufWrite a (v.extractLsb' 0 8))
    else .refused .bufAccessWidth

end Sys2Proof.Machine
end

