-- ==== Sys2Proof/Machine/Operands.lean ====
section
/-! DEFINITION. The operand forms: the fields of the snapshot of ARG, command by command (rule R112). -/

namespace Sys2Proof.Machine

/-- `byte` = ARG[7:0], of SPLIT_NIBBLE and SPLIT_BITS (rule R112). -/
def Latch.argByte (l : Latch) : Byte := l.ops.arg.extractLsb' 0 8

/-- `at` of SPLIT_BITS: the number of bits in the low part, ARG[11:8] with "values 9 to 15 treated as 8"
(rules R112, R151). -/
def Latch.argAt (l : Latch) : Nat := min (l.ops.arg.extractLsb' 8 4).toNat 8

/-- `v` = ARG[15:0], of SPLIT_FLAGS_OFFSET (rule R112). -/
def Latch.argHalf (l : Latch) : BitVec 16 := l.ops.arg.extractLsb' 0 16

/-- IHL = ARG[3:0], of OPT_PARSE (rule R112). -/
def Latch.argIhl (l : Latch) : BitVec 4 := l.ops.arg.extractLsb' 0 4

end Sys2Proof.Machine
end

