-- ==== Sys2Proof/Machine/BitField.lean ====
section
/-! DEFINITION. The bit-field codec: the three split functions (rules R150 to R154) and their commands. -/

namespace Sys2Proof.Machine

/-- `SplitNibble(b)` = (b[7:4], b[3:0]) (rule R150). -/
def splitNibble (b : Byte) : BitVec 4 × BitVec 4 := (b.extractLsb' 4 4, b.extractLsb' 0 4)

/-- `SplitBits(b, at)` = (b >> at, b AND (2^at - 1)), `at` from 0 to 8 (rule R151). -/
def splitBits (b : Byte) (low : Nat) : Byte × Byte := (b >>> low, b &&& BitVec.ofNat 8 (2 ^ low - 1))

/-- `SplitFlagsOffset(v)` = (v[15:13], v[12:0]) (rule R152). -/
def splitFlagsOffset (v : BitVec 16) : BitVec 3 × BitVec 13 := (v.extractLsb' 13 3, v.extractLsb' 0 13)

/-- SPLIT_NIBBLE (rule R150). -/
def execSplitNibble (s : State) : Answer :=
  withLatch s fun l =>
    let parts := splitNibble l.argByte
    .next (s.finish false (parts.1.setWidth 32) (parts.2.setWidth 32))

/-- SPLIT_BITS (rule R151). -/
def execSplitBits (s : State) : Answer :=
  withLatch s fun l =>
    let parts := splitBits l.argByte l.argAt
    .next (s.finish false (parts.1.setWidth 32) (parts.2.setWidth 32))

/-- SPLIT_FLAGS_OFFSET (rule R152). -/
def execSplitFlagsOffset (s : State) : Answer :=
  withLatch s fun l =>
    let parts := splitFlagsOffset l.argHalf
    .next (s.finish false (parts.1.setWidth 32) (parts.2.setWidth 32))

end Sys2Proof.Machine
end

