-- ==== Sys2Proof/Machine/Checksum.lean ====
section
/-! DEFINITION. The Internet checksum engine: the adder (rule R210), the pseudo-headers (rule R211), the common
procedure (rule R212) and the six commands (rules R213 to R218). -/

namespace Sys2Proof.Machine

/-- `Sum16(s)` (rules R11, R210): the sum, on natural numbers, of the big-endian 16-bit words, an odd tail
padded with one zero byte. -/
def sum16 : List Byte → Nat
  | [] => 0
  | [b] => b.toNat * 256
  | b :: c :: rest => b.toNat * 256 + c.toNat + sum16 rest

/-- `Fold` with a bound on how often the carry is folded back in. -/
def foldWithin : Nat → Nat → Nat
  | 0, n => n
  | bound + 1, n => if n ≤ 0xFFFF then n else foldWithin bound (n % 0x10000 + n / 0x10000)

/-- `Fold(n)` (rule R210): n if n <= 0xFFFF, and otherwise Fold((n AND 0xFFFF) + (n >> 16)). Each folding of a
number above 0xFFFF makes it smaller, so n foldings are enough for n. -/
def fold (n : Nat) : Nat := foldWithin n n

/-- `OcSum(s) = Fold(Sum16(s))`, 16 bits (rule R210). -/
def ocSum (bs : List Byte) : BitVec 16 := BitVec.ofNat 16 (fold (sum16 bs))

/-- The three pseudo-header variants (rule R212). -/
inductive Variant where
  | v4
  | v6
  | icmpv6
  deriving DecidableEq, Repr

/-- The HDR_KIND a variant needs (rules R212, R260). -/
def Variant.kind : Variant → Word
  | .v4 => 4
  | .v6 => 6
  | .icmpv6 => 6

/-- The pseudo-header P of a variant (rules R119, R120, R121, R211), built from the decoded-header registers
and the transport-length L.SEG_LEN. The 58 of ICMPv6 is a constant, whatever HDR_NEXT_HDR holds. -/
def pseudoHeader (h : Header) (segLen : Word) : Variant → List Byte
  | .v4 =>
    be32 h.src4 ++ be32 h.dst4 ++ [0x00#8, h.proto.extractLsb' 0 8] ++ be16 (segLen.extractLsb' 0 16)
  | .v6 =>
    be128 h.src60 h.src61 h.src62 h.src63 ++ be128 h.dst60 h.dst61 h.dst62 h.dst63 ++ be32 segLen ++
      [0x00#8, 0x00#8, 0x00#8, h.nextHdr.extractLsb' 0 8]
  | .icmpv6 =>
    be128 h.src60 h.src61 h.src62 h.src63 ++ be128 h.dst60 h.dst61 h.dst62 h.dst63 ++ be32 segLen ++
      [0x00#8, 0x00#8, 0x00#8, 0x3A#8]

/-- `CkCommand(variant, verify)` (rule R212): NO_HEADER, then RANGE, then SEG_TOO_LONG, then the sum. RES_A is
the checksum, RES_B the folded sum, and BOOL is (verify = 1 and S = 0xFFFF). -/
def ckCommand (variant : Variant) (verify : Bool) (s : State) : Answer :=
  withLatch s fun l =>
    if s.hdr.kind ≠ variant.kind then .next (s.raise (failure .noHeader 0 0 0))
    else if !s.windowInBuf l.ops.segBase l.ops.segLen then .next (s.raise (failure .range 0 0 0))
    else if variant = .v4 ∧ 0xFFFF < l.ops.segLen.toNat then
      .next (s.raise (failure .segTooLong 0xFFFF l.ops.segLen 0))
    else
      let segment := s.engineBytes l.ops.segBase.toNat l.ops.segLen.toNat
      let sum := ocSum (pseudoHeader s.hdr l.ops.segLen variant ++ segment)
      .next ((s.noteReads l.ops.segBase.toNat l.ops.segLen.toNat).finish (verify && sum == 0xFFFF#16)
        ((~~~sum).setWidth 32) (sum.setWidth 32))

/-- CK_V4_COMPUTE (rule R213). -/
def execCkV4Compute (s : State) : Answer := ckCommand .v4 false s

/-- CK_V6_COMPUTE (rule R214). -/
def execCkV6Compute (s : State) : Answer := ckCommand .v6 false s

/-- CK_ICMPV6_COMPUTE (rule R215). -/
def execCkIcmpv6Compute (s : State) : Answer := ckCommand .icmpv6 false s

/-- CK_V4_VERIFY (rule R216). -/
def execCkV4Verify (s : State) : Answer := ckCommand .v4 true s

/-- CK_V6_VERIFY (rule R217). -/
def execCkV6Verify (s : State) : Answer := ckCommand .v6 true s

/-- CK_ICMPV6_VERIFY (rule R218). -/
def execCkIcmpv6Verify (s : State) : Answer := ckCommand .icmpv6 true s

end Sys2Proof.Machine
end

