-- ==== Sys2Proof/Machine/Control.lean ====
section
/-! DEFINITION. The control commands NOP and CLEAR, and the completion of an illegal word (rules R240 to R242). -/

namespace Sys2Proof.Machine

/-- NOP (rule R240): "do nothing and complete". -/
def execNop (s : State) : Answer :=
  withLatch s fun _ => .next (s.finish false 0 0)

/-- CLEAR (rule R241): every decoded-header register becomes 0, which ends the live view. -/
def execClear (s : State) : Answer :=
  withLatch s fun _ => .next ((s.setHdr Header.zero).finish false 0 0)

/-- The completion of an illegal command word: BAD_COMMAND with DIAG_ACT = the word (rules R111, R122, R242). -/
def execIllegal (s : State) : Answer :=
  withLatch s fun l => .next (s.raise (failure .badCommand 0 l.word 0))

end Sys2Proof.Machine
end

