-- ==== Sys2Proof/Machine/Options.lean ====
section
/-! DEFINITION. The options-length validator and its command OPT_PARSE (rules R160 to R163). -/

namespace Sys2Proof.Machine

/-- `OptionsLen(ihl) = (ihl - 5) * 4`, for 5 <= ihl <= 15 (rule R161). -/
def optionsLen (ihl : Nat) : Nat := (ihl - 5) * 4

/-- OPT_PARSE (rule R160). It reads no BUF byte: "the options are opaque". -/
def execOptParse (s : State) : Answer :=
  withLatch s fun l =>
    let ihl := l.argIhl
    let need := optionsLen ihl.toNat
    if !s.windowInBuf l.ops.bufBase l.ops.bufLen then .next (s.raise (failure .range 0 0 0))
    else if ihl.toNat < 5 then .next (s.raise (failure .badIhl 5 (ihl.setWidth 32) 0))
    else if l.ops.bufLen.toNat < need then
      .next (s.raise (failure .truncated (BitVec.ofNat 32 need) l.ops.bufLen 0))
    else .next (s.finish false l.ops.bufBase (BitVec.ofNat 32 need))

end Sys2Proof.Machine
end

