-- ==== Sys2Proof/Machine/Ipv4.lean ====
section
/-! DEFINITION. IPv4: the decoder (rules R170 to R173), V4_DECODE and V4_HDR_VERIFY (rule R174). -/

namespace Sys2Proof.Machine

/-- The fixed fields of bytes 1 to 19, each zero-extended to a register (rules R43, R115). -/
structure V4Fields where
  dscp     : Word
  ecn      : Word
  totalLen : Word
  ident    : Word
  flags    : Word
  fragOff  : Word
  ttl      : Word
  proto    : Word
  cksum    : Word
  src      : Word
  dst      : Word
  deriving DecidableEq, Repr

/-- Step 6 of `Ipv4Decode` (rules R115, R154, R171): the fixed fields, from bytes 1 to 19. -/
def readV4Fields (s : State) (base : Nat) : V4Fields :=
  let tosParts := splitBits (BitVec.ofNat 8 (s.memRead (base + 1) 1)) 2
  let fragParts := splitFlagsOffset (BitVec.ofNat 16 (s.memRead (base + 6) 2))
  { dscp     := tosParts.1.setWidth 32
    ecn      := tosParts.2.setWidth 32
    totalLen := BitVec.ofNat 32 (s.memRead (base + 2) 2)
    ident    := BitVec.ofNat 32 (s.memRead (base + 4) 2)
    flags    := fragParts.1.setWidth 32
    fragOff  := fragParts.2.setWidth 32
    ttl      := BitVec.ofNat 32 (s.memRead (base + 8) 1)
    proto    := BitVec.ofNat 32 (s.memRead (base + 9) 1)
    cksum    := BitVec.ofNat 32 (s.memRead (base + 10) 2)
    src      := BitVec.ofNat 32 (s.memRead (base + 12) 4)
    dst      := BitVec.ofNat 32 (s.memRead (base + 16) 4) }

/-- `WriteV4(...)` (rules R42 to R46, R173): the IPv4 registers and views; every other register is 0. -/
def writeV4 (base len : Word) (ihl : BitVec 4) (f : V4Fields) : Header :=
  let hlen := BitVec.ofNat 32 (ihl.toNat * 4)
  { Header.zero with
    kind := 4, base := base, hlen := hlen, version := 4, ihl := ihl.setWidth 32,
    dscp := f.dscp, ecn := f.ecn, totalLen := f.totalLen, ident := f.ident,
    flags := f.flags, fragOff := f.fragOff, ttl := f.ttl, proto := f.proto, cksum := f.cksum,
    src4 := f.src, dst4 := f.dst,
    optAddr := base + 20, optLen := hlen - 20, payAddr := base + hlen, payLen := len - hlen }

/-- `Ipv4Decode(base, len)` (rules R171, R172): "The steps run in order and the first that fails ends the
command". Only byte 0 is read before the version and IHL checks, bytes 1 to 19 before the options check. -/
def ipv4Decode (s : State) (base len : Word) : DecodeResult :=
  let first := splitNibble (BitVec.ofNat 8 (s.memRead base.toNat 1))
  let ihl := first.2
  let f := readV4Fields s base.toNat
  if !s.windowInBuf base len then .fail 0 (failure .range 0 0 0)
  else if len.toNat < 20 then .fail 0 (failure .truncated 20 len 0)
  else if first.1 ≠ 4 then .fail 1 (failure .wrongVersion 4 (first.1.setWidth 32) 0)
  else if ihl.toNat < 5 then .fail 1 (failure .badIhl 5 (ihl.setWidth 32) 0)
  else if 5 < ihl.toNat ∧ len.toNat - 20 < optionsLen ihl.toNat then
    .fail 20 (failure .truncated (BitVec.ofNat 32 (ihl.toNat * 4)) len 0)
  else if len ≠ f.totalLen then .fail 20 (failure .lengthMismatch f.totalLen len 2)
  else .header 20 (writeV4 base len ihl f)

/-- V4_DECODE (rule R170). -/
def execV4Decode (s : State) : Answer :=
  withLatch s fun l => applyDecode s l.ops.bufBase.toNat (ipv4Decode s l.ops.bufBase l.ops.bufLen)

/-- V4_HDR_VERIFY (rule R174): the header checksum recomputed over IHL*4 bytes, bytes 10 and 11 taken as 0,
and compared for strict equality with the stored one. There is no RANGE check (log 14). -/
def execV4HdrVerify (s : State) : Answer :=
  withLatch s fun _ =>
    if s.hdr.kind ≠ 4 then .next (s.raise (failure .noHeader 0 0 0))
    else
      let h := s.engineBytes s.hdr.base.toNat s.hdr.hlen.toNat
      let sum := ocSum ((h.set 10 0x00#8).set 11 0x00#8)
      let cksum := (~~~sum).setWidth 32
      .next ((s.noteReads s.hdr.base.toNat s.hdr.hlen.toNat).finish (cksum == s.hdr.cksum) cksum (sum.setWidth 32))

end Sys2Proof.Machine
end

