-- ==== Sys2Proof/Machine/Ipv6.lean ====
section
/-! DEFINITION. IPv6: the decoder and V6_DECODE (rules R190 to R193). -/

namespace Sys2Proof.Machine

/-- The fixed fields of bytes 0 to 39, each zero-extended to a register (rules R45, R117). -/
structure V6Fields where
  tclass   : Word
  flow     : Word
  plen     : Word
  nextHdr  : Word
  hopLimit : Word
  src0     : Word
  src1     : Word
  src2     : Word
  src3     : Word
  dst0     : Word
  dst1     : Word
  dst2     : Word
  dst3     : Word
  deriving DecidableEq, Repr

/-- Step 4 of `Ipv6Decode` (rules R117, R191): the fixed fields, from bytes 0 to 39. -/
def readV6Fields (s : State) (base : Nat) : V6Fields :=
  let first : Word := BitVec.ofNat 32 (s.memRead base 4)
  { tclass   := (first.extractLsb' 20 8).setWidth 32
    flow     := (first.extractLsb' 0 20).setWidth 32
    plen     := BitVec.ofNat 32 (s.memRead (base + 4) 2)
    nextHdr  := BitVec.ofNat 32 (s.memRead (base + 6) 1)
    hopLimit := BitVec.ofNat 32 (s.memRead (base + 7) 1)
    src0     := BitVec.ofNat 32 (s.memRead (base + 8) 4)
    src1     := BitVec.ofNat 32 (s.memRead (base + 12) 4)
    src2     := BitVec.ofNat 32 (s.memRead (base + 16) 4)
    src3     := BitVec.ofNat 32 (s.memRead (base + 20) 4)
    dst0     := BitVec.ofNat 32 (s.memRead (base + 24) 4)
    dst1     := BitVec.ofNat 32 (s.memRead (base + 28) 4)
    dst2     := BitVec.ofNat 32 (s.memRead (base + 32) 4)
    dst3     := BitVec.ofNat 32 (s.memRead (base + 36) 4) }

/-- Step 6 of `Ipv6Decode` (rules R42, R45, R46, R191): the IPv6 registers and the payload view; every other
register is 0. -/
def writeV6 (base : Word) (f : V6Fields) : Header :=
  { Header.zero with
    kind := 6, base := base, hlen := 40, version := 6,
    tclass := f.tclass, flow := f.flow, plen6 := f.plen, nextHdr := f.nextHdr, hopLimit := f.hopLimit,
    src60 := f.src0, src61 := f.src1, src62 := f.src2, src63 := f.src3,
    dst60 := f.dst0, dst61 := f.dst1, dst62 := f.dst2, dst63 := f.dst3,
    payAddr := base + 40, payLen := f.plen }

/-- `Ipv6Decode(base, len)` (rules R191, R192). Only byte 0 is read before the version check, bytes 0 to 39 before
the length check. -/
def ipv6Decode (s : State) (base len : Word) : DecodeResult :=
  let version : BitVec 4 := (BitVec.ofNat 8 (s.memRead base.toNat 1)).extractLsb' 4 4
  let f := readV6Fields s base.toNat
  if !s.windowInBuf base len then .fail 0 (failure .range 0 0 0)
  else if len.toNat < 40 then .fail 0 (failure .truncated 40 len 0)
  else if version ≠ 6 then .fail 1 (failure .wrongVersion 6 (version.setWidth 32) 0)
  else if len - 40 ≠ f.plen then .fail 40 (failure .lengthMismatch (40 + f.plen) len 4)
  else .header 40 (writeV6 base f)

/-- V6_DECODE (rule R190). -/
def execV6Decode (s : State) : Answer :=
  withLatch s fun l => applyDecode s l.ops.bufBase.toNat (ipv6Decode s l.ops.bufBase l.ops.bufLen)

end Sys2Proof.Machine
end

