-- ==== Sys2Proof/Machine/Packet.lean ====
section
/-! DEFINITION. The version dispatch and PKT_DECODE (rules R200 to R203). -/

namespace Sys2Proof.Machine

/-- A decoder the dispatch delegates to: byte 0 has been read before it starts (rule R200). -/
def DecodeResult.afterByte0 (d : DecodeResult) : DecodeResult := { d with reads := max 1 d.reads }

/-- The dispatch of rule R200: "the single place new IP versions would be added" (rule R201). -/
def packetDecode (s : State) (base len : Word) : DecodeResult :=
  let n : BitVec 4 := (BitVec.ofNat 8 (s.memRead base.toNat 1)).extractLsb' 4 4
  if !s.windowInBuf base len then .fail 0 (failure .range 0 0 0)
  else if len = 0 then .fail 0 (failure .truncated 1 0 0)
  else if n = 4 then (ipv4Decode s base len).afterByte0
  else if n = 6 then (ipv6Decode s base len).afterByte0
  else .fail 1 { code := .unsupportedVersion, uver := n, exp := 0, act := n.setWidth 32, field := 0 }

/-- PKT_DECODE (rule R200). -/
def execPktDecode (s : State) : Answer :=
  withLatch s fun l => applyDecode s l.ops.bufBase.toNat (packetDecode s l.ops.bufBase l.ops.bufLen)

end Sys2Proof.Machine
end

