-- ==== Sys2Proof/Machine/Dispatch.lean ====
section
/-! DEFINITION. The meaning of each command: one arm per constructor of Instr. -/

namespace Sys2Proof.Machine

/-- The Engine's step for a legal command (rules R8, R114). -/
def exec (i : Instr) (s : State) : Host.Outcome State Fault Refusal :=
  match i with
  | .nop => Sys2Proof.Machine.execNop s
  | .pktDecode => Sys2Proof.Machine.execPktDecode s
  | .v4Decode => Sys2Proof.Machine.execV4Decode s
  | .v6Decode => Sys2Proof.Machine.execV6Decode s
  | .v4HdrVerify => Sys2Proof.Machine.execV4HdrVerify s
  | .optParse => Sys2Proof.Machine.execOptParse s
  | .splitNibble => Sys2Proof.Machine.execSplitNibble s
  | .splitBits => Sys2Proof.Machine.execSplitBits s
  | .splitFlagsOffset => Sys2Proof.Machine.execSplitFlagsOffset s
  | .ckV4Compute => Sys2Proof.Machine.execCkV4Compute s
  | .ckV6Compute => Sys2Proof.Machine.execCkV6Compute s
  | .ckIcmpv6Compute => Sys2Proof.Machine.execCkIcmpv6Compute s
  | .ckV4Verify => Sys2Proof.Machine.execCkV4Verify s
  | .ckV6Verify => Sys2Proof.Machine.execCkV6Verify s
  | .ckIcmpv6Verify => Sys2Proof.Machine.execCkIcmpv6Verify s
  | .clear => Sys2Proof.Machine.execClear s

end Sys2Proof.Machine
end

