-- ==== Sys2Proof/Machine/Engine.lean ====
section
/-! DEFINITION. The Engine's step and what one entry of the schedule does (rules R8, R111, R280). -/

namespace Sys2Proof.Machine

/-- The Engine's step: "when a command is latched (STATUS.BUSY = 1) it executes that command to completion in a
single atomic step" (rule R8). An illegal word completes with BAD_COMMAND (rule R111). With nothing latched the
Engine is not enabled and nothing happens (rules R50, R273; log 13). -/
def engineStep (s : State) : Answer :=
  match s.latch with
  | none => .next s
  | some l =>
    match decode l.word with
    | .ok i => exec i s
    | .error _ => execIllegal s

/-- What one entry of the schedule does. Reset "may occur at any step, independent of the Host and the Engine"
(rule R280). -/
def runEvent (e : Event) (s : State) : Answer :=
  match e with
  | .access b => hostAccess b s
  | .engine => engineStep s
  | .reset => .next s.afterReset

/-- One step of the whole system: the first entry of the schedule. When the schedule is used up (the Host's
program has ended), a latched command still completes, and then the block "is idle" (rules R8, R273, R290; log 2). -/
def nextStep (s : State) : Answer :=
  match s.agenda with
  | e :: _ => runEvent e s.advance
  | [] => if s.busy then engineStep s.advance else .next s

/-- The next step runs the command `v`, latched as a CMD write latches it, with the Engine scheduled next. -/
def State.withCommandNext (s : State) (v : Word) : State :=
  { s.latchCommand v with agenda := .engine :: s.agenda }

end Sys2Proof.Machine
end

