-- ==== Sys2Proof/Machine/Step.lean ====
section
/-! DEFINITION. The step of the machine, and how a command word comes to be the one the next step runs. -/

namespace Sys2Proof.Machine

/-- One step (rules R8, R280). -/
def step (s : State) : Host.Outcome State Fault Refusal := nextStep s

/-- `s` with the command word of `nbits` bits `w` latched and the Engine scheduled next: "A command word is read by
the Host's CMD write, not fetched from memory" (rule R94; log 11). -/
def State.withFetchWord (s : State) (nbits w : Nat) : State := s.withCommandNext (tableWord nbits w)

end Sys2Proof.Machine
end

