-- ==== Sys2Proof/Machine/HostNotation.lean ====
section
/-! DEFINITION. The Host program notation of rule R124, as events of the schedule. `poll` and `run` are loops on
what the Host reads, so a schedule holds the reads they make, and nothing stands here for them. -/

namespace Sys2Proof.Machine

/-- `wr NAME, v`: a Host 32-bit write of v to register NAME. -/
def hostWr (c : Config) (r : Reg) (v : Word) : Event :=
  .access { addr := c.regBase + r.offset, width := 4, op := .write v }

/-- `rd NAME`: a Host 32-bit read of register NAME. -/
def hostRd (c : Config) (r : Reg) : Event :=
  .access { addr := c.regBase + r.offset, width := 4, op := .read }

/-- `sb a, v`: a Host byte write v to BUF[a]. -/
def hostSb (c : Config) (a : Nat) (v : Byte) : Event :=
  .access { addr := c.bufHostBase + a, width := 1, op := .write (v.setWidth 32) }

/-- `lb a`: a Host byte read of BUF[a]. -/
def hostLb (c : Config) (a : Nat) : Event :=
  .access { addr := c.bufHostBase + a, width := 1, op := .read }

/-- `sbs a, b0 b1 ... bk`: one byte write after another. -/
def hostSbs (c : Config) (a : Nat) : List Byte → List Event
  | [] => []
  | b :: bs => hostSb c a b :: hostSbs c (a + 1) bs

/-- `cmd MNEMONIC`: `wr CMD, 0x000000OO`. -/
def hostCmd (c : Config) (i : Instr) : Event := hostWr c .cmd (encode i)

/-- `ack`: clear DONE and OVR. -/
def hostAck (c : Config) : Event := hostWr c .status 0x00000012#32

end Sys2Proof.Machine
end

