-- ==== Sys2Proof/WellFormed.lean ====
section
/-! DEFINITION. Well-formedness: of an instruction (no operand, so nothing to check) and of the parameters
(rule R6). -/

namespace Sys2Proof

/-- Every command is well formed: it "carries no register numbers and no immediates" (rule R110) and "no ARG
value can make these commands fail" to be commands (rule R112). One arm per constructor, so that a command
with an operand could not slip past. -/
def Instr.wf : Instr → Bool
  | .nop => true
  | .pktDecode => true
  | .v4Decode => true
  | .v6Decode => true
  | .v4HdrVerify => true
  | .optParse => true
  | .splitNibble => true
  | .splitBits => true
  | .splitFlagsOffset => true
  | .ckV4Compute => true
  | .ckV6Compute => true
  | .ckIcmpv6Compute => true
  | .ckV4Verify => true
  | .ckV6Verify => true
  | .ckIcmpv6Verify => true
  | .clear => true

/-- BUF_SIZE is in its range, "1 <= BUF_SIZE <= 2^32 - 1" (rule R6). -/
def Config.sizeOk (c : Config) : Bool :=
  decide (1 ≤ c.bufSize) && decide (c.bufSize ≤ 2 ^ 32 - 1)

/-- The register window [REG_BASE, REG_BASE + 0x100) and BUF [BUF_HOST_BASE, BUF_HOST_BASE + BUF_SIZE) share
no host-bus address. PRESUMED of every platform (log 3): the spec leaves both bases to it (rule R88). -/
def Config.windowsApart (c : Config) : Bool :=
  decide (c.regBase + 0x100 ≤ c.bufHostBase) || decide (c.bufHostBase + c.bufSize ≤ c.regBase)

/-- The parameters a machine may have. -/
def Config.wf (c : Config) : Bool :=
  c.sizeOk && c.windowsApart

end Sys2Proof
end

