-- ==== Sys2Proof/Safety.lean ====
section
/-! DEFINITION. The terms the statements use: a completion spelled out, the invariant of the machine, and a good
run (rules R250, R290). -/

namespace Sys2Proof.Machine

/-- Rule R250 spelled out for the statements, apart from the model's own `State.complete`: the state `s` after a
completion with these values and decoded-header registers `hdr`. BUSY is 0 because LATCH is empty, DONE is 1,
OVR "is not changed by a completion", and every field not named keeps its value. -/
def completion (s : State) (hdr : Header) (code : Code) (bool : Bool) (uver : BitVec 4)
    (a b exp act field : Word) : State :=
  { s with
    hdr    := hdr
    latch  := none
    status := { done := true, bool := bool, ovr := s.status.ovr, code := code, uver := uver }
    res    := { resA := a, resB := b, diagExp := exp, diagAct := act, diagField := field } }

/-- A step's bookkeeping: the schedule's first entry is used and the step counted. -/
def afterEntry (s : State) (rest : List Event) : State := { s with agenda := rest, time := s.time + 1 }

/-- The latched window (L.BUF_BASE, L.BUF_LEN) lies in BUF and its bytes `b` make an IPv4 datagram that decodes, by the
success condition of rule R177 and the byte offsets of rule R115. Only the fixed header's 20 bytes need be written. -/
structure HoldsV4Datagram (s : State) (l : Latch) (b : Nat → Byte) : Prop where
  bytes   : ∀ i < 20, s.readByte (l.ops.bufBase.toNat + i) = some (b i)
  window  : l.ops.bufBase.toNat + l.ops.bufLen.toNat ≤ s.cfg.bufSize
  fixed   : 20 ≤ l.ops.bufLen.toNat
  version : (b 0).toNat / 16 = 4
  ihl     : 5 ≤ (b 0).toNat % 16
  options : (b 0).toNat % 16 * 4 ≤ l.ops.bufLen.toNat
  total   : (b 2).toNat * 256 + (b 3).toNat = l.ops.bufLen.toNat

/-- The decoded-header registers of that datagram, field by field on numbers (rules R43, R44, R115, R173). -/
def wireV4Header (l : Latch) (b : Nat → Byte) : Header :=
  { Header.zero with
    kind     := 4
    base     := l.ops.bufBase
    hlen     := BitVec.ofNat 32 ((b 0).toNat % 16 * 4)
    version  := 4
    ihl      := BitVec.ofNat 32 ((b 0).toNat % 16)
    dscp     := BitVec.ofNat 32 ((b 1).toNat / 4)
    ecn      := BitVec.ofNat 32 ((b 1).toNat % 4)
    totalLen := BitVec.ofNat 32 ((b 2).toNat * 256 + (b 3).toNat)
    ident    := BitVec.ofNat 32 ((b 4).toNat * 256 + (b 5).toNat)
    flags    := BitVec.ofNat 32 ((b 6).toNat / 32)
    fragOff  := BitVec.ofNat 32 ((b 6).toNat % 32 * 256 + (b 7).toNat)
    ttl      := BitVec.ofNat 32 (b 8).toNat
    proto    := BitVec.ofNat 32 (b 9).toNat
    cksum    := BitVec.ofNat 32 ((b 10).toNat * 256 + (b 11).toNat)
    src4     := b 12 ++ b 13 ++ b 14 ++ b 15
    dst4     := b 16 ++ b 17 ++ b 18 ++ b 19
    optAddr  := BitVec.ofNat 32 (l.ops.bufBase.toNat + 20)
    optLen   := BitVec.ofNat 32 (((b 0).toNat % 16 - 5) * 4)
    payAddr  := BitVec.ofNat 32 (l.ops.bufBase.toNat + (b 0).toNat % 16 * 4)
    payLen   := BitVec.ofNat 32 (l.ops.bufLen.toNat - (b 0).toNat % 16 * 4) }

/-- The latched window lies in BUF and its bytes `b` make an IPv6 datagram that decodes (rules R117, R191). Only the fixed
header's 40 bytes need be written. -/
structure HoldsV6Datagram (s : State) (l : Latch) (b : Nat → Byte) : Prop where
  bytes   : ∀ i < 40, s.readByte (l.ops.bufBase.toNat + i) = some (b i)
  window  : l.ops.bufBase.toNat + l.ops.bufLen.toNat ≤ s.cfg.bufSize
  version : (b 0).toNat / 16 = 6
  total   : l.ops.bufLen.toNat = 40 + ((b 4).toNat * 256 + (b 5).toNat)

/-- The decoded-header registers of that datagram, field by field on numbers (rules R45, R117, R191). -/
def wireV6Header (l : Latch) (b : Nat → Byte) : Header :=
  { Header.zero with
    kind     := 6
    base     := l.ops.bufBase
    hlen     := 40
    version  := 6
    tclass   := BitVec.ofNat 32 ((b 0).toNat % 16 * 16 + (b 1).toNat / 16)
    flow     := BitVec.ofNat 32 (((b 1).toNat % 16 * 256 + (b 2).toNat) * 256 + (b 3).toNat)
    plen6    := BitVec.ofNat 32 ((b 4).toNat * 256 + (b 5).toNat)
    nextHdr  := BitVec.ofNat 32 (b 6).toNat
    hopLimit := BitVec.ofNat 32 (b 7).toNat
    src60    := b 8 ++ b 9 ++ b 10 ++ b 11
    src61    := b 12 ++ b 13 ++ b 14 ++ b 15
    src62    := b 16 ++ b 17 ++ b 18 ++ b 19
    src63    := b 20 ++ b 21 ++ b 22 ++ b 23
    dst60    := b 24 ++ b 25 ++ b 26 ++ b 27
    dst61    := b 28 ++ b 29 ++ b 30 ++ b 31
    dst62    := b 32 ++ b 33 ++ b 34 ++ b 35
    dst63    := b 36 ++ b 37 ++ b 38 ++ b 39
    payAddr  := BitVec.ofNat 32 (l.ops.bufBase.toNat + 40)
    payLen   := BitVec.ofNat 32 ((b 4).toNat * 256 + (b 5).toNat) }

/-- The IPv6-only registers are 0 (rule R46). -/
structure Header.NoV6 (h : Header) : Prop where
  tclass   : h.tclass = 0
  flow     : h.flow = 0
  plen6    : h.plen6 = 0
  nextHdr  : h.nextHdr = 0
  hopLimit : h.hopLimit = 0
  src60    : h.src60 = 0
  src61    : h.src61 = 0
  src62    : h.src62 = 0
  src63    : h.src63 = 0
  dst60    : h.dst60 = 0
  dst61    : h.dst61 = 0
  dst62    : h.dst62 = 0
  dst63    : h.dst63 = 0

/-- The IPv4-only registers are 0 (rule R46). -/
structure Header.NoV4 (h : Header) : Prop where
  ihl      : h.ihl = 0
  dscp     : h.dscp = 0
  ecn      : h.ecn = 0
  totalLen : h.totalLen = 0
  ident    : h.ident = 0
  flags    : h.flags = 0
  fragOff  : h.fragOff = 0
  ttl      : h.ttl = 0
  proto    : h.proto = 0
  cksum    : h.cksum = 0
  src4     : h.src4 = 0
  dst4     : h.dst4 = 0
  optAddr  : h.optAddr = 0
  optLen   : h.optLen = 0

/-- The registers hold an IPv4 header in a BUF of `size` bytes: KIND and VERSION 4, every field within its bits
(rule R43), the views of rule R44 and the source's two invariants of rule R173. -/
structure Header.IsV4 (h : Header) (size : Nat) : Prop where
  kind     : h.kind = 4
  version  : h.version = 4
  ihlLow   : 5 ≤ h.ihl.toNat
  ihlHigh  : h.ihl.toNat ≤ 15
  hlen     : h.hlen.toNat = h.ihl.toNat * 4
  dscp     : h.dscp.toNat < 2 ^ 6
  ecn      : h.ecn.toNat < 2 ^ 2
  totalLen : h.totalLen.toNat < 2 ^ 16
  ident    : h.ident.toNat < 2 ^ 16
  flags    : h.flags.toNat < 2 ^ 3
  fragOff  : h.fragOff.toNat < 2 ^ 13
  ttl      : h.ttl.toNat < 2 ^ 8
  proto    : h.proto.toNat < 2 ^ 8
  cksum    : h.cksum.toNat < 2 ^ 16
  optAddr  : h.optAddr.toNat = h.base.toNat + 20
  optLen   : h.optLen.toNat + 20 = h.ihl.toNat * 4
  payAddr  : h.payAddr.toNat = h.base.toNat + h.hlen.toNat
  total    : h.totalLen.toNat = h.payLen.toNat + h.hlen.toNat
  inBuf    : h.payAddr.toNat + h.payLen.toNat ≤ size
  noV6     : h.NoV6

/-- The registers hold an IPv6 header in a BUF of `size` bytes (rules R45, R191). -/
structure Header.IsV6 (h : Header) (size : Nat) : Prop where
  kind     : h.kind = 6
  version  : h.version = 6
  hlen     : h.hlen = 40
  tclass   : h.tclass.toNat < 2 ^ 8
  flow     : h.flow.toNat < 2 ^ 20
  plen6    : h.plen6.toNat < 2 ^ 16
  nextHdr  : h.nextHdr.toNat < 2 ^ 8
  hopLimit : h.hopLimit.toNat < 2 ^ 8
  payAddr  : h.payAddr.toNat = h.base.toNat + 40
  payLen   : h.payLen = h.plen6
  inBuf    : h.payAddr.toNat + h.payLen.toNat ≤ size
  noV4     : h.NoV4

/-- "exactly one tag is active at a time; it never holds both" (rules R41, R46, R201): no header, an IPv4 header or
an IPv6 header. -/
def Header.Closed (h : Header) (size : Nat) : Prop := h = Header.zero ∨ h.IsV4 size ∨ h.IsV6 size

/-- The invariant of the machine. -/
structure Inv (s : State) : Prop where
  /-- The parameters are in their ranges (rule R6). -/
  cfg        : s.cfg.wf = true
  /-- BUF keeps its canonical form. -/
  bufSorted  : s.buf.wf = true
  /-- BUF lists no byte outside it (rule R80). -/
  bufInside  : s.buf.within s.cfg.bufSize = true
  /-- The decoded-header registers hold exactly one variant (rules R41, R46, R201). -/
  hdr        : s.hdr.Closed s.cfg.bufSize
  /-- DONE is 0 while BUSY is 1 (rules R32, R284). -/
  handshake  : s.busy = true → s.status.done = false
  /-- BOOL is 1 only after a verify that holds, which completes OK (rules R50, R250). -/
  boolOk     : s.status.bool = true → s.status.code = .ok
  /-- UVER is "of an UNSUPPORTED_VERSION completion, else 0" (rule R32). -/
  uver       : s.status.code ≠ .unsupportedVersion → s.status.uver = 0
  /-- The diagnostics "are 0 on an OK completion" (rule R38). -/
  diagOk     : s.status.code = .ok → s.res.diagExp = 0 ∧ s.res.diagAct = 0 ∧ s.res.diagField = 0
  /-- The results are 0 after an error (rule R250). -/
  resErr     : s.status.code ≠ .ok → s.res.resA = 0 ∧ s.res.resB = 0

/-- "In a run without a fault they still hold what the decode read" (rule R174): while no fault is recorded, every
byte of the fixed header of the live view's datagram is written, and decoding the datagram again gives exactly the
decoded-header registers (rules R96, R176). -/
structure LiveViewIntact (s : State) : Prop where
  v4Written : s.faults = [] → s.hdr.kind = 4 → ∀ i < 20, s.readByte (s.hdr.base.toNat + i) ≠ none
  v4        : s.faults = [] → s.hdr.kind = 4 → (ipv4Decode s s.hdr.base s.hdr.totalLen).outcome = .ok s.hdr
  v6Written : s.faults = [] → s.hdr.kind = 6 → ∀ i < 40, s.readByte (s.hdr.base.toNat + i) ≠ none
  v6        : s.faults = [] → s.hdr.kind = 6 → (ipv6Decode s s.hdr.base (s.hdr.plen6 + 40)).outcome = .ok s.hdr

/-- "A run ends when the Host's program has ended and STATUS.BUSY = 0" (rule R290). -/
def State.runEnded (s : State) : Prop := s.agenda = [] ∧ s.busy = false

/-- "A run is good when it ends with an empty fault record" (rule R290): from `s`, some number of steps ends in
`t` with no stop on the way. -/
def GoodRun (s t : State) : Prop :=
  ∃ k, Host.Core.run Sys2Proof.core k s = .next t ∧ t.runEnded ∧ t.faults = []

end Sys2Proof.Machine
end

