-- ==== Sys2Proof/Certificates/Slice0/Obligations.lean ====
section
/-! DEFINITION. The statements about the block, for the provers. `completion` (Safety.lean) is rule R250 spelled out
field by field, so a conclusion `exec i s = .next (completion …)` is at once the command's result, its completion and
its frame: every field of the state it does not name is that of `s`. -/

open Sys2Proof Sys2Proof.Machine

/-! ### Encoding -/

/-- Words written out from the opcode map of rule R114 decode to the commands it names, and the words 0x06, 0x101 and
0x80000001 of vectors V84, V86 and V88 are illegal. -/
def Obligations.TableWordsDecode : Prop :=
  decode 0x00000000#32 = .ok .nop ∧ decode 0x00000001#32 = .ok .pktDecode ∧
  decode 0x00000004#32 = .ok .v4HdrVerify ∧ decode 0x00000005#32 = .ok .optParse ∧
  decode 0x0000000A#32 = .ok .splitFlagsOffset ∧ decode 0x0000001A#32 = .ok .ckIcmpv6Verify ∧
  decode 0x0000003F#32 = .ok .clear ∧ decode 0x00000006#32 = .error .reservedOpc ∧
  decode 0x00000101#32 = .error .mbzNotZero ∧ decode 0x80000001#32 = .error .mbzNotZero

/-- Decoding the word of a well-formed command gives it back. -/
def Obligations.DecodeOfEncode : Prop :=
  ∀ i : Instr, i.wf = true → decode (encode i) = .ok i

/-- Rule R111, for every one of the 2^32 words: it names the command that rule R114 lists for it and no other, it is
illegal for its bits 31:8, or it is illegal for a reserved OPC. -/
def Obligations.EveryWordNamesOneCommandOrIsIllegal : Prop :=
  ∀ v : Word,
    (∀ i : Instr, decode v = .ok i ↔ (v.toNat, i) ∈
      [(0x00, Instr.nop), (0x01, .pktDecode), (0x02, .v4Decode), (0x03, .v6Decode), (0x04, .v4HdrVerify),
       (0x05, .optParse), (0x08, .splitNibble), (0x09, .splitBits), (0x0A, .splitFlagsOffset),
       (0x10, .ckV4Compute), (0x11, .ckV6Compute), (0x12, .ckIcmpv6Compute), (0x18, .ckV4Verify),
       (0x19, .ckV6Verify), (0x1A, .ckIcmpv6Verify), (0x3F, .clear)]) ∧
    (2 ^ 8 ≤ v.toNat → decode v = .error .mbzNotZero) ∧
    (v.toNat < 2 ^ 8 →
      v.toNat ∉ [0x00, 0x01, 0x02, 0x03, 0x04, 0x05, 0x08, 0x09, 0x0A, 0x10, 0x11, 0x12, 0x18, 0x19, 0x1A, 0x3F] →
      decode v = .error .reservedOpc)

/-! ### The step -/

/-- A step with the Engine scheduled, or with the schedule used up, runs the latched command it decodes; around it,
the schedule's entry is used and the step counted. The schedule is the model's own (log 2). -/
def Obligations.StepRunsTheDecodedCommand : Prop :=
  ∀ (s : State) (l : Latch) (i : Instr), s.latch = some l → decode l.word = .ok i →
    (∀ rest, s.agenda = .engine :: rest → step s = exec i (afterEntry s rest)) ∧
    (s.agenda = [] → step s = exec i (afterEntry s []))

/-- Rules R242 and R259: an illegal command word completes with BAD_COMMAND and DIAG_ACT = the word; no
decoded-header register and no byte changes. -/
def Obligations.IllegalWordCompletesBadCommand : Prop :=
  ∀ (s : State) (l : Latch) (e : DecodeError) (rest : List Event),
    s.latch = some l → decode l.word = .error e → s.agenda = .engine :: rest →
    step s = .next (completion (afterEntry s rest) s.hdr .badCommand false 0 0 0 0 l.word 0)

/-- Rules R250 and R274: a latched command, legal or not, ends the Engine's step in a completion that empties LATCH and
sets DONE with OVR kept, in every state; it records no fault or the fault UNINIT_READ of rules R98 and R290, with its step.
No step of the machine stops with a fault: what rule R274 calls a fault is only ever recorded. That the command whose read
was recorded completes all the same is the model's choice (log 6). -/
def Obligations.EngineStepCompletesAndRecordsFaults : Prop :=
  (∀ (s : State) (l : Latch), s.latch = some l →
    ∃ t, engineStep s = .next t ∧ t.latch = none ∧ t.busy = false ∧ t.status.done = true ∧
      t.status.ovr = s.status.ovr ∧ (t.faults = s.faults ∨ t.faults = s.faults ++ [.uninitRead s.time])) ∧
  ∀ (s : State) (f : Fault), step s ≠ .fault f

/-- The end of a schedule: a latched command still completes, in one step, and then the block is idle for ever. The
schedule is the model's own (log 2). -/
def Obligations.ScheduleEndCompletesThenIdles : Prop :=
  ∀ s : State, s.agenda = [] →
    (s.busy = false → step s = .next s) ∧
    (s.busy = true → ∃ t, step s = .next t ∧ t.status.done = true ∧ step t = .next t)

/-- What a command leaves unchanged (rules R82, R113, R250): every field but LATCH, STATUS, the result registers and
the decoded-header registers, STATUS.OVR too, and every byte of BUF. The decoded-header registers of a command that
neither decodes nor clears are unchanged as well. The fault record and the model's count of free values (log 6) change
together: by UNINIT_READ with this step and by one, or not at all. -/
def Obligations.CommandFrame : Prop :=
  ∀ (i : Instr) (s t : State), exec i s = .next t →
    t = { s with
      latch := none
      status := t.status
      res := t.res
      hdr := t.hdr
      faults := t.faults
      draws := t.draws } ∧
    t.status.ovr = s.status.ovr ∧
    (∀ a, t.readByte a = s.readByte a) ∧
    (i ∉ [Instr.pktDecode, .v4Decode, .v6Decode, .clear] → t.hdr = s.hdr) ∧
    (t.faults = s.faults ∧ t.draws = s.draws ∨
      t.faults = s.faults ++ [.uninitRead s.time] ∧ t.draws = s.draws + 1)

/-! ### Host register accesses -/

/-- Rules R31 and R47: a CMD write while BUSY = 0 latches the word with a snapshot of the operand registers and clears
DONE; while BUSY = 1 it is dropped and only sets OVR; a read of CMD returns 0, and no command is latched after reset. -/
def Obligations.CommandWriteLatchesOrOverruns : Prop :=
  (∀ (s : State) (v : Word) (rest : List Event), s.agenda = hostWr s.cfg .cmd v :: rest →
    (s.latch = none → step s = .next { afterEntry s rest with
      latch := some { word := v, ops := s.ops }, status := { s.status with done := false } }) ∧
    (s.latch ≠ none → step s = .next { afterEntry s rest with status := { s.status with ovr := true } })) ∧
  (∀ (s : State) (rest : List Event), s.agenda = hostRd s.cfg .cmd :: rest →
    step s = .next { afterEntry s rest with lastRead := .word 0 }) ∧
  State.reset.latch = none

/-- Rule R32: a Host write of STATUS clears DONE where bit 1 is written 1 and OVR where bit 4 is written 1, and changes
nothing else, BUSY or not. -/
def Obligations.StatusWriteClearsDoneAndOverrun : Prop :=
  ∀ (s : State) (v : Word) (rest : List Event), s.agenda = hostWr s.cfg .status v :: rest →
    step s = .next { afterEntry s rest with status := { s.status with
      done := if v.toNat / 2 % 2 = 1 then false else s.status.done
      ovr := if v.toNat / 16 % 2 = 1 then false else s.status.ovr } }

/-- OVR is sticky (rules R32, R50, R285): once set, a step clears it only by reset or by a Host write of STATUS. -/
def Obligations.OverrunIsSticky : Prop :=
  ∀ s t : State, step s = .next t → s.status.ovr = true → t.status.ovr = false →
    s.agenda.head? = some .reset ∨
      ∃ v, s.agenda.head? = some (hostWr s.cfg .status v) ∧ v.toNat / 16 % 2 = 1

/-- Rules R33, R34, R35, R36: what a Host write of CTRL and of each operand register stores, BUSY or not. -/
def Obligations.OperandWritesStore : Prop :=
  ∀ (s : State) (v : Word) (rest : List Event),
    (s.agenda = hostWr s.cfg .ctrl v :: rest →
      step s = .next { afterEntry s rest with irqEn := decide (v.toNat % 2 = 1) }) ∧
    (s.agenda = hostWr s.cfg .bufBase v :: rest →
      step s = .next { afterEntry s rest with ops := { s.ops with bufBase := v } }) ∧
    (s.agenda = hostWr s.cfg .bufLen v :: rest →
      step s = .next { afterEntry s rest with ops := { s.ops with bufLen := v } }) ∧
    (s.agenda = hostWr s.cfg .segBase v :: rest →
      step s = .next { afterEntry s rest with ops := { s.ops with segBase := v } }) ∧
    (s.agenda = hostWr s.cfg .segLen v :: rest →
      step s = .next { afterEntry s rest with ops := { s.ops with segLen := v } }) ∧
    (s.agenda = hostWr s.cfg .arg v :: rest →
      step s = .next { afterEntry s rest with ops := { s.ops with arg := v } })

/-- Rules R30 and R40: a write to a read-only register, to IDR or to a reserved offset is ignored. -/
def Obligations.ReadOnlyAndReservedWritesAreIgnored : Prop :=
  ∀ (s : State) (off : Nat) (v : Word) (rest : List Event), 0x020 ≤ off → off < 0x100 → off % 4 = 0 →
    s.agenda = .access { addr := s.cfg.regBase + off, width := 4, op := .write v } :: rest →
    step s = .next (afterEntry s rest)

/-- Rule R286: an operand write while BUSY = 1 does not touch LATCH, and no command depends on the live operand
registers: with others in their place it ends alike and leaves them in place. -/
def Obligations.CommandsReadTheSnapshot : Prop :=
  ∀ (i : Instr) (s t : State) (o : Operands), exec i s = .next t →
    exec i { s with ops := o } = .next { t with ops := o }

/-- The register map of rule R30 read while BUSY = 0: each offset returns its register, a reserved one 0, and the read
"has no side effect" (rule R87). -/
def Obligations.IdleReadsFollowTheRegisterMap : Prop :=
  ∀ (s : State) (off : Nat) (w : Word) (rest : List Event), s.busy = false →
    (off, w) ∈
      [(0x000, 0), (0x004, s.statusIdle), (0x008, if s.irqEn then 1 else 0), (0x00C, s.ops.bufBase),
       (0x010, s.ops.bufLen), (0x014, s.ops.segBase), (0x018, s.ops.segLen), (0x01C, s.ops.arg),
       (0x020, s.res.resA), (0x024, s.res.resB), (0x028, s.res.diagExp), (0x02C, s.res.diagAct),
       (0x030, s.res.diagField), (0x034, 0x49504801), (0x038, 0), (0x03C, 0), (0x040, s.hdr.kind),
       (0x044, s.hdr.base), (0x048, s.hdr.hlen), (0x04C, s.hdr.version), (0x050, s.hdr.ihl),
       (0x054, s.hdr.dscp), (0x058, s.hdr.ecn), (0x05C, s.hdr.totalLen), (0x060, s.hdr.ident),
       (0x064, s.hdr.flags), (0x068, s.hdr.fragOff), (0x06C, s.hdr.ttl), (0x070, s.hdr.proto),
       (0x074, s.hdr.cksum), (0x078, s.hdr.src4), (0x07C, s.hdr.dst4), (0x080, s.hdr.optAddr),
       (0x084, s.hdr.optLen), (0x088, s.hdr.payAddr), (0x08C, s.hdr.payLen), (0x090, s.hdr.tclass),
       (0x094, s.hdr.flow), (0x098, s.hdr.plen6), (0x09C, s.hdr.nextHdr), (0x0A0, s.hdr.hopLimit),
       (0x0A4, s.hdr.src60), (0x0A8, s.hdr.src61), (0x0AC, s.hdr.src62), (0x0B0, s.hdr.src63),
       (0x0B4, s.hdr.dst60), (0x0B8, s.hdr.dst61), (0x0BC, s.hdr.dst62), (0x0C0, s.hdr.dst63),
       (0x0C4, 0), (0x0C8, 0), (0x0CC, 0), (0x0D0, 0), (0x0D4, 0), (0x0D8, 0), (0x0DC, 0), (0x0E0, 0),
       (0x0E4, 0), (0x0E8, 0), (0x0EC, 0), (0x0F0, 0), (0x0F4, 0), (0x0F8, 0), (0x0FC, (0 : Word))] →
    s.agenda = .access { addr := s.cfg.regBase + off, width := 4, op := .read } :: rest →
    step s = .next { afterEntry s rest with lastRead := .word w }

/-- The bits of STATUS while BUSY = 0 (rule R32) and the code numbers of rule R251, as a number: DONE at 2, ERR (CODE is
not 0) at 4, BOOL at 8, OVR at 16, CODE at 256, UVER at 65536, every reserved bit 0. -/
def Obligations.StatusWordIsLaidOutAsTheTableSays : Prop :=
  ∀ s : State, ∃ n : Nat,
    (s.status.code, n) ∈
      [(Code.ok, 0x00), (.truncated, 0x01), (.wrongVersion, 0x02), (.unsupportedVersion, 0x03),
       (.lengthMismatch, 0x04), (.badIhl, 0x10), (.range, 0x11), (.badCommand, 0x12), (.noHeader, 0x13),
       (.segTooLong, 0x14)] ∧
    s.statusIdle.toNat = s.status.done.toNat * 2 + (decide (n ≠ 0)).toNat * 4 + s.status.bool.toNat * 8 +
      s.status.ovr.toNat * 16 + n * 256 + s.status.uver.toNat * 65536

/-- Rule R284, whatever the free values are (log 7): while BUSY = 1 a read of STATUS returns BUSY = 1, DONE = 0, OVR at its value
and 0 in the reserved bits, and a read of CTRL, IDR or an operand register returns its value; no other field of the state
changes but the count of free values drawn. -/
def Obligations.BusyReadsKeepTheHandshake : Prop :=
  ∀ (s : State) (rest : List Event), s.busy = true →
    (s.agenda = hostRd s.cfg .status :: rest → ∃ w : Word,
      step s = .next { afterEntry s rest with lastRead := .word w, draws := s.draws + 1 } ∧
      w.toNat % 4 = 1 ∧ w.toNat / 16 % 16 = s.status.ovr.toNat ∧ w.toNat < 2 ^ 20) ∧
    (∀ p ∈ [(Reg.ctrl, if s.irqEn then (1 : Word) else 0), (.bufBase, s.ops.bufBase), (.bufLen, s.ops.bufLen),
        (.segBase, s.ops.segBase), (.segLen, s.ops.segLen), (.arg, s.ops.arg), (.idr, 0x49504801)],
      s.agenda = hostRd s.cfg p.1 :: rest → step s = .next { afterEntry s rest with lastRead := .word p.2 }) ∧
    (∀ r ∈ [Reg.resA, .resB, .diagExp, .diagAct, .diagField] ++ headerRegs,
      s.agenda = hostRd s.cfg r :: rest → ∃ w,
        step s = .next { afterEntry s rest with lastRead := .word w, draws := s.draws + 1 })

/-- Rules R81, R85 and R274: the accesses the model has no step for. That an address of neither window shares the name of a BUF
address of BUF_SIZE or more is the model's choice (log 19). -/
def Obligations.AccessesOfAnotherFormAreRefused : Prop :=
  ∀ (s : State) (b : BusAccess) (rest : List Event), s.agenda = .access b :: rest → s.cfg.wf = true →
    (s.cfg.regBase ≤ b.addr → b.addr < s.cfg.regBase + 0x100 →
      b.width ≠ 4 ∨ (b.addr - s.cfg.regBase) % 4 ≠ 0 → step s = .refused .regAccessForm) ∧
    (s.cfg.bufHostBase ≤ b.addr → b.addr < s.cfg.bufHostBase + s.cfg.bufSize → b.width ≠ 1 →
      step s = .refused .bufAccessWidth) ∧
    (b.addr < s.cfg.regBase ∨ s.cfg.regBase + 0x100 ≤ b.addr →
      b.addr < s.cfg.bufHostBase ∨ s.cfg.bufHostBase + s.cfg.bufSize ≤ b.addr → step s = .refused .noSuchAddress)

/-- The interrupt output (rules R51, R266): irq = CTRL.IRQ_EN AND STATUS.DONE. It is 0 at reset, every completion raises
it exactly when it is enabled, and `ack` or the next latched command lowers it. -/
def Obligations.InterruptFollowsDone : Prop :=
  (∀ s : State, s.irq = true ↔ s.irqEn = true ∧ s.status.done = true) ∧
  State.reset.irq = false ∧
  (∀ (s t : State) (i : Instr), exec i s = .next t → t.irq = s.irqEn) ∧
  (∀ (s t : State) (rest : List Event), s.agenda = hostAck s.cfg :: rest → step s = .next t → t.irq = false) ∧
  (∀ (s t : State) (v : Word) (rest : List Event), s.agenda = hostWr s.cfg .cmd v :: rest → s.busy = false →
    step s = .next t → t.irq = false)

/-! ### The BUF port and the faults -/

/-- A Host byte write while BUSY = 0 and outside the live view (rules R81, R288): that byte reads as written, every other
byte as before, no fault is recorded, and nothing else changes. -/
def Obligations.HostByteWriteStores : Prop :=
  ∀ (s : State) (a : Nat) (v : Byte) (rest : List Event), s.cfg.wf = true → a < s.cfg.bufSize →
    s.agenda = hostSb s.cfg a v :: rest → s.busy = false →
    (s.hdr.kind ≠ 0 → a < s.hdr.base.toNat ∨ s.hdr.payAddr.toNat + s.hdr.payLen.toNat ≤ a) →
    ∃ m : Memory, step s = .next { afterEntry s rest with buf := m } ∧
      State.readByte { s with buf := m } a = some v ∧
      ∀ b, b ≠ a → State.readByte { s with buf := m } b = s.readByte b

/-- Rules R287 and R288: a Host BUF write while BUSY = 1 records BUSY_MUTATION, and one inside the live view of a decoded
header records VIEW_MUTATION, each with the step it happened at. Every other byte reads as before,
and nothing is said of the byte written. That the machine goes on, with a free value there, and records both faults where both
hold, is the model's choice (logs 5 and 8). -/
def Obligations.HostByteWriteFaultsAreRecorded : Prop :=
  ∀ (s : State) (a : Nat) (v : Byte) (rest : List Event), s.cfg.wf = true → a < s.cfg.bufSize →
    s.agenda = hostSb s.cfg a v :: rest →
    s.busy = true ∨ (s.hdr.kind ≠ 0 ∧ s.hdr.base.toNat ≤ a ∧ a < s.hdr.payAddr.toNat + s.hdr.payLen.toNat) →
    ∃ (m : Memory) (fs : List Fault),
      step s = .next { afterEntry s rest with buf := m, faults := s.faults ++ fs, draws := s.draws + 1 } ∧
      (∀ b, b ≠ a → State.readByte { s with buf := m } b = s.readByte b) ∧
      (.busyMutation (s.time + 1) ∈ fs ↔ s.busy = true) ∧
      (.viewMutation (s.time + 1) ∈ fs ↔
        s.hdr.kind ≠ 0 ∧ s.hdr.base.toNat ≤ a ∧ a < s.hdr.payAddr.toNat + s.hdr.payLen.toNat)

/-- A Host byte read (rules R81, R98): a written byte is returned and nothing else changes, BUSY or not; an unwritten one
returns no value and records UNINIT_READ. That the machine goes on is the model's choice (log 18). -/
def Obligations.HostByteReadReturnsOrFaults : Prop :=
  ∀ (s : State) (a : Nat) (rest : List Event), s.cfg.wf = true → a < s.cfg.bufSize →
    s.agenda = hostLb s.cfg a :: rest →
    (∀ b, s.readByte a = some b → step s = .next { afterEntry s rest with lastRead := .byte b }) ∧
    (s.readByte a = none → step s = .next { afterEntry s rest with
      lastRead := .noValue, faults := s.faults ++ [.uninitRead (s.time + 1)] })

/-- "nothing ever removes a fault from it, not even reset" (rule R290). -/
def Obligations.FaultRecordOnlyGrows : Prop :=
  ∀ s t : State, step s = .next t → s.faults <+: t.faults

/-- "No command writes BUF" (rule R82): a byte's value, or its having one, changes only by a Host write access at its
address or by reset. -/
def Obligations.OnlyHostWritesAndResetChangeBuf : Prop :=
  ∀ (s t : State) (a : Nat), step s = .next t → t.readByte a ≠ s.readByte a →
    s.agenda.head? = some .reset ∨
      ∃ v, s.agenda.head? = some (.access { addr := s.cfg.bufHostBase + a, width := 1, op := .write v })

/-! ### The bit-field codec, the options parser and the control commands -/

/-- Rule R150, word 0x08, on numbers: RES_A = ARG[7:4] and RES_B = ARG[3:0], status OK. -/
def Obligations.SplitNibbleResult : Prop :=
  decode 0x00000008#32 = .ok .splitNibble ∧ ∀ (s : State) (l : Latch), s.latch = some l →
    exec .splitNibble s = .next (completion s s.hdr .ok false 0
      (BitVec.ofNat 32 (l.ops.arg.toNat % 256 / 16)) (BitVec.ofNat 32 (l.ops.arg.toNat % 16)) 0 0 0)

/-- Rule R151, word 0x09, on numbers: with byte = ARG[7:0] and at = min(ARG[11:8], 8), RES_A = byte >> at and
RES_B = byte AND (2^at - 1), status OK. -/
def Obligations.SplitBitsResult : Prop :=
  decode 0x00000009#32 = .ok .splitBits ∧ ∀ (s : State) (l : Latch), s.latch = some l →
    exec .splitBits s = .next (completion s s.hdr .ok false 0
      (BitVec.ofNat 32 (l.ops.arg.toNat % 256 / 2 ^ min (l.ops.arg.toNat / 256 % 16) 8))
      (BitVec.ofNat 32 (l.ops.arg.toNat % 256 % 2 ^ min (l.ops.arg.toNat / 256 % 16) 8)) 0 0 0)

/-- Rule R152, word 0x0A, on numbers: RES_A = ARG[15:13] and RES_B = ARG[12:0], status OK. -/
def Obligations.SplitFlagsOffsetResult : Prop :=
  decode 0x0000000A#32 = .ok .splitFlagsOffset ∧ ∀ (s : State) (l : Latch), s.latch = some l →
    exec .splitFlagsOffset s = .next (completion s s.hdr .ok false 0
      (BitVec.ofNat 32 (l.ops.arg.toNat % 65536 / 8192)) (BitVec.ofNat 32 (l.ops.arg.toNat % 8192)) 0 0 0)

/-- The round-trip laws and bounds of rule R153, as the commands leave them in RES_A and RES_B: shifting RES_A back and
putting RES_B below it gives the bits of ARG again. -/
def Obligations.SplitResultsRecombine : Prop :=
  ∀ (s t : State) (l : Latch), s.latch = some l →
    (exec .splitNibble s = .next t →
      (t.res.resA <<< 4) ||| t.res.resB = l.ops.arg &&& 0xFF ∧ t.res.resA.toNat < 16 ∧ t.res.resB.toNat < 16) ∧
    (exec .splitBits s = .next t → ∀ k, k = min (l.ops.arg.toNat / 256 % 16) 8 →
      (t.res.resA <<< k) ||| t.res.resB = l.ops.arg &&& 0xFF ∧ t.res.resA.toNat < 2 ^ (8 - k) ∧
        t.res.resB.toNat < 2 ^ k) ∧
    (exec .splitFlagsOffset s = .next t →
      (t.res.resA <<< 13) ||| t.res.resB = l.ops.arg &&& 0xFFFF ∧ t.res.resA.toNat < 8 ∧ t.res.resB.toNat < 8192)

/-- Rule R160, word 0x05: RANGE, then BAD_IHL, then TRUNCATED, and otherwise OK with the span's start and the consumed length
(IHL - 5) * 4. The outcome depends on no BUF byte. -/
def Obligations.OptParseOutcome : Prop :=
  decode 0x00000005#32 = .ok .optParse ∧ ∀ (s : State) (l : Latch) (base len ihl : Nat), s.latch = some l →
    base = l.ops.bufBase.toNat → len = l.ops.bufLen.toNat → ihl = l.ops.arg.toNat % 16 →
    exec .optParse s = .next (
      if s.cfg.bufSize < base + len then completion s s.hdr .range false 0 0 0 0 0 0
      else if ihl < 5 then completion s s.hdr .badIhl false 0 0 0 5 (BitVec.ofNat 32 ihl) 0
      else if len < (ihl - 5) * 4 then
        completion s s.hdr .truncated false 0 0 0 (BitVec.ofNat 32 ((ihl - 5) * 4)) l.ops.bufLen 0
      else completion s s.hdr .ok false 0 l.ops.bufBase (BitVec.ofNat 32 ((ihl - 5) * 4)) 0 0 0)

/-- Rule R240: NOP, word 0x00, completes OK and changes nothing else. -/
def Obligations.NopOnlyCompletes : Prop :=
  decode 0x00000000#32 = .ok .nop ∧ ∀ (s : State) (l : Latch), s.latch = some l →
    exec .nop s = .next (completion s s.hdr .ok false 0 0 0 0 0 0)

/-- Rule R241: CLEAR, word 0x3F, sets every decoded-header register to 0 and completes OK; no BUF address is then in a live view, and
the seven header-dependent commands, run next, complete with NO_HEADER. -/
def Obligations.ClearEndsTheLiveView : Prop :=
  decode 0x0000003F#32 = .ok .clear ∧ ∀ (s : State) (l l' : Latch), s.latch = some l → ∀ t, t = completion s Header.zero .ok false 0 0 0 0 0 0 →
    exec .clear s = .next t ∧ (∀ a, t.inLiveView a = false) ∧
    ∀ i ∈ [Instr.v4HdrVerify, .ckV4Compute, .ckV4Verify, .ckV6Compute, .ckV6Verify, .ckIcmpv6Compute,
        .ckIcmpv6Verify],
      exec i { t with latch := some l' } =
        .next (completion { t with latch := some l' } t.hdr .noHeader false 0 0 0 0 0 0)

/-! ### The decoders -/

/-- A successful V4_DECODE (rules R115, R171, R173, R177): on a window in BUF that holds an IPv4 datagram, the wire bytes
taken as numbers, every decoded-header register is written, the options and payload views too, with status OK. -/
def Obligations.V4DecodeWritesTheHeader : Prop :=
  ∀ (s : State) (l : Latch) (b : Nat → Byte), s.latch = some l → HoldsV4Datagram s l b →
    exec .v4Decode s = .next (completion s (wireV4Header l b) .ok false 0 0 0 0 0 0)

/-- The failures of V4_DECODE in the order of rules R171 and R172, each with its diagnostics (rule R252) and every
decoded-header register 0 (rule R263). Only byte 0 need be written for the first four. -/
def Obligations.V4DecodeFailuresInOrder : Prop :=
  ∀ (s : State) (l : Latch) (base len : Nat) (bad : Code → Word → Word → Word → State), s.latch = some l →
    base = l.ops.bufBase.toNat → len = l.ops.bufLen.toNat →
    (∀ c e a f, bad c e a f = completion s Header.zero c false 0 0 0 e a f) →
    (s.cfg.bufSize < base + len → exec .v4Decode s = .next (bad .range 0 0 0)) ∧
    (base + len ≤ s.cfg.bufSize → len < 20 → exec .v4Decode s = .next (bad .truncated 20 l.ops.bufLen 0)) ∧
    (∀ b0 : Byte, base + len ≤ s.cfg.bufSize → 20 ≤ len → s.readByte base = some b0 → b0.toNat / 16 ≠ 4 →
      exec .v4Decode s = .next (bad .wrongVersion 4 (BitVec.ofNat 32 (b0.toNat / 16)) 0)) ∧
    (∀ b0 : Byte, base + len ≤ s.cfg.bufSize → 20 ≤ len → s.readByte base = some b0 → b0.toNat / 16 = 4 →
      b0.toNat % 16 < 5 → exec .v4Decode s = .next (bad .badIhl 5 (BitVec.ofNat 32 (b0.toNat % 16)) 0)) ∧
    (∀ b : Nat → Byte, base + len ≤ s.cfg.bufSize → 20 ≤ len → (∀ i < 20, s.readByte (base + i) = some (b i)) →
      (b 0).toNat / 16 = 4 → 5 ≤ (b 0).toNat % 16 → len < (b 0).toNat % 16 * 4 →
      exec .v4Decode s = .next (bad .truncated (BitVec.ofNat 32 ((b 0).toNat % 16 * 4)) l.ops.bufLen 0)) ∧
    (∀ b : Nat → Byte, base + len ≤ s.cfg.bufSize → 20 ≤ len → (∀ i < 20, s.readByte (base + i) = some (b i)) →
      (b 0).toNat / 16 = 4 → 5 ≤ (b 0).toNat % 16 → (b 0).toNat % 16 * 4 ≤ len →
      (b 2).toNat * 256 + (b 3).toNat ≠ len →
      exec .v4Decode s = .next (bad .lengthMismatch (BitVec.ofNat 32 ((b 2).toNat * 256 + (b 3).toNat))
        l.ops.bufLen 2))

/-- A successful V6_DECODE (rules R117, R191): on a window in BUF that holds an IPv6 datagram, the wire bytes taken as
numbers, every decoded-header register is written, the payload view too, with status OK. -/
def Obligations.V6DecodeWritesTheHeader : Prop :=
  ∀ (s : State) (l : Latch) (b : Nat → Byte), s.latch = some l → HoldsV6Datagram s l b →
    exec .v6Decode s = .next (completion s (wireV6Header l b) .ok false 0 0 0 0 0 0)

/-- The failures of V6_DECODE in the order of rules R191 and R192, each with its diagnostics (rule R252) and every
decoded-header register 0 (rule R263). -/
def Obligations.V6DecodeFailuresInOrder : Prop :=
  ∀ (s : State) (l : Latch) (base len : Nat) (bad : Code → Word → Word → Word → State), s.latch = some l →
    base = l.ops.bufBase.toNat → len = l.ops.bufLen.toNat →
    (∀ c e a f, bad c e a f = completion s Header.zero c false 0 0 0 e a f) →
    (s.cfg.bufSize < base + len → exec .v6Decode s = .next (bad .range 0 0 0)) ∧
    (base + len ≤ s.cfg.bufSize → len < 40 → exec .v6Decode s = .next (bad .truncated 40 l.ops.bufLen 0)) ∧
    (∀ b0 : Byte, base + len ≤ s.cfg.bufSize → 40 ≤ len → s.readByte base = some b0 → b0.toNat / 16 ≠ 6 →
      exec .v6Decode s = .next (bad .wrongVersion 6 (BitVec.ofNat 32 (b0.toNat / 16)) 0)) ∧
    (∀ b : Nat → Byte, base + len ≤ s.cfg.bufSize → 40 ≤ len → (∀ i < 40, s.readByte (base + i) = some (b i)) →
      (b 0).toNat / 16 = 6 → len ≠ 40 + ((b 4).toNat * 256 + (b 5).toNat) →
      exec .v6Decode s = .next (bad .lengthMismatch
        (BitVec.ofNat 32 (40 + ((b 4).toNat * 256 + (b 5).toNat))) l.ops.bufLen 4))

/-- The read order of rules R172 and R192: a decode that passes the checks before a byte is read and finds it unwritten
records UNINIT_READ with its step (rules R98, R290), first on byte 0, then on the rest of the fixed header. The model's
choice (log 6): it then ends as it would with some values in the unwritten bytes, the memory `m`, and they stay
unwritten. -/
def Obligations.DecodeOfUnwrittenBytesRecordsTheFault : Prop :=
  ∀ (s : State) (l : Latch) (base len : Nat) (recorded : Instr → Prop), s.latch = some l →
    base = l.ops.bufBase.toNat → len = l.ops.bufLen.toNat → base + len ≤ s.cfg.bufSize →
    (∀ c, recorded c ↔ ∃ (m : Memory) (u : State),
      (∀ a b, s.readByte a = some b → State.readByte { s with buf := m } a = some b) ∧
      exec c { s with buf := m } = .next u ∧ u.faults = s.faults ∧
      exec c s = .next { u with
        buf := s.buf
        faults := s.faults ++ [.uninitRead s.time]
        draws := s.draws + 1 }) →
    (20 ≤ len → s.readByte base = none → recorded .v4Decode) ∧
    (40 ≤ len → s.readByte base = none → recorded .v6Decode) ∧
    (1 ≤ len → s.readByte base = none → recorded .pktDecode) ∧
    (∀ (b0 : Byte) (i : Nat), 20 ≤ len → s.readByte base = some b0 → b0.toNat / 16 = 4 → 5 ≤ b0.toNat % 16 →
      i < 20 → s.readByte (base + i) = none → recorded .v4Decode ∧ recorded .pktDecode) ∧
    (∀ (b0 : Byte) (i : Nat), 40 ≤ len → s.readByte base = some b0 → b0.toNat / 16 = 6 →
      i < 40 → s.readByte (base + i) = none → recorded .v6Decode ∧ recorded .pktDecode)

/-- Rule R200: RANGE, then TRUNCATED for an empty buffer, then the dispatch on the version nibble: 4 is exactly
V4_DECODE, 6 exactly V6_DECODE (rule R203), any other UNSUPPORTED_VERSION with the nibble in UVER and DIAG_ACT.
WRONG_VERSION cannot arise through it (rule R254). -/
def Obligations.PktDecodeDispatches : Prop :=
  ∀ (s : State) (l : Latch) (base len : Nat), s.latch = some l → base = l.ops.bufBase.toNat →
    len = l.ops.bufLen.toNat →
    (s.cfg.bufSize < base + len →
      exec .pktDecode s = .next (completion s Header.zero .range false 0 0 0 0 0 0)) ∧
    (base + len ≤ s.cfg.bufSize → len = 0 →
      exec .pktDecode s = .next (completion s Header.zero .truncated false 0 0 0 1 0 0)) ∧
    (∀ b0 : Byte, base + len ≤ s.cfg.bufSize → len ≠ 0 → s.readByte base = some b0 →
      (b0.toNat / 16 = 4 → exec .pktDecode s = exec .v4Decode s) ∧
      (b0.toNat / 16 = 6 → exec .pktDecode s = exec .v6Decode s) ∧
      (b0.toNat / 16 ≠ 4 → b0.toNat / 16 ≠ 6 →
        exec .pktDecode s = .next (completion s Header.zero .unsupportedVersion false
          (BitVec.ofNat 4 (b0.toNat / 16)) 0 0 0 (BitVec.ofNat 32 (b0.toNat / 16)) 0))) ∧
    (∀ t, exec .pktDecode s = .next t → t.status.code ≠ .wrongVersion)

/-- PKT_DECODE completes with the whole header of a datagram of either version, chosen by its version nibble (rules R200,
R203). -/
def Obligations.PktDecodeCompletesBothVersions : Prop :=
  ∀ (s : State) (l : Latch) (b : Nat → Byte), s.latch = some l →
    (HoldsV4Datagram s l b →
      exec .pktDecode s = .next (completion s (wireV4Header l b) .ok false 0 0 0 0 0 0)) ∧
    (HoldsV6Datagram s l b →
      exec .pktDecode s = .next (completion s (wireV6Header l b) .ok false 0 0 0 0 0 0))

/-- Rule R257: a window outside BUF completes with RANGE, whatever BUF holds: the three decode commands (dropping the
decoded header, rule R263), OPT_PARSE, and the six checksum commands once the header is of their kind. -/
def Obligations.WindowOutsideBufCompletesRange : Prop :=
  ∀ (s : State) (l : Latch), s.latch = some l →
    (s.cfg.bufSize < l.ops.bufBase.toNat + l.ops.bufLen.toNat →
      (∀ i ∈ [Instr.pktDecode, .v4Decode, .v6Decode],
        exec i s = .next (completion s Header.zero .range false 0 0 0 0 0 0)) ∧
      exec .optParse s = .next (completion s s.hdr .range false 0 0 0 0 0 0)) ∧
    (s.cfg.bufSize < l.ops.segBase.toNat + l.ops.segLen.toNat →
      (s.hdr.kind = 4 → ∀ i ∈ [Instr.ckV4Compute, .ckV4Verify],
        exec i s = .next (completion s s.hdr .range false 0 0 0 0 0 0)) ∧
      (s.hdr.kind = 6 → ∀ i ∈ [Instr.ckV6Compute, .ckV6Verify, .ckIcmpv6Compute, .ckIcmpv6Verify],
        exec i s = .next (completion s s.hdr .range false 0 0 0 0 0 0)))

/-- Rule R255: only PKT_DECODE raises UNSUPPORTED_VERSION, and the version nibble n of byte 0, 0 to 15 and neither 4 nor 6, is
in STATUS.UVER and in DIAG_ACT. Byte 0 is written unless the command's read of it is recorded as a fault (log 6). -/
def Obligations.OnlyPktDecodeRaisesUnsupportedVersion : Prop :=
  ∀ (i : Instr) (s t : State), exec i s = .next t → t.status.code = .unsupportedVersion →
    i = .pktDecode ∧ (t.faults = s.faults → ∃ (l : Latch) (b0 : Byte) (n : Nat), s.latch = some l ∧
      s.readByte l.ops.bufBase.toNat = some b0 ∧ n = b0.toNat / 16 ∧ n < 16 ∧ n ≠ 4 ∧ n ≠ 6 ∧
      t.status.uver = BitVec.ofNat 4 n ∧ t.res.diagAct = BitVec.ofNat 32 n)

/-- Rule R263: a decode command that completes with an error leaves every decoded-header register 0, and no command but
the decode commands and CLEAR changes one. -/
def Obligations.NoPartialHeader : Prop :=
  ∀ (i : Instr) (s t : State), exec i s = .next t →
    (i ∈ [Instr.pktDecode, .v4Decode, .v6Decode] → t.status.code ≠ .ok → t.hdr = Header.zero) ∧
    (i ∉ [Instr.pktDecode, .v4Decode, .v6Decode, .clear] → t.hdr = s.hdr)

/-- Rules R176 and R192: a decode that reads no unwritten byte is a function of the window, BUF_SIZE and the bytes of the
fixed header. Two states that agree on those end alike, whatever else they hold, and neither records a fault. -/
def Obligations.DecodeDependsOnTheWindowOnly : Prop :=
  ∀ (s s' : State) (l l' : Latch) (i : Instr) (n : Nat),
    (i, n) ∈ [(Instr.v4Decode, 20), (.v6Decode, 40), (.pktDecode, 40)] →
    s.latch = some l → s'.latch = some l' → l'.ops.bufBase = l.ops.bufBase → l'.ops.bufLen = l.ops.bufLen →
    s'.cfg.bufSize = s.cfg.bufSize →
    (∀ k < n, s'.readByte (l.ops.bufBase.toNat + k) = s.readByte (l.ops.bufBase.toNat + k)) →
    ∀ t, exec i s = .next t → t.faults = s.faults → ∃ t', exec i s' = .next t' ∧ t'.hdr = t.hdr ∧ t'.res = t.res ∧
      t'.status.code = t.status.code ∧ t'.status.bool = t.status.bool ∧ t'.status.uver = t.status.uver ∧
      t'.faults = s'.faults

/-! ### The checksum engine -/

/-- Rule R210: Sum16 is the sum of the big-endian 16-bit words with an odd tail padded by a zero byte, Fold folds the
carry back in until the number fits 16 bits, and OcSum(s) = Fold(Sum16(s)). -/
def Obligations.AdderMeetsItsDefinition : Prop :=
  (∀ bs : List Byte, sum16 bs = ((List.range ((bs.length + 1) / 2)).map fun i =>
    (bs.getD (2 * i) 0).toNat * 256 + (bs.getD (2 * i + 1) 0).toNat).sum) ∧
  (∀ n : Nat, fold n = if n ≤ 0xFFFF then n else fold (n % 2 ^ 16 + n / 2 ^ 16)) ∧
  (∀ bs : List Byte, (ocSum bs).toNat = fold (sum16 bs))

/-- The laws rule R210 derives: Fold(n) = 0 exactly when n = 0, for n > 0 it is the number of 1..0xFFFF congruent to n
modulo 0xFFFF, and an adder of any width that folds its carry back in gives the same sum. -/
def Obligations.FoldIsTheResidue : Prop :=
  (∀ n : Nat, fold n = 0 ↔ n = 0) ∧
  (∀ n : Nat, 0 < n → 1 ≤ fold n ∧ fold n ≤ 0xFFFF ∧ fold n % 0xFFFF = n % 0xFFFF) ∧
  (∀ a b : Nat, fold (a + b) = fold (fold a + fold b))

/-- Rule R219: an odd segment after an even pseudo-header sums as if one zero byte followed it, and that byte is the low
half of the last word. -/
def Obligations.OddSegmentIsZeroPadded : Prop :=
  ∀ (p t : List Byte), p.length % 2 = 0 → t.length % 2 = 1 →
    ocSum (p ++ t) = ocSum (p ++ t ++ [0x00]) ∧
    ∀ (u : List Byte) (b : Byte), t = u ++ [b] → sum16 (p ++ t) = sum16 p + sum16 u + b.toNat * 256

/-- The bytes of the three pseudo-headers (rules R119, R120, R121), each register's bytes as numbers: 12 bytes for IPv4,
40 for IPv6 and ICMPv6, which differ in the last four. -/
def Obligations.PseudoHeaderBytes : Prop :=
  ∀ (h : Header) (n : Word) (byte : Word → Nat → Byte),
    (∀ w k, byte w k = BitVec.ofNat 8 (w.toNat / 256 ^ k)) →
    ∀ be32 : Word → List Byte, (∀ w, be32 w = [byte w 3, byte w 2, byte w 1, byte w 0]) →
    ∀ addrs, addrs = be32 h.src60 ++ be32 h.src61 ++ be32 h.src62 ++ be32 h.src63 ++
      be32 h.dst60 ++ be32 h.dst61 ++ be32 h.dst62 ++ be32 h.dst63 →
    pseudoHeader h n .v4 = be32 h.src4 ++ be32 h.dst4 ++ [0x00, byte h.proto 0, byte n 1, byte n 0] ∧
    pseudoHeader h n .v6 = addrs ++ be32 n ++ [0x00, 0x00, 0x00, byte h.nextHdr 0] ∧
    pseudoHeader h n .icmpv6 = addrs ++ be32 n ++ [0x00, 0x00, 0x00, 58]

/-- Rule R174, word 0x04: with no IPv4 header decoded V4_HDR_VERIFY completes with NO_HEADER. With one, and its bytes written,
it sums HDR_HLEN bytes with bytes 10 and 11 taken as 0, gives ~S in RES_A and S in RES_B, and sets BOOL exactly when ~S equals
HDR_CKSUM. A mismatch is no error (rule R262). -/
def Obligations.V4HdrVerifyResult : Prop :=
  decode 0x00000004#32 = .ok .v4HdrVerify ∧ ∀ (s : State) (l : Latch), s.latch = some l →
    (s.hdr.kind ≠ 4 → exec .v4HdrVerify s = .next (completion s s.hdr .noHeader false 0 0 0 0 0 0)) ∧
    (∀ (pre post : List Byte) (c0 c1 : Byte) (sum : Nat), s.hdr.kind = 4 → pre.length = 10 →
      s.readBytes s.hdr.base.toNat s.hdr.hlen.toNat = some (pre ++ [c0, c1] ++ post) →
      sum = fold (sum16 (pre ++ [0x00, 0x00] ++ post)) →
      exec .v4HdrVerify s = .next (completion s s.hdr .ok (decide (0xFFFF - sum = s.hdr.cksum.toNat)) 0
        (BitVec.ofNat 32 (0xFFFF - sum)) (BitVec.ofNat 32 sum) 0 0 0))

/-- The three compute commands (rules R212 to R215): with a header of their kind decoded, the segment in BUF and written,
and for IPv4 a length a 16-bit field can carry, RES_A is the checksum ~S, RES_B is S, and BOOL is 0. -/
def Obligations.ChecksumComputeResults : Prop :=
  ∀ (s : State) (l : Latch) (seg : List Byte) (i : Instr) (kind : Word) (v : Variant) (sum : Nat),
    (i, kind, v) ∈ [(Instr.ckV4Compute, (4 : Word), Variant.v4), (.ckV6Compute, 6, .v6),
      (.ckIcmpv6Compute, 6, .icmpv6)] →
    s.latch = some l → s.hdr.kind = kind →
    l.ops.segBase.toNat + l.ops.segLen.toNat ≤ s.cfg.bufSize → (v = .v4 → l.ops.segLen.toNat ≤ 0xFFFF) →
    s.readBytes l.ops.segBase.toNat l.ops.segLen.toNat = some seg →
    sum = fold (sum16 (pseudoHeader s.hdr l.ops.segLen v ++ seg)) →
    exec i s = .next (completion s s.hdr .ok false 0 (BitVec.ofNat 32 (0xFFFF - sum)) (BitVec.ofNat 32 sum) 0 0 0)

/-- The three verify commands (rules R212, R216 to R218): as the compute commands, with BOOL exactly when S = 0xFFFF, a
mismatch being no error (rule R262). -/
def Obligations.ChecksumVerifyResults : Prop :=
  ∀ (s : State) (l : Latch) (seg : List Byte) (i : Instr) (kind : Word) (v : Variant) (sum : Nat),
    (i, kind, v) ∈ [(Instr.ckV4Verify, (4 : Word), Variant.v4), (.ckV6Verify, 6, .v6),
      (.ckIcmpv6Verify, 6, .icmpv6)] →
    s.latch = some l → s.hdr.kind = kind →
    l.ops.segBase.toNat + l.ops.segLen.toNat ≤ s.cfg.bufSize → (v = .v4 → l.ops.segLen.toNat ≤ 0xFFFF) →
    s.readBytes l.ops.segBase.toNat l.ops.segLen.toNat = some seg →
    sum = fold (sum16 (pseudoHeader s.hdr l.ops.segLen v ++ seg)) →
    exec i s = .next (completion s s.hdr .ok (decide (sum = 0xFFFF)) 0 (BitVec.ofNat 32 (0xFFFF - sum))
      (BitVec.ofNat 32 sum) 0 0 0)

/-- The reads of the summing commands (rules R174 and R212): one that passes its checks and finds a byte of the header or of
the segment unwritten records UNINIT_READ with its step (rules R98, R290). The model's choice (log 6): it then sums some bytes
that agree with every written one, and completes with the results of that sum. -/
def Obligations.SummingUnwrittenBytesRecordsTheFault : Prop :=
  ∀ (s : State) (l : Latch) (i : Nat) (done : Bool → Nat → State) (agrees : Nat → List Byte → Prop),
    s.latch = some l →
    (∀ q sum, done q sum =
      { completion s s.hdr .ok q 0 (BitVec.ofNat 32 (0xFFFF - sum)) (BitVec.ofNat 32 sum) 0 0 0 with
        faults := s.faults ++ [.uninitRead s.time]
        draws := s.draws + 1 }) →
    (∀ base bs, agrees base bs ↔ ∀ k b, k < bs.length → s.readByte (base + k) = some b → bs[k]? = some b) →
    (s.hdr.kind = 4 → i < s.hdr.hlen.toNat → s.readByte (s.hdr.base.toNat + i) = none →
      ∃ bs sum, bs.length = s.hdr.hlen.toNat ∧ agrees s.hdr.base.toNat bs ∧
        sum = fold (sum16 ((bs.set 10 0x00).set 11 0x00)) ∧
        exec .v4HdrVerify s = .next (done (decide (0xFFFF - sum = s.hdr.cksum.toNat)) sum)) ∧
    ∀ (v : Variant) (compute verify : Instr) (kind : Word),
      (v, compute, verify, kind) ∈ [(Variant.v4, Instr.ckV4Compute, Instr.ckV4Verify, (4 : Word)),
        (.v6, .ckV6Compute, .ckV6Verify, 6), (.icmpv6, .ckIcmpv6Compute, .ckIcmpv6Verify, 6)] →
      s.hdr.kind = kind → (v = .v4 → l.ops.segLen.toNat ≤ 0xFFFF) →
      l.ops.segBase.toNat + l.ops.segLen.toNat ≤ s.cfg.bufSize → i < l.ops.segLen.toNat →
      s.readByte (l.ops.segBase.toNat + i) = none →
      ∃ bs sum, bs.length = l.ops.segLen.toNat ∧ agrees l.ops.segBase.toNat bs ∧
        sum = fold (sum16 (pseudoHeader s.hdr l.ops.segLen v ++ bs)) ∧
        exec compute s = .next (done false sum) ∧ exec verify s = .next (done (decide (sum = 0xFFFF)) sum)

/-- Rule R260: V4_HDR_VERIFY and the IPv4 checksum commands need HDR_KIND 4, the other four HDR_KIND 6; otherwise they
complete with NO_HEADER, before any other check and any read. -/
def Obligations.WrongKindCompletesNoHeader : Prop :=
  ∀ (s : State) (l : Latch), s.latch = some l →
    (s.hdr.kind ≠ 4 → ∀ i ∈ [Instr.v4HdrVerify, .ckV4Compute, .ckV4Verify],
      exec i s = .next (completion s s.hdr .noHeader false 0 0 0 0 0 0)) ∧
    (s.hdr.kind ≠ 6 → ∀ i ∈ [Instr.ckV6Compute, .ckV6Verify, .ckIcmpv6Compute, .ckIcmpv6Verify],
      exec i s = .next (completion s s.hdr .noHeader false 0 0 0 0 0 0))

/-- Rule R261: an IPv4 checksum command with a segment in BUF longer than 0xFFFF completes with SEG_TOO_LONG; no other
command ever does. -/
def Obligations.LongIpv4SegmentCompletesSegTooLong : Prop :=
  (∀ (s : State) (l : Latch), s.latch = some l → s.hdr.kind = 4 →
    l.ops.segBase.toNat + l.ops.segLen.toNat ≤ s.cfg.bufSize → 0xFFFF < l.ops.segLen.toNat →
    ∀ i ∈ [Instr.ckV4Compute, .ckV4Verify],
      exec i s = .next (completion s s.hdr .segTooLong false 0 0 0 0xFFFF l.ops.segLen 0)) ∧
  (∀ (s t : State) (i : Instr), exec i s = .next t → t.status.code = .segTooLong →
    i = .ckV4Compute ∨ i = .ckV4Verify)

/-- What the checksum commands do not read (rules R211, R212, R222): HDR_CKSUM for all six, and HDR_NEXT_HDR for the two of
ICMPv6. With another value there they end alike. -/
def Obligations.ChecksumIgnoresOtherRegisters : Prop :=
  ∀ (s t : State) (i : Instr) (x : Word), exec i s = .next t →
    (i ∈ [Instr.ckV4Compute, .ckV4Verify, .ckV6Compute, .ckV6Verify, .ckIcmpv6Compute, .ckIcmpv6Verify] →
      exec i { s with hdr := { s.hdr with cksum := x } } = .next { t with hdr := { t.hdr with cksum := x } }) ∧
    (i ∈ [Instr.ckIcmpv6Compute, .ckIcmpv6Verify] →
      exec i { s with hdr := { s.hdr with nextHdr := x } } = .next { t with hdr := { t.hdr with nextHdr := x } })

/-- Rule R220, "the value that, when inserted back into the checksum field, makes `verify()` return true": `s` holds a
segment with a zero 16-bit field at an even offset; `t` holds the same registers and the same segment with the RES_A of
the compute command in that field, big-endian; the verify command of the same variant then gives BOOL = 1. -/
def Obligations.ComputedChecksumVerifies : Prop :=
  ∀ (s t s' : State) (l l' : Latch) (pre post : List Byte) (c v : Instr),
    (c, v) ∈ [(Instr.ckV4Compute, Instr.ckV4Verify), (.ckV6Compute, .ckV6Verify),
      (.ckIcmpv6Compute, .ckIcmpv6Verify)] →
    s.latch = some l → t.latch = some l' → l'.ops = l.ops → t.hdr = s.hdr → t.cfg = s.cfg → pre.length % 2 = 0 →
    s.readBytes l.ops.segBase.toNat l.ops.segLen.toNat = some (pre ++ [0x00, 0x00] ++ post) →
    exec c s = .next s' → s'.status.code = .ok →
    t.readBytes l.ops.segBase.toNat l.ops.segLen.toNat =
      some (pre ++ [BitVec.ofNat 8 (s'.res.resA.toNat / 256), BitVec.ofNat 8 s'.res.resA.toNat] ++ post) →
    ∃ t', exec v t = .next t' ∧ t'.status.bool = true ∧ t'.status.code = .ok ∧ t'.res.resA = 0

/-! ### Reset -/

/-- The table of rule R280, BUSY or not, at any step reset occurs: every register at its value, LATCH empty, so a latched
command is dropped (rule R281), every BUF byte unwritten, irq 0, IDR constant and the fault record unchanged. -/
def Obligations.ResetLeavesTheTable : Prop :=
  ∀ (s : State) (rest : List Event), s.agenda = .reset :: rest →
    ∃ t, step s = .next t ∧ t.regValue .cmd = 0 ∧ t.statusIdle = 0x00000000#32 ∧ t.busy = false ∧
      t.status = { done := false, bool := false, ovr := false, code := .ok, uver := 0 } ∧ t.irqEn = false ∧
      t.ops = { bufBase := 0, bufLen := 0, segBase := 0, segLen := 0, arg := 0 } ∧
      t.res = { resA := 0, resB := 0, diagExp := 0, diagAct := 0, diagField := 0 } ∧
      t.regValue .idr = 0x49504801#32 ∧ t.hdr = Header.zero ∧ t.latch = none ∧ t.irq = false ∧
      (∀ a, t.readByte a = none) ∧ t.faults = s.faults

/-- "This is the only way a command ends without a completion" (rule R281): a latched command stays latched unchanged,
or a completion sets DONE, or reset drops it. -/
def Obligations.LatchedCommandEndsByCompletionOrReset : Prop :=
  ∀ (s t : State) (l : Latch), step s = .next t → s.latch = some l →
    t.latch = some l ∨ (t.latch = none ∧ t.status.done = true) ∨ (t.latch = none ∧ s.agenda.head? = some .reset)

/-! ### Whole-machine invariants -/

/-- The decoded-header registers change only when a decode command or CLEAR completes, or by reset (rules R96, R263). -/
def Obligations.OnlyDecodeClearAndResetChangeTheHeader : Prop :=
  ∀ s t : State, step s = .next t → t.hdr ≠ s.hdr →
    s.agenda.head? = some .reset ∨
      ∃ l, s.latch = some l ∧ (s.agenda.head? = some .engine ∨ s.agenda = []) ∧
        l.word.toNat ∈ [0x01, 0x02, 0x03, 0x3F]

/-- The machine right after reset meets the invariant, whatever its parameters. -/
def Obligations.ResetMeetsTheInvariant : Prop :=
  ∀ c : Config, c.wf = true → Inv (State.resetWith c) ∧ LiveViewIntact (State.resetWith c)

/-- Every step keeps the invariant: BUF canonical and inside its bounds, the decoded-header registers closed (no header,
one IPv4 header or one IPv6 header, with its views in BUF), DONE = 0 while BUSY, BOOL and diagnostics as the completion
says. -/
def Obligations.StepKeepsTheInvariant : Prop :=
  ∀ s t : State, Inv s → step s = .next t → Inv t

/-- While no fault is recorded the live view still holds the datagram: its fixed header is written, decoding it again
gives exactly the decoded-header registers, and every step keeps it so (rules R96, R174, R176). -/
def Obligations.StepKeepsTheLiveViewIntact : Prop :=
  ∀ s t : State, Inv s → LiveViewIntact s → step s = .next t → LiveViewIntact t
end

