-- ==== Sys2Proof/Laws/State.lean ====
section
/-! SUPPORT. One lemma per field of State per named update, so that no proof unfolds a record update. -/

namespace Sys2Proof.Machine

/-! ### `State.setHdr` -/

@[simp] theorem setHdr_cfg (s : State) (h : Header) : (s.setHdr h).cfg = s.cfg := rfl
@[simp] theorem setHdr_status (s : State) (h : Header) : (s.setHdr h).status = s.status := rfl
@[simp] theorem setHdr_irqEn (s : State) (h : Header) : (s.setHdr h).irqEn = s.irqEn := rfl
@[simp] theorem setHdr_ops (s : State) (h : Header) : (s.setHdr h).ops = s.ops := rfl
@[simp] theorem setHdr_res (s : State) (h : Header) : (s.setHdr h).res = s.res := rfl
@[simp] theorem setHdr_hdr (s : State) (h : Header) : (s.setHdr h).hdr = h := rfl
@[simp] theorem setHdr_latch (s : State) (h : Header) : (s.setHdr h).latch = s.latch := rfl
@[simp] theorem setHdr_buf (s : State) (h : Header) : (s.setHdr h).buf = s.buf := rfl
@[simp] theorem setHdr_faults (s : State) (h : Header) : (s.setHdr h).faults = s.faults := rfl
@[simp] theorem setHdr_time (s : State) (h : Header) : (s.setHdr h).time = s.time := rfl
@[simp] theorem setHdr_agenda (s : State) (h : Header) : (s.setHdr h).agenda = s.agenda := rfl
@[simp] theorem setHdr_lastRead (s : State) (h : Header) : (s.setHdr h).lastRead = s.lastRead := rfl
@[simp] theorem setHdr_draws (s : State) (h : Header) : (s.setHdr h).draws = s.draws := rfl

/-! ### `State.setBuf` -/

@[simp] theorem setBuf_cfg (s : State) (m : Memory) : (s.setBuf m).cfg = s.cfg := rfl
@[simp] theorem setBuf_status (s : State) (m : Memory) : (s.setBuf m).status = s.status := rfl
@[simp] theorem setBuf_irqEn (s : State) (m : Memory) : (s.setBuf m).irqEn = s.irqEn := rfl
@[simp] theorem setBuf_ops (s : State) (m : Memory) : (s.setBuf m).ops = s.ops := rfl
@[simp] theorem setBuf_res (s : State) (m : Memory) : (s.setBuf m).res = s.res := rfl
@[simp] theorem setBuf_hdr (s : State) (m : Memory) : (s.setBuf m).hdr = s.hdr := rfl
@[simp] theorem setBuf_latch (s : State) (m : Memory) : (s.setBuf m).latch = s.latch := rfl
@[simp] theorem setBuf_buf (s : State) (m : Memory) : (s.setBuf m).buf = m := rfl
@[simp] theorem setBuf_faults (s : State) (m : Memory) : (s.setBuf m).faults = s.faults := rfl
@[simp] theorem setBuf_time (s : State) (m : Memory) : (s.setBuf m).time = s.time := rfl
@[simp] theorem setBuf_agenda (s : State) (m : Memory) : (s.setBuf m).agenda = s.agenda := rfl
@[simp] theorem setBuf_lastRead (s : State) (m : Memory) : (s.setBuf m).lastRead = s.lastRead := rfl
@[simp] theorem setBuf_draws (s : State) (m : Memory) : (s.setBuf m).draws = s.draws := rfl

/-! ### `State.record` -/

@[simp] theorem record_cfg (s : State) (fs : List Fault) : (s.record fs).cfg = s.cfg := rfl
@[simp] theorem record_status (s : State) (fs : List Fault) : (s.record fs).status = s.status := rfl
@[simp] theorem record_irqEn (s : State) (fs : List Fault) : (s.record fs).irqEn = s.irqEn := rfl
@[simp] theorem record_ops (s : State) (fs : List Fault) : (s.record fs).ops = s.ops := rfl
@[simp] theorem record_res (s : State) (fs : List Fault) : (s.record fs).res = s.res := rfl
@[simp] theorem record_hdr (s : State) (fs : List Fault) : (s.record fs).hdr = s.hdr := rfl
@[simp] theorem record_latch (s : State) (fs : List Fault) : (s.record fs).latch = s.latch := rfl
@[simp] theorem record_buf (s : State) (fs : List Fault) : (s.record fs).buf = s.buf := rfl
@[simp] theorem record_faults (s : State) (fs : List Fault) : (s.record fs).faults = s.faults ++ fs := rfl
@[simp] theorem record_time (s : State) (fs : List Fault) : (s.record fs).time = s.time := rfl
@[simp] theorem record_agenda (s : State) (fs : List Fault) : (s.record fs).agenda = s.agenda := rfl
@[simp] theorem record_lastRead (s : State) (fs : List Fault) : (s.record fs).lastRead = s.lastRead := rfl
@[simp] theorem record_draws (s : State) (fs : List Fault) : (s.record fs).draws = s.draws := rfl

/-! ### `State.reply` -/

@[simp] theorem reply_cfg (s : State) (r : BusReply) : (s.reply r).cfg = s.cfg := rfl
@[simp] theorem reply_status (s : State) (r : BusReply) : (s.reply r).status = s.status := rfl
@[simp] theorem reply_irqEn (s : State) (r : BusReply) : (s.reply r).irqEn = s.irqEn := rfl
@[simp] theorem reply_ops (s : State) (r : BusReply) : (s.reply r).ops = s.ops := rfl
@[simp] theorem reply_res (s : State) (r : BusReply) : (s.reply r).res = s.res := rfl
@[simp] theorem reply_hdr (s : State) (r : BusReply) : (s.reply r).hdr = s.hdr := rfl
@[simp] theorem reply_latch (s : State) (r : BusReply) : (s.reply r).latch = s.latch := rfl
@[simp] theorem reply_buf (s : State) (r : BusReply) : (s.reply r).buf = s.buf := rfl
@[simp] theorem reply_faults (s : State) (r : BusReply) : (s.reply r).faults = s.faults := rfl
@[simp] theorem reply_time (s : State) (r : BusReply) : (s.reply r).time = s.time := rfl
@[simp] theorem reply_agenda (s : State) (r : BusReply) : (s.reply r).agenda = s.agenda := rfl
@[simp] theorem reply_lastRead (s : State) (r : BusReply) : (s.reply r).lastRead = r := rfl
@[simp] theorem reply_draws (s : State) (r : BusReply) : (s.reply r).draws = s.draws := rfl

/-! ### `State.drawn` -/

@[simp] theorem drawn_cfg (s : State) : (s.drawn).cfg = s.cfg := rfl
@[simp] theorem drawn_status (s : State) : (s.drawn).status = s.status := rfl
@[simp] theorem drawn_irqEn (s : State) : (s.drawn).irqEn = s.irqEn := rfl
@[simp] theorem drawn_ops (s : State) : (s.drawn).ops = s.ops := rfl
@[simp] theorem drawn_res (s : State) : (s.drawn).res = s.res := rfl
@[simp] theorem drawn_hdr (s : State) : (s.drawn).hdr = s.hdr := rfl
@[simp] theorem drawn_latch (s : State) : (s.drawn).latch = s.latch := rfl
@[simp] theorem drawn_buf (s : State) : (s.drawn).buf = s.buf := rfl
@[simp] theorem drawn_faults (s : State) : (s.drawn).faults = s.faults := rfl
@[simp] theorem drawn_time (s : State) : (s.drawn).time = s.time := rfl
@[simp] theorem drawn_agenda (s : State) : (s.drawn).agenda = s.agenda := rfl
@[simp] theorem drawn_lastRead (s : State) : (s.drawn).lastRead = s.lastRead := rfl
@[simp] theorem drawn_draws (s : State) : (s.drawn).draws = s.draws + 1 := rfl

/-! ### `State.advance` -/

@[simp] theorem advance_cfg (s : State) : (s.advance).cfg = s.cfg := rfl
@[simp] theorem advance_status (s : State) : (s.advance).status = s.status := rfl
@[simp] theorem advance_irqEn (s : State) : (s.advance).irqEn = s.irqEn := rfl
@[simp] theorem advance_ops (s : State) : (s.advance).ops = s.ops := rfl
@[simp] theorem advance_res (s : State) : (s.advance).res = s.res := rfl
@[simp] theorem advance_hdr (s : State) : (s.advance).hdr = s.hdr := rfl
@[simp] theorem advance_latch (s : State) : (s.advance).latch = s.latch := rfl
@[simp] theorem advance_buf (s : State) : (s.advance).buf = s.buf := rfl
@[simp] theorem advance_faults (s : State) : (s.advance).faults = s.faults := rfl
@[simp] theorem advance_time (s : State) : (s.advance).time = s.time + 1 := rfl
@[simp] theorem advance_agenda (s : State) : (s.advance).agenda = s.agenda.tail := rfl
@[simp] theorem advance_lastRead (s : State) : (s.advance).lastRead = s.lastRead := rfl
@[simp] theorem advance_draws (s : State) : (s.advance).draws = s.draws := rfl

/-! ### `State.latchCommand` -/

@[simp] theorem latchCommand_cfg (s : State) (v : Word) : (s.latchCommand v).cfg = s.cfg := rfl
@[simp] theorem latchCommand_status (s : State) (v : Word) :
    (s.latchCommand v).status =
      { s.status with done := false } := rfl
@[simp] theorem latchCommand_irqEn (s : State) (v : Word) : (s.latchCommand v).irqEn = s.irqEn := rfl
@[simp] theorem latchCommand_ops (s : State) (v : Word) : (s.latchCommand v).ops = s.ops := rfl
@[simp] theorem latchCommand_res (s : State) (v : Word) : (s.latchCommand v).res = s.res := rfl
@[simp] theorem latchCommand_hdr (s : State) (v : Word) : (s.latchCommand v).hdr = s.hdr := rfl
@[simp] theorem latchCommand_latch (s : State) (v : Word) :
    (s.latchCommand v).latch =
      some { word := v, ops := s.ops } := rfl
@[simp] theorem latchCommand_buf (s : State) (v : Word) : (s.latchCommand v).buf = s.buf := rfl
@[simp] theorem latchCommand_faults (s : State) (v : Word) : (s.latchCommand v).faults = s.faults := rfl
@[simp] theorem latchCommand_time (s : State) (v : Word) : (s.latchCommand v).time = s.time := rfl
@[simp] theorem latchCommand_agenda (s : State) (v : Word) : (s.latchCommand v).agenda = s.agenda := rfl
@[simp] theorem latchCommand_lastRead (s : State) (v : Word) : (s.latchCommand v).lastRead = s.lastRead := rfl
@[simp] theorem latchCommand_draws (s : State) (v : Word) : (s.latchCommand v).draws = s.draws := rfl

/-! ### `State.afterReset` -/

@[simp] theorem afterReset_cfg (s : State) : (s.afterReset).cfg = s.cfg := rfl
@[simp] theorem afterReset_status (s : State) :
    (s.afterReset).status =
      { done := false, bool := false, ovr := false, code := .ok, uver := 0 } := rfl
@[simp] theorem afterReset_irqEn (s : State) : (s.afterReset).irqEn = false := rfl
@[simp] theorem afterReset_ops (s : State) :
    (s.afterReset).ops =
      { bufBase := 0, bufLen := 0, segBase := 0, segLen := 0, arg := 0 } := rfl
@[simp] theorem afterReset_res (s : State) :
    (s.afterReset).res =
      { resA := 0, resB := 0, diagExp := 0, diagAct := 0, diagField := 0 } := rfl
@[simp] theorem afterReset_hdr (s : State) : (s.afterReset).hdr = Header.zero := rfl
@[simp] theorem afterReset_latch (s : State) : (s.afterReset).latch = none := rfl
@[simp] theorem afterReset_buf (s : State) : (s.afterReset).buf = [] := rfl
@[simp] theorem afterReset_faults (s : State) : (s.afterReset).faults = s.faults := rfl
@[simp] theorem afterReset_time (s : State) : (s.afterReset).time = s.time := rfl
@[simp] theorem afterReset_agenda (s : State) : (s.afterReset).agenda = s.agenda := rfl
@[simp] theorem afterReset_lastRead (s : State) : (s.afterReset).lastRead = s.lastRead := rfl
@[simp] theorem afterReset_draws (s : State) : (s.afterReset).draws = s.draws := rfl

/-! ### `State.complete` -/

@[simp] theorem complete_cfg (s : State) (c : Code) (q : Bool) (u : BitVec 4) (a b e x f : Word) :
    (s.complete c q u a b e x f).cfg =
      s.cfg := rfl
@[simp] theorem complete_status (s : State) (c : Code) (q : Bool) (u : BitVec 4) (a b e x f : Word) :
    (s.complete c q u a b e x f).status =
      s.status.completed c q u := rfl
@[simp] theorem complete_irqEn (s : State) (c : Code) (q : Bool) (u : BitVec 4) (a b e x f : Word) :
    (s.complete c q u a b e x f).irqEn =
      s.irqEn := rfl
@[simp] theorem complete_ops (s : State) (c : Code) (q : Bool) (u : BitVec 4) (a b e x f : Word) :
    (s.complete c q u a b e x f).ops =
      s.ops := rfl
@[simp] theorem complete_res (s : State) (c : Code) (q : Bool) (u : BitVec 4) (a b e x f : Word) :
    (s.complete c q u a b e x f).res =
      { resA := a, resB := b, diagExp := e, diagAct := x, diagField := f } := rfl
@[simp] theorem complete_hdr (s : State) (c : Code) (q : Bool) (u : BitVec 4) (a b e x f : Word) :
    (s.complete c q u a b e x f).hdr =
      s.hdr := rfl
@[simp] theorem complete_latch (s : State) (c : Code) (q : Bool) (u : BitVec 4) (a b e x f : Word) :
    (s.complete c q u a b e x f).latch =
      none := rfl
@[simp] theorem complete_buf (s : State) (c : Code) (q : Bool) (u : BitVec 4) (a b e x f : Word) :
    (s.complete c q u a b e x f).buf =
      s.buf := rfl
@[simp] theorem complete_faults (s : State) (c : Code) (q : Bool) (u : BitVec 4) (a b e x f : Word) :
    (s.complete c q u a b e x f).faults =
      s.faults := rfl
@[simp] theorem complete_time (s : State) (c : Code) (q : Bool) (u : BitVec 4) (a b e x f : Word) :
    (s.complete c q u a b e x f).time =
      s.time := rfl
@[simp] theorem complete_agenda (s : State) (c : Code) (q : Bool) (u : BitVec 4) (a b e x f : Word) :
    (s.complete c q u a b e x f).agenda =
      s.agenda := rfl
@[simp] theorem complete_lastRead (s : State) (c : Code) (q : Bool) (u : BitVec 4) (a b e x f : Word) :
    (s.complete c q u a b e x f).lastRead =
      s.lastRead := rfl
@[simp] theorem complete_draws (s : State) (c : Code) (q : Bool) (u : BitVec 4) (a b e x f : Word) :
    (s.complete c q u a b e x f).draws =
      s.draws := rfl

/-! ### `State.finish` -/

@[simp] theorem finish_cfg (s : State) (q : Bool) (a b : Word) : (s.finish q a b).cfg = s.cfg := rfl
@[simp] theorem finish_status (s : State) (q : Bool) (a b : Word) :
    (s.finish q a b).status =
      s.status.completed .ok q 0 := rfl
@[simp] theorem finish_irqEn (s : State) (q : Bool) (a b : Word) : (s.finish q a b).irqEn = s.irqEn := rfl
@[simp] theorem finish_ops (s : State) (q : Bool) (a b : Word) : (s.finish q a b).ops = s.ops := rfl
@[simp] theorem finish_res (s : State) (q : Bool) (a b : Word) :
    (s.finish q a b).res =
      { resA := a, resB := b, diagExp := 0, diagAct := 0, diagField := 0 } := rfl
@[simp] theorem finish_hdr (s : State) (q : Bool) (a b : Word) : (s.finish q a b).hdr = s.hdr := rfl
@[simp] theorem finish_latch (s : State) (q : Bool) (a b : Word) : (s.finish q a b).latch = none := rfl
@[simp] theorem finish_buf (s : State) (q : Bool) (a b : Word) : (s.finish q a b).buf = s.buf := rfl
@[simp] theorem finish_faults (s : State) (q : Bool) (a b : Word) : (s.finish q a b).faults = s.faults := rfl
@[simp] theorem finish_time (s : State) (q : Bool) (a b : Word) : (s.finish q a b).time = s.time := rfl
@[simp] theorem finish_agenda (s : State) (q : Bool) (a b : Word) : (s.finish q a b).agenda = s.agenda := rfl
@[simp] theorem finish_lastRead (s : State) (q : Bool) (a b : Word) :
    (s.finish q a b).lastRead =
      s.lastRead := rfl
@[simp] theorem finish_draws (s : State) (q : Bool) (a b : Word) : (s.finish q a b).draws = s.draws := rfl

/-! ### `State.raise` -/

@[simp] theorem raise_cfg (s : State) (e : Failure) : (s.raise e).cfg = s.cfg := rfl
@[simp] theorem raise_status (s : State) (e : Failure) :
    (s.raise e).status =
      s.status.completed e.code false e.uver := rfl
@[simp] theorem raise_irqEn (s : State) (e : Failure) : (s.raise e).irqEn = s.irqEn := rfl
@[simp] theorem raise_ops (s : State) (e : Failure) : (s.raise e).ops = s.ops := rfl
@[simp] theorem raise_res (s : State) (e : Failure) :
    (s.raise e).res =
      { resA := 0, resB := 0, diagExp := e.exp, diagAct := e.act, diagField := e.field } := rfl
@[simp] theorem raise_hdr (s : State) (e : Failure) : (s.raise e).hdr = s.hdr := rfl
@[simp] theorem raise_latch (s : State) (e : Failure) : (s.raise e).latch = none := rfl
@[simp] theorem raise_buf (s : State) (e : Failure) : (s.raise e).buf = s.buf := rfl
@[simp] theorem raise_faults (s : State) (e : Failure) : (s.raise e).faults = s.faults := rfl
@[simp] theorem raise_time (s : State) (e : Failure) : (s.raise e).time = s.time := rfl
@[simp] theorem raise_agenda (s : State) (e : Failure) : (s.raise e).agenda = s.agenda := rfl
@[simp] theorem raise_lastRead (s : State) (e : Failure) : (s.raise e).lastRead = s.lastRead := rfl
@[simp] theorem raise_draws (s : State) (e : Failure) : (s.raise e).draws = s.draws := rfl

/-! ### `State.withCommandNext` -/

@[simp] theorem withCommandNext_cfg (s : State) (v : Word) : (s.withCommandNext v).cfg = s.cfg := rfl
@[simp] theorem withCommandNext_status (s : State) (v : Word) :
    (s.withCommandNext v).status =
      { s.status with done := false } := rfl
@[simp] theorem withCommandNext_irqEn (s : State) (v : Word) : (s.withCommandNext v).irqEn = s.irqEn := rfl
@[simp] theorem withCommandNext_ops (s : State) (v : Word) : (s.withCommandNext v).ops = s.ops := rfl
@[simp] theorem withCommandNext_res (s : State) (v : Word) : (s.withCommandNext v).res = s.res := rfl
@[simp] theorem withCommandNext_hdr (s : State) (v : Word) : (s.withCommandNext v).hdr = s.hdr := rfl
@[simp] theorem withCommandNext_latch (s : State) (v : Word) :
    (s.withCommandNext v).latch =
      some { word := v, ops := s.ops } := rfl
@[simp] theorem withCommandNext_buf (s : State) (v : Word) : (s.withCommandNext v).buf = s.buf := rfl
@[simp] theorem withCommandNext_faults (s : State) (v : Word) : (s.withCommandNext v).faults = s.faults := rfl
@[simp] theorem withCommandNext_time (s : State) (v : Word) : (s.withCommandNext v).time = s.time := rfl
@[simp] theorem withCommandNext_agenda (s : State) (v : Word) :
    (s.withCommandNext v).agenda =
      .engine :: s.agenda := rfl
@[simp] theorem withCommandNext_lastRead (s : State) (v : Word) :
    (s.withCommandNext v).lastRead =
      s.lastRead := rfl
@[simp] theorem withCommandNext_draws (s : State) (v : Word) : (s.withCommandNext v).draws = s.draws := rfl

/-! ### The status fields of a completion -/

@[simp] theorem completed_done (st : Status) (c : Code) (q : Bool) (u : BitVec 4) :
    (st.completed c q u).done = true := rfl
@[simp] theorem completed_bool (st : Status) (c : Code) (q : Bool) (u : BitVec 4) :
    (st.completed c q u).bool = q := rfl
@[simp] theorem completed_ovr (st : Status) (c : Code) (q : Bool) (u : BitVec 4) :
    (st.completed c q u).ovr = st.ovr := rfl
@[simp] theorem completed_code (st : Status) (c : Code) (q : Bool) (u : BitVec 4) :
    (st.completed c q u).code = c := rfl
@[simp] theorem completed_uver (st : Status) (c : Code) (q : Bool) (u : BitVec 4) :
    (st.completed c q u).uver = u := rfl

/-! ### The first state -/

@[simp] theorem resetWith_cfg (c : Config) : (State.resetWith c).cfg = c := rfl
@[simp] theorem resetWith_hdr (c : Config) : (State.resetWith c).hdr = Header.zero := rfl
@[simp] theorem resetWith_latch (c : Config) : (State.resetWith c).latch = none := rfl
@[simp] theorem resetWith_buf (c : Config) : (State.resetWith c).buf = [] := rfl
@[simp] theorem resetWith_faults (c : Config) : (State.resetWith c).faults = [] := rfl

end Sys2Proof.Machine
end

