-- ==== Sys2Proof/Laws/Memory.lean ====
section
/-! SUPPORT. The laws of BUF: reading after writing, the canonical form, and reads of several bytes. -/

namespace Sys2Proof.Machine

/-! ### One byte -/

@[simp] theorem Memory.read_nil (a : Nat) : Memory.read [] a = none := rfl

theorem Memory.read_cons (k : Nat) (v : Byte) (m : Memory) (a : Nat) :
    Memory.read ((k, v) :: m) a = if k = a then some v else Memory.read m a := rfl

theorem Memory.read_write_same (m : Memory) (a : Nat) (v : Byte) : (Memory.write m a v).read a = some v := by
  induction m with
  | nil => simp [Memory.write, Memory.read_cons]
  | cons c m ih =>
    obtain ⟨k, w⟩ := c
    unfold Memory.write
    split
    · simp [Memory.read_cons]
    · split
      · simp [Memory.read_cons]
      · simp [Memory.read_cons, *]

theorem Memory.read_write_other (m : Memory) (a b : Nat) (v : Byte) (h : b ≠ a) :
    (Memory.write m a v).read b = m.read b := by
  induction m with
  | nil => simp [Memory.write, Memory.read_cons, h.symm]
  | cons c m ih =>
    obtain ⟨k, w⟩ := c
    unfold Memory.write
    split
    · simp [Memory.read_cons, h.symm]
    · split
      · next hk => simp [Memory.read_cons, h.symm, hk]
      · simp [Memory.read_cons, ih]

/-- The addresses of a written memory are the old ones and the written one. -/
theorem Memory.mem_write {m : Memory} {a : Nat} {v : Byte} {c : Host.Cell} (h : c ∈ Memory.write m a v) :
    c.1 = a ∨ c ∈ m := by
  induction m with
  | nil => simp [Memory.write] at h; simp [h]
  | cons d m ih =>
    obtain ⟨k, w⟩ := d
    unfold Memory.write at h
    split at h
    · rcases List.mem_cons.1 h with rfl | h
      · exact .inl rfl
      · exact .inr h
    · split at h
      · rcases List.mem_cons.1 h with rfl | h
        · exact .inl rfl
        · exact .inr (List.mem_cons_of_mem _ h)
      · rcases List.mem_cons.1 h with rfl | h
        · exact .inr (List.mem_cons_self ..)
        · exact (ih h).imp_right (List.mem_cons_of_mem _)

theorem Memory.wf_iff (m : Memory) : m.wf = true ↔ m.Pairwise fun c d => c.1 < d.1 := by
  simp [Memory.wf]

/-- A write keeps the canonical form. -/
theorem Memory.wf_write {m : Memory} (a : Nat) (v : Byte) (h : m.wf = true) : (Memory.write m a v).wf = true := by
  rw [Memory.wf_iff] at h ⊢
  induction m with
  | nil => simp [Memory.write]
  | cons c m ih =>
    obtain ⟨k, w⟩ := c
    obtain ⟨hk, hm⟩ := List.pairwise_cons.1 h
    unfold Memory.write
    split
    · next ha =>
      refine List.pairwise_cons.2 ⟨fun d hd => ?_, h⟩
      rcases List.mem_cons.1 hd with rfl | hd
      · exact ha
      · exact ha.trans (hk d hd)
    · split
      · next _ he => exact List.pairwise_cons.2 ⟨fun d hd => he ▸ hk d hd, hm⟩
      · next ha he =>
        refine List.pairwise_cons.2 ⟨fun d hd => ?_, ih hm⟩
        rcases Memory.mem_write hd with hd | hd
        · show k < d.1
          omega
        · exact hk d hd

theorem Memory.within_iff (m : Memory) (n : Nat) : m.within n = true ↔ ∀ c ∈ m, c.1 < n := by
  simp [Memory.within]

theorem Memory.within_write {m : Memory} {n : Nat} (a : Nat) (v : Byte) (h : m.within n = true) (ha : a < n) :
    (Memory.write m a v).within n = true := by
  rw [Memory.within_iff] at h ⊢
  intro c hc
  rcases Memory.mem_write hc with hc | hc
  · omega
  · exact h c hc

/-- A listed byte lies among the listed addresses. -/
theorem Memory.mem_of_read {m : Memory} {a : Nat} {v : Byte} (h : m.read a = some v) : (a, v) ∈ m := by
  induction m with
  | nil => simp at h
  | cons c m ih =>
    obtain ⟨k, w⟩ := c
    rw [Memory.read_cons] at h
    split at h
    · next hk => simp_all
    · exact List.mem_cons_of_mem _ (ih h)

/-! ### Bytes of BUF -/

/-- `readByte` looks at the parameters and BUF only. -/
theorem readByte_congr {s t : State} (hc : t.cfg = s.cfg) (hb : t.buf = s.buf) (a : Nat) :
    t.readByte a = s.readByte a := by
  simp [State.readByte, hc, hb]

/-- `readBytes` reads exactly the bytes of its window. -/
theorem readBytes_congr {s t : State} {a n : Nat} (h : ∀ i < n, t.readByte (a + i) = s.readByte (a + i)) :
    t.readBytes a n = s.readBytes a n := by
  induction n generalizing a with
  | zero => rfl
  | succ n ih =>
    have h0 : t.readByte a = s.readByte a := h 0 (Nat.succ_pos _)
    have h1 : t.readBytes (a + 1) n = s.readBytes (a + 1) n := ih fun i hi => by
      have := h (i + 1) (by omega)
      rwa [show a + (i + 1) = a + 1 + i by omega] at this
    simp [State.readBytes, h0, h1]

theorem readBytes_length {s : State} {a n : Nat} {bs : List Byte} (h : s.readBytes a n = some bs) :
    bs.length = n := by
  induction n generalizing a bs with
  | zero => simp [State.readBytes] at h; simp [← h]
  | succ n ih =>
    simp only [State.readBytes] at h
    split at h
    · cases h
    · split at h
      · cases h
      · next hr => cases h; simp [ih hr]

/-- What `Bytes(addr, n)` returns, byte by byte. -/
theorem readBytes_eq_some {s : State} {a n : Nat} {bs : List Byte} :
    s.readBytes a n = some bs ↔ bs.length = n ∧ ∀ i < n, s.readByte (a + i) = bs[i]? := by
  induction n generalizing a bs with
  | zero => cases bs <;> simp [State.readBytes]
  | succ n ih =>
    simp only [State.readBytes]
    cases hb : s.readByte a with
    | none =>
      simp only [reduceCtorEq, false_iff, not_and]
      intro hl hi
      have := hi 0 (Nat.succ_pos _)
      rw [Nat.add_zero, hb] at this
      cases bs <;> simp_all
    | some b =>
      cases bs with
      | nil =>
        simp only [List.length_nil, Nat.right_eq_add, Nat.add_eq_zero_iff, one_ne_zero, and_false, false_and,
          iff_false]
        cases s.readBytes (a + 1) n <;> simp
      | cons c cs =>
        have shift : (∀ i < n, s.readByte (a + 1 + i) = cs[i]?) ↔
            ∀ i < n, s.readByte (a + (i + 1)) = (c :: cs)[i + 1]? := by
          simp [show ∀ i, a + 1 + i = a + (i + 1) by omega]
        have step : (∀ i < n + 1, s.readByte (a + i) = (c :: cs)[i]?) ↔
            b = c ∧ ∀ i < n, s.readByte (a + 1 + i) = cs[i]? := by
          rw [shift]
          refine ⟨fun h => ⟨by simpa [hb] using h 0 (Nat.succ_pos _), fun i hi => h (i + 1) (by omega)⟩, ?_⟩
          rintro ⟨rfl, h⟩ i hi
          cases i with
          | zero => simpa using hb
          | succ i => exact h i (by omega)
        rw [step]
        have ih' := ih (a := a + 1) (bs := cs)
        cases hr : s.readBytes (a + 1) n with
        | none =>
          rw [hr] at ih'
          simp only [reduceCtorEq, false_iff] at ih' ⊢
          rintro ⟨hl, -, hi⟩
          exact ih' ⟨by simpa using hl, hi⟩
        | some rs =>
          rw [hr] at ih'
          simp only [Option.some.injEq] at ih' ⊢
          constructor
          · rintro h
            obtain ⟨rfl, rfl⟩ := List.cons.inj h
            obtain ⟨hl, hi⟩ := ih'.1 rfl
            exact ⟨by simp [hl], rfl, hi⟩
          · rintro ⟨hl, rfl, hi⟩
            rw [ih'.2 ⟨by simpa using hl, hi⟩]

theorem readBytes_eq_none {s : State} {a n : Nat} :
    s.readBytes a n = none ↔ ∃ i < n, s.readByte (a + i) = none := by
  induction n generalizing a with
  | zero => simp [State.readBytes]
  | succ n ih =>
    simp only [State.readBytes]
    cases hb : s.readByte a with
    | none => exact ⟨fun _ => ⟨0, by omega, by simpa using hb⟩, fun _ => rfl⟩
    | some b =>
      have ih' := ih (a := a + 1)
      cases hr : s.readBytes (a + 1) n with
      | none =>
        obtain ⟨i, hi, h⟩ := ih'.1 hr
        exact ⟨fun _ => ⟨i + 1, by omega, by rwa [show a + (i + 1) = a + 1 + i by omega]⟩, fun _ => rfl⟩
      | some rs =>
        simp only [reduceCtorEq, false_iff, not_exists, not_and]
        intro i hi h
        cases i with
        | zero => simp [hb] at h
        | succ i =>
          have : s.readBytes (a + 1) n = none := ih'.2 ⟨i, by omega, by rwa [show a + 1 + i = a + (i + 1) by omega]⟩
          simp [hr] at this

/-! ### What a command reads -/

theorem engineByte_of_written {s : State} {a : Nat} {b : Byte} (h : s.readByte a = some b) : s.engineByte a = b := by
  simp [State.engineByte, h]

/-- Where nothing is unwritten, no free value enters: what is read does not depend on the draws. -/
theorem engineByte_congr_written {s t : State} {a : Nat} (hs : s.readByte a ≠ none)
    (h : t.readByte a = s.readByte a) : t.engineByte a = s.engineByte a := by
  obtain ⟨b, hb⟩ := Option.ne_none_iff_exists'.1 hs
  rw [engineByte_of_written hb, engineByte_of_written (h.trans hb)]

theorem engineByte_congr {s t : State} {a : Nat} (h : t.readByte a = s.readByte a) (hd : t.draws = s.draws) :
    t.engineByte a = s.engineByte a := by
  simp [State.engineByte, h, hd]

@[simp] theorem engineBytes_length (s : State) (a n : Nat) : (s.engineBytes a n).length = n := by
  induction n generalizing a with
  | zero => rfl
  | succ n ih => simp [State.engineBytes, ih]

theorem engineBytes_getElem? (s : State) {a n i : Nat} (h : i < n) :
    (s.engineBytes a n)[i]? = some (s.engineByte (a + i)) := by
  induction n generalizing a i with
  | zero => omega
  | succ n ih =>
    cases i with
    | zero => rfl
    | succ i => simpa [State.engineBytes, Nat.add_assoc, Nat.add_comm 1] using ih (a := a + 1) (i := i) (by omega)

/-- `Bytes(addr, n)` is determined by the bytes of its window. -/
theorem engineBytes_congr {s t : State} {a n : Nat} (h : ∀ i < n, t.engineByte (a + i) = s.engineByte (a + i)) :
    t.engineBytes a n = s.engineBytes a n :=
  List.ext_getElem? fun i => by
    by_cases hi : i < n
    · rw [engineBytes_getElem? t hi, engineBytes_getElem? s hi, h i hi]
    · simp [Nat.not_lt.1 hi]

/-- A command reads a written window as it stands. -/
theorem engineBytes_of_written {s : State} {a n : Nat} {bs : List Byte} (h : s.readBytes a n = some bs) :
    s.engineBytes a n = bs := by
  obtain ⟨hl, hb⟩ := readBytes_eq_some.1 h
  refine List.ext_getElem? fun i => ?_
  by_cases hi : i < n
  · rw [engineBytes_getElem? s hi, ← hb i hi]
    have := hb i hi
    rw [List.getElem?_eq_getElem (by omega)] at this
    rw [engineByte_of_written this, this]
  · simp [hl, Nat.not_lt.1 hi]

theorem memRead_congr {s t : State} {a n : Nat} (h : ∀ i < n, t.engineByte (a + i) = s.engineByte (a + i)) :
    t.memRead a n = s.memRead a n := by
  simp [State.memRead, engineBytes_congr h]

/-! ### Numbers of one, two and four bytes -/

theorem memRead_one (s : State) (a : Nat) : s.memRead a 1 = (s.engineByte a).toNat := by
  simp [State.memRead, State.engineBytes, bigEndian]

theorem memRead_two (s : State) (a : Nat) :
    s.memRead a 2 = (s.engineByte a).toNat * 256 + (s.engineByte (a + 1)).toNat := by
  simp [State.memRead, State.engineBytes, bigEndian]

theorem memRead_four (s : State) (a : Nat) :
    s.memRead a 4 = (((s.engineByte a).toNat * 256 + (s.engineByte (a + 1)).toNat) * 256 +
      (s.engineByte (a + 2)).toNat) * 256 + (s.engineByte (a + 3)).toNat := by
  simp [State.memRead, State.engineBytes, bigEndian]

theorem bigEndian_lt (bs : List Byte) : bigEndian bs < 256 ^ bs.length := by
  unfold bigEndian
  suffices h : ∀ (bs : List Byte) (n k : Nat), n < 256 ^ k →
      bs.foldl (fun n b => n * 256 + b.toNat) n < 256 ^ (k + bs.length) by
    simpa using h bs 0 0 (by simp)
  intro bs
  induction bs with
  | nil => intro n k h; simpa using h
  | cons b bs ih =>
    intro n k h
    have hb : b.toNat < 256 := b.isLt
    have := ih (n * 256 + b.toNat) (k + 1) (by rw [pow_succ]; omega)
    simpa [Nat.add_assoc, Nat.add_comm 1] using this

theorem memRead_lt (s : State) (a n : Nat) : s.memRead a n < 256 ^ n := by
  simpa [State.memRead] using bigEndian_lt (s.engineBytes a n)

/-! ### The fault UNINIT_READ of a command -/

/-- The state with UNINIT_READ recorded for this step and one free value drawn. -/
def State.uninitNoted (s : State) : State := (s.record [.uninitRead s.time]).drawn

/-- What a command's reads leave: the state itself, or UNINIT_READ recorded (rule R98). -/
inductive Noted (s : State) : State → Prop where
  | clean : Noted s s
  | fault : Noted s s.uninitNoted

theorem noteReads_written {s : State} {a n : Nat} {bs : List Byte} (h : s.readBytes a n = some bs) :
    s.noteReads a n = s := by
  simp [State.noteReads, h]

theorem noteReads_unwritten {s : State} {a n : Nat} (h : s.readBytes a n = none) :
    s.noteReads a n = s.uninitNoted := by
  simp [State.noteReads, h, State.uninitNoted]

@[simp] theorem noteReads_none (s : State) (a : Nat) : s.noteReads a 0 = s := rfl

theorem noteReads_noted (s : State) (a n : Nat) : Noted s (s.noteReads a n) := by
  cases h : s.readBytes a n with
  | none => exact noteReads_unwritten h ▸ .fault
  | some bs => exact (noteReads_written h).symm ▸ .clean

/-- The reads of a command are recorded as a fault exactly when one of the bytes is unwritten. -/
theorem noteReads_eq_self {s : State} {a n : Nat} :
    s.noteReads a n = s ↔ ∀ i < n, s.readByte (a + i) ≠ none := by
  cases h : s.readBytes a n with
  | none =>
    obtain ⟨i, hi, hn⟩ := readBytes_eq_none.1 h
    rw [noteReads_unwritten h]
    refine ⟨fun e => ?_, fun e => absurd hn (e i hi)⟩
    have := congrArg (fun u => u.draws) e
    simp [State.uninitNoted, State.record, State.drawn] at this
  | some bs =>
    rw [noteReads_written h]
    exact ⟨fun _ i hi hn => by simpa [h] using readBytes_eq_none.2 ⟨i, hi, hn⟩, fun _ => rfl⟩

theorem noteReads_congr {s t : State} {a n : Nat} (h : ∀ i < n, t.readByte (a + i) = s.readByte (a + i)) :
    t.noteReads a n = t ↔ s.noteReads a n = s := by
  rw [noteReads_eq_self, noteReads_eq_self]
  exact ⟨fun e i hi => h i hi ▸ e i hi, fun e i hi => (h i hi).symm ▸ e i hi⟩

/-- Recording a command's reads touches the fault record and the draws alone. -/
theorem Noted.eq {s u : State} (h : Noted s u) :
    ∃ fs d, u = { s with faults := s.faults ++ fs, draws := d } ∧ (fs = [] ∨ fs = [.uninitRead s.time]) := by
  cases h with
  | clean => exact ⟨[], s.draws, by simp, .inl rfl⟩
  | fault => exact ⟨_, _, rfl, .inr rfl⟩

/-! ### One lemma per field for the notes of reads -/

@[simp] theorem uninitNoted_cfg (s : State) : s.uninitNoted.cfg = s.cfg := rfl
@[simp] theorem uninitNoted_status (s : State) : s.uninitNoted.status = s.status := rfl
@[simp] theorem uninitNoted_irqEn (s : State) : s.uninitNoted.irqEn = s.irqEn := rfl
@[simp] theorem uninitNoted_ops (s : State) : s.uninitNoted.ops = s.ops := rfl
@[simp] theorem uninitNoted_res (s : State) : s.uninitNoted.res = s.res := rfl
@[simp] theorem uninitNoted_hdr (s : State) : s.uninitNoted.hdr = s.hdr := rfl
@[simp] theorem uninitNoted_latch (s : State) : s.uninitNoted.latch = s.latch := rfl
@[simp] theorem uninitNoted_buf (s : State) : s.uninitNoted.buf = s.buf := rfl
@[simp] theorem uninitNoted_faults (s : State) : s.uninitNoted.faults = s.faults ++ [.uninitRead s.time] := rfl
@[simp] theorem uninitNoted_time (s : State) : s.uninitNoted.time = s.time := rfl
@[simp] theorem uninitNoted_agenda (s : State) : s.uninitNoted.agenda = s.agenda := rfl
@[simp] theorem uninitNoted_lastRead (s : State) : s.uninitNoted.lastRead = s.lastRead := rfl
@[simp] theorem uninitNoted_draws (s : State) : s.uninitNoted.draws = s.draws + 1 := rfl

theorem Noted.cfg {s u : State} (h : Noted s u) : u.cfg = s.cfg := by cases h <;> rfl
theorem Noted.status {s u : State} (h : Noted s u) : u.status = s.status := by cases h <;> rfl
theorem Noted.irqEn {s u : State} (h : Noted s u) : u.irqEn = s.irqEn := by cases h <;> rfl
theorem Noted.ops {s u : State} (h : Noted s u) : u.ops = s.ops := by cases h <;> rfl
theorem Noted.res {s u : State} (h : Noted s u) : u.res = s.res := by cases h <;> rfl
theorem Noted.hdr {s u : State} (h : Noted s u) : u.hdr = s.hdr := by cases h <;> rfl
theorem Noted.latch {s u : State} (h : Noted s u) : u.latch = s.latch := by cases h <;> rfl
theorem Noted.buf {s u : State} (h : Noted s u) : u.buf = s.buf := by cases h <;> rfl
theorem Noted.time {s u : State} (h : Noted s u) : u.time = s.time := by cases h <;> rfl
theorem Noted.agenda {s u : State} (h : Noted s u) : u.agenda = s.agenda := by cases h <;> rfl
theorem Noted.lastRead {s u : State} (h : Noted s u) : u.lastRead = s.lastRead := by cases h <;> rfl

@[simp] theorem noteReads_cfg (s : State) (a n : Nat) : (s.noteReads a n).cfg = s.cfg :=
  (noteReads_noted s a n).cfg
@[simp] theorem noteReads_status (s : State) (a n : Nat) : (s.noteReads a n).status = s.status :=
  (noteReads_noted s a n).status
@[simp] theorem noteReads_irqEn (s : State) (a n : Nat) : (s.noteReads a n).irqEn = s.irqEn :=
  (noteReads_noted s a n).irqEn
@[simp] theorem noteReads_ops (s : State) (a n : Nat) : (s.noteReads a n).ops = s.ops :=
  (noteReads_noted s a n).ops
@[simp] theorem noteReads_res (s : State) (a n : Nat) : (s.noteReads a n).res = s.res :=
  (noteReads_noted s a n).res
@[simp] theorem noteReads_hdr (s : State) (a n : Nat) : (s.noteReads a n).hdr = s.hdr :=
  (noteReads_noted s a n).hdr
@[simp] theorem noteReads_latch (s : State) (a n : Nat) : (s.noteReads a n).latch = s.latch :=
  (noteReads_noted s a n).latch
@[simp] theorem noteReads_buf (s : State) (a n : Nat) : (s.noteReads a n).buf = s.buf :=
  (noteReads_noted s a n).buf
@[simp] theorem noteReads_time (s : State) (a n : Nat) : (s.noteReads a n).time = s.time :=
  (noteReads_noted s a n).time
@[simp] theorem noteReads_agenda (s : State) (a n : Nat) : (s.noteReads a n).agenda = s.agenda :=
  (noteReads_noted s a n).agenda
@[simp] theorem noteReads_lastRead (s : State) (a n : Nat) : (s.noteReads a n).lastRead = s.lastRead :=
  (noteReads_noted s a n).lastRead

end Sys2Proof.Machine
end

