-- ==== Sys2Proof/Laws/Bus.lean ====
section
/-! SUPPORT. What a Host access can do: the register map, reads, writes, and the bus windows. -/

namespace Sys2Proof.Machine

/-! ### The register map -/

@[simp] theorem regAt_offset (r : Reg) : regAt r.offset = some r := by cases r <;> decide

theorem offset_lt (r : Reg) : r.offset < 0x100 ∧ r.offset % 4 = 0 := by cases r <;> decide

theorem offset_of_regAt {off : Nat} {r : Reg} (h : regAt off = some r) : r.offset = off := by
  simpa using List.find?_some h

theorem route_reg {c : Config} {off : Nat} (h : off < 0x100) : route c (c.regBase + off) = some (.reg, off) := by
  simp [route, h]

theorem route_buf {c : Config} {a : Nat} (hc : c.windowsApart = true) (h : a < c.bufSize) :
    route c (c.bufHostBase + a) = some (.buf, a) := by
  simp only [Config.windowsApart, Bool.or_eq_true, decide_eq_true_eq] at hc
  have hr : ¬ (c.regBase ≤ c.bufHostBase + a ∧ c.bufHostBase + a < c.regBase + 0x100) := by omega
  simp [route, hr, h]

theorem route_eq_buf {c : Config} {addr a : Nat} (h : route c addr = some (.buf, a)) :
    a < c.bufSize ∧ addr = c.bufHostBase + a := by
  unfold route at h
  split at h
  · simp at h
  · split at h
    · simp at h; omega
    · simp at h

theorem route_eq_reg {c : Config} {addr off : Nat} (h : route c addr = some (.reg, off)) :
    off < 0x100 ∧ addr = c.regBase + off := by
  unfold route at h
  split at h
  · simp at h; omega
  · split at h <;> simp at h

/-! ### Register accesses -/

/-- A register read changes only what the Host read and how many free values are drawn (rule R87). -/
theorem regRead_eq (s : State) (off : Nat) :
    ∃ r d, s.regRead off = { s with lastRead := r, draws := d } ∧ s.draws ≤ d := by
  unfold State.regRead
  split
  · exact ⟨_, _, rfl, Nat.le_refl _⟩
  · split
    · exact ⟨_, _, rfl, Nat.le_succ _⟩
    · exact ⟨_, _, rfl, Nat.le_refl _⟩

/-- Every way a register write can end: CMD latched or dropped, STATUS bits cleared, CTRL or an operand register
stored, or nothing. -/
theorem regWrite_eq (s : State) (off : Nat) (v : Word) :
    (off = 0 ∧ s.latch = none ∧ s.regWrite off v = s.latchCommand v) ∨
    (off = 0 ∧ s.busy = true ∧ s.regWrite off v = { s with status := { s.status with ovr := true } }) ∨
    (off = 4 ∧ s.regWrite off v = { s with status := s.status.writeOneToClear v }) ∨
    ∃ irq ops, s.regWrite off v = { s with irqEn := irq, ops := ops } := by
  unfold State.regWrite
  split
  · exact .inr (.inr (.inr ⟨s.irqEn, s.ops, rfl⟩))
  next r hr =>
  have hoff := offset_of_regAt hr
  cases r
  case cmd =>
    simp only [State.writeReg, State.writeCmd]
    by_cases hb : s.busy = true
    · exact .inr (.inl ⟨hoff.symm, hb, by simp [hb]⟩)
    · refine .inl ⟨hoff.symm, ?_, by simp [hb]⟩
      simpa [State.busy] using hb
  case status => exact .inr (.inr (.inl ⟨hoff.symm, rfl⟩))
  all_goals exact .inr (.inr (.inr ⟨_, _, rfl⟩))

/-! ### BUF accesses -/

theorem bufWrite_quiet {s : State} {a : Nat} (v : Byte) (h : s.writeFaults a = []) :
    s.bufWrite a v = s.setBuf (s.buf.write a v) := by
  simp [State.bufWrite, h]

theorem bufWrite_faulting {s : State} {a : Nat} (v : Byte) (h : s.writeFaults a ≠ []) :
    s.bufWrite a v =
      ((s.record (s.writeFaults a)).setBuf (s.buf.write a (Config.freeByte s.draws))).drawn := by
  unfold State.bufWrite
  split
  · next he => exact absurd he h
  · rfl

theorem writeFaults_eq_nil {s : State} {a : Nat} :
    s.writeFaults a = [] ↔ s.busy = false ∧ s.inLiveView a = false := by
  cases hb : s.busy <;> cases hv : s.inLiveView a <;> simp [State.writeFaults, hb, hv]

/-- A BUF write changes BUF at its address, and the fault record and the draws if it faults. -/
theorem bufWrite_eq (s : State) (a : Nat) (v : Byte) :
    ∃ w fs d, s.bufWrite a v = { s with buf := s.buf.write a w, faults := s.faults ++ fs, draws := d } ∧
      (fs = [] → s.busy = false ∧ s.inLiveView a = false) := by
  by_cases h : s.writeFaults a = []
  · rw [bufWrite_quiet v h]
    exact ⟨v, [], s.draws, by simp [State.setBuf], fun _ => writeFaults_eq_nil.1 h⟩
  · rw [bufWrite_faulting v h]
    exact ⟨_, _, _, rfl, fun hf => absurd hf h⟩

theorem bufRead_eq (s : State) (a : Nat) :
    ∃ r fs, s.bufRead a = { s with lastRead := r, faults := s.faults ++ fs } := by
  unfold State.bufRead
  split
  · next b _ => exact ⟨.byte b, [], by simp [State.reply]⟩
  · exact ⟨_, _, rfl⟩

end Sys2Proof.Machine
end

