-- ==== Sys2Proof/Laws/Checksum.lean ====
section
/-! SUPPORT. The adder's small lemmas: folding, sums of joined byte sequences (rule R210). -/

namespace Sys2Proof.Machine

/-- Any bound of at least n folds n completely. -/
theorem foldWithin_enough {b n : Nat} (h : n ≤ b) : foldWithin b n = fold n := by
  suffices aux : ∀ b c n, n ≤ b → n ≤ c → foldWithin b n = foldWithin c n from aux b n n h (Nat.le_refl n)
  intro b
  induction b with
  | zero => intro c n hb hc; obtain rfl : n = 0 := by omega
            cases c <;> simp [foldWithin]
  | succ b ih =>
    intro c n hb hc
    cases c with
    | zero => obtain rfl : n = 0 := by omega
              simp [foldWithin]
    | succ c =>
      simp only [foldWithin]
      split
      · rfl
      · exact ih c _ (by omega) (by omega)

theorem fold_small {n : Nat} (h : n ≤ 0xFFFF) : fold n = n := by
  cases n with
  | zero => rfl
  | succ n => simp [fold, foldWithin, h]

theorem fold_large {n : Nat} (h : 0xFFFF < n) : fold n = fold (n % 0x10000 + n / 0x10000) := by
  obtain ⟨m, rfl⟩ : ∃ m, n = m + 1 := ⟨n - 1, by omega⟩
  have hn : ¬ (m + 1 ≤ 0xFFFF) := by omega
  rw [fold, foldWithin, if_neg hn, foldWithin_enough (by omega)]

theorem sum16_append {bs : List Byte} (cs : List Byte) (h : bs.length % 2 = 0) :
    sum16 (bs ++ cs) = sum16 bs + sum16 cs := by
  induction bs using sum16.induct with
  | case1 => simp [sum16]
  | case2 b => simp at h
  | case3 b c rest ih =>
    have := ih (by simp at h; omega)
    simp [sum16, this, Nat.add_assoc]

theorem pseudoHeader_length (h : Header) (n : Word) (v : Variant) :
    (pseudoHeader h n v).length = if v = .v4 then 12 else 40 := by
  cases v <;> rfl

end Sys2Proof.Machine
end

