-- ==== Sys2Proof/Laws/Decoders.lean ====
section
/-! SUPPORT. What the three decoders can answer: one inversion lemma for each, and what they read. -/

namespace Sys2Proof.Machine

theorem windowInBuf_iff (s : State) (base len : Word) :
    s.windowInBuf base len = true ↔ base.toNat + len.toNat ≤ s.cfg.bufSize := by
  simp [State.windowInBuf]

/-- The options check of rule R171 step 7 "is equivalent to `len < hlen`". -/
theorem options_check {ihl : BitVec 4} {len : Word} (h5 : ¬ ihl.toNat < 5) (h20 : ¬ len.toNat < 20) :
    (5 < ihl.toNat ∧ len.toNat - 20 < optionsLen ihl.toNat) ↔ len.toNat < ihl.toNat * 4 := by
  unfold optionsLen
  omega

/-- Bits 7:4 of the datagram's first byte, as a command reads it (rules R115, R117). -/
abbrev versionNibble (s : State) (base : Nat) : BitVec 4 := (splitNibble (BitVec.ofNat 8 (s.memRead base 1))).1

/-- Bits 3:0 of the datagram's first byte, as a command reads it (rule R115). -/
abbrev ihlNibble (s : State) (base : Nat) : BitVec 4 := (splitNibble (BitVec.ofNat 8 (s.memRead base 1))).2

/-- What a successful IPv4 decode has found. -/
structure V4Found (s : State) (base len : Word) : Prop where
  window  : base.toNat + len.toNat ≤ s.cfg.bufSize
  fixed   : 20 ≤ len.toNat
  version : versionNibble s base.toNat = 4
  ihl     : 5 ≤ (ihlNibble s base.toNat).toNat
  options : (ihlNibble s base.toNat).toNat * 4 ≤ len.toNat
  total   : len = (readV4Fields s base.toNat).totalLen

theorem ipv4Decode_of_found {s : State} {base len : Word} (h : V4Found s base len) :
    ipv4Decode s base len =
      .header 20 (writeV4 base len (ihlNibble s base.toNat) (readV4Fields s base.toNat)) := by
  have h20 : ¬ len.toNat < 20 := by have := h.fixed; omega
  have h5 : ¬ (ihlNibble s base.toNat).toNat < 5 := by have := h.ihl; omega
  have ho : ¬ (5 < (ihlNibble s base.toNat).toNat ∧ len.toNat - 20 < optionsLen (ihlNibble s base.toNat).toNat) := by
    rw [options_check h5 h20]
    have := h.options
    omega
  unfold ipv4Decode
  dsimp only
  rw [(windowInBuf_iff ..).2 h.window, if_neg (by simp), if_neg h20, if_neg (by simpa using h.version), if_neg h5,
    if_neg ho, if_neg (by simpa using h.total)]

theorem ipv4Decode_header {s : State} {base len : Word} {h : Header} (hd : (ipv4Decode s base len).outcome = .ok h) :
    V4Found s base len ∧ ipv4Decode s base len = .header 20 h ∧
      h = writeV4 base len (ihlNibble s base.toNat) (readV4Fields s base.toNat) := by
  have hf : V4Found s base len := by
    unfold ipv4Decode at hd
    dsimp only at hd
    split at hd
    · cases hd
    next hw =>
    split at hd
    · cases hd
    next h20 =>
    split at hd
    · cases hd
    next hv =>
    split at hd
    · cases hd
    next h5 =>
    split at hd
    · cases hd
    next ho =>
    split at hd
    · cases hd
    next ht =>
    rw [options_check h5 h20] at ho
    exact ⟨by simpa [windowInBuf_iff] using hw, Nat.not_lt.1 h20, not_not.1 hv, Nat.not_lt.1 h5, Nat.not_lt.1 ho,
      not_not.1 ht⟩
  have he := ipv4Decode_of_found hf
  rw [he] at hd
  cases hd
  exact ⟨hf, he, rfl⟩

/-- The errors an IPv4 decode raises (rule R170), all with UVER 0. -/
theorem ipv4Decode_fail {s : State} {base len : Word} {e : Failure}
    (hd : (ipv4Decode s base len).outcome = .error e) :
    e.code ∈ [Code.range, .truncated, .wrongVersion, .badIhl, .lengthMismatch] ∧ e.uver = 0 := by
  unfold ipv4Decode at hd
  dsimp only at hd
  repeat' split at hd
  all_goals first | (cases hd; done) | (cases hd; simp [failure])

/-- What a successful IPv6 decode has found. -/
structure V6Found (s : State) (base len : Word) : Prop where
  window  : base.toNat + len.toNat ≤ s.cfg.bufSize
  fixed   : 40 ≤ len.toNat
  version : versionNibble s base.toNat = 6
  total   : len - 40 = (readV6Fields s base.toNat).plen

theorem ipv6Decode_of_found {s : State} {base len : Word} (h : V6Found s base len) :
    ipv6Decode s base len = .header 40 (writeV6 base (readV6Fields s base.toNat)) := by
  have h40 : ¬ len.toNat < 40 := by have := h.fixed; omega
  have hv : (BitVec.ofNat 8 (s.memRead base.toNat 1)).extractLsb' 4 4 = (6 : BitVec 4) := h.version
  unfold ipv6Decode
  dsimp only
  rw [(windowInBuf_iff ..).2 h.window, if_neg (by simp), if_neg h40, if_neg (not_not.2 hv),
    if_neg (by simpa using h.total)]

theorem ipv6Decode_header {s : State} {base len : Word} {h : Header} (hd : (ipv6Decode s base len).outcome = .ok h) :
    V6Found s base len ∧ ipv6Decode s base len = .header 40 h ∧ h = writeV6 base (readV6Fields s base.toNat) := by
  have hf : V6Found s base len := by
    unfold ipv6Decode at hd
    dsimp only at hd
    split at hd
    · cases hd
    next hw =>
    split at hd
    · cases hd
    next h40 =>
    split at hd
    · cases hd
    next hv =>
    split at hd
    · cases hd
    next ht =>
    exact ⟨by simpa [windowInBuf_iff] using hw, Nat.not_lt.1 h40, not_not.1 hv, not_not.1 ht⟩
  have he := ipv6Decode_of_found hf
  rw [he] at hd
  cases hd
  exact ⟨hf, he, rfl⟩

/-- The errors an IPv6 decode raises (rule R190), all with UVER 0. -/
theorem ipv6Decode_fail {s : State} {base len : Word} {e : Failure}
    (hd : (ipv6Decode s base len).outcome = .error e) :
    e.code ∈ [Code.range, .truncated, .wrongVersion, .lengthMismatch] ∧ e.uver = 0 := by
  unfold ipv6Decode at hd
  dsimp only at hd
  repeat' split at hd
  all_goals first | (cases hd; done) | (cases hd; simp [failure])

@[simp] theorem afterByte0_outcome (d : DecodeResult) : d.afterByte0.outcome = d.outcome := rfl

/-- The dispatch reads byte 0 before it delegates (rule R200). -/
@[simp] theorem afterByte0_reads (d : DecodeResult) : d.afterByte0.reads = max 1 d.reads := rfl

/-- Where the dispatch goes (rule R200). -/
theorem packetDecode_cases (s : State) (base len : Word) :
    packetDecode s base len = (ipv4Decode s base len).afterByte0 ∨
      packetDecode s base len = (ipv6Decode s base len).afterByte0 ∨
      ∃ n e, packetDecode s base len = .fail n e ∧
        (e = failure .range 0 0 0 ∨ e = failure .truncated 1 0 0 ∨ e.code = .unsupportedVersion) := by
  unfold packetDecode
  dsimp only
  split
  · exact .inr (.inr ⟨_, _, rfl, .inl rfl⟩)
  split
  · exact .inr (.inr ⟨_, _, rfl, .inr (.inl rfl)⟩)
  split
  · exact .inl rfl
  split
  · exact .inr (.inl rfl)
  · exact .inr (.inr ⟨_, _, rfl, .inr (.inr rfl)⟩)

theorem packetDecode_header {s : State} {base len : Word} {h : Header}
    (hd : (packetDecode s base len).outcome = .ok h) :
    packetDecode s base len = .header 20 h ∧ (ipv4Decode s base len).outcome = .ok h ∨
      packetDecode s base len = .header 40 h ∧ (ipv6Decode s base len).outcome = .ok h := by
  rcases packetDecode_cases s base len with hp | hp | ⟨n, e, hp, -⟩ <;> rw [hp] at hd
  · exact .inl ⟨by rw [hp, (ipv4Decode_header hd).2.1]; rfl, hd⟩
  · exact .inr ⟨by rw [hp, (ipv6Decode_header hd).2.1]; rfl, hd⟩
  · cases hd

theorem packetDecode_fail {s : State} {base len : Word} {e : Failure}
    (hd : (packetDecode s base len).outcome = .error e) :
    e.code ≠ .ok ∧ (e.code ≠ .unsupportedVersion → e.uver = 0) := by
  rcases packetDecode_cases s base len with hp | hp | ⟨n, e', hp, he⟩ <;> rw [hp] at hd
  · have := ipv4Decode_fail hd
    exact ⟨by rintro h; simp [h] at this, fun _ => this.2⟩
  · have := ipv6Decode_fail hd
    exact ⟨by rintro h; simp [h] at this, fun _ => this.2⟩
  · cases hd
    rcases he with rfl | rfl | he
    · simp [failure]
    · simp [failure]
    · simp [he]

/-! ### What a decoder reads -/

/-- The IPv4 fields come from bytes 1 to 19. -/
theorem readV4Fields_congr {s t : State} {base : Nat} (h : ∀ i < 20, t.engineByte (base + i) = s.engineByte (base + i)) :
    readV4Fields t base = readV4Fields s base := by
  have g : ∀ k n, k + n ≤ 20 → t.memRead (base + k) n = s.memRead (base + k) n := fun k n hk =>
    memRead_congr fun i hi => by simpa [Nat.add_assoc] using h (k + i) (by omega)
  unfold readV4Fields
  simp only [g 1 1 (by omega), g 2 2 (by omega), g 4 2 (by omega), g 6 2 (by omega), g 8 1 (by omega),
    g 9 1 (by omega), g 10 2 (by omega), g 12 4 (by omega), g 16 4 (by omega)]

/-- The IPv6 fields come from bytes 0 to 39. -/
theorem readV6Fields_congr {s t : State} {base : Nat} (h : ∀ i < 40, t.engineByte (base + i) = s.engineByte (base + i)) :
    readV6Fields t base = readV6Fields s base := by
  have g : ∀ k n, k + n ≤ 40 → t.memRead (base + k) n = s.memRead (base + k) n := fun k n hk =>
    memRead_congr fun i hi => by simpa [Nat.add_assoc] using h (k + i) (by omega)
  have g0 : t.memRead base 4 = s.memRead base 4 := g 0 4 (by omega)
  unfold readV6Fields
  simp only [g0, g 4 2 (by omega), g 6 1 (by omega), g 7 1 (by omega), g 8 4 (by omega), g 12 4 (by omega),
    g 16 4 (by omega), g 20 4 (by omega), g 24 4 (by omega), g 28 4 (by omega), g 32 4 (by omega),
    g 36 4 (by omega)]

/-- No decoder reads past the fixed header. -/
theorem ipv4Decode_reads (s : State) (base len : Word) : (ipv4Decode s base len).reads ≤ 20 := by
  unfold ipv4Decode
  dsimp only
  repeat' split
  all_goals simp [DecodeResult.fail, DecodeResult.header]

theorem ipv6Decode_reads (s : State) (base len : Word) : (ipv6Decode s base len).reads ≤ 40 := by
  unfold ipv6Decode
  dsimp only
  repeat' split
  all_goals simp [DecodeResult.fail, DecodeResult.header]

theorem packetDecode_reads (s : State) (base len : Word) : (packetDecode s base len).reads ≤ 40 := by
  have h4 := ipv4Decode_reads s base len
  have h6 := ipv6Decode_reads s base len
  unfold packetDecode
  dsimp only
  repeat' split
  all_goals simp [DecodeResult.fail]
  all_goals omega

/-- Past the window and length checks an IPv4 decode has read byte 0 (rule R172). -/
theorem ipv4Decode_reads_pos {s : State} {base len : Word} (hw : base.toNat + len.toNat ≤ s.cfg.bufSize)
    (hl : 20 ≤ len.toNat) : 1 ≤ (ipv4Decode s base len).reads := by
  unfold ipv4Decode
  dsimp only
  rw [(windowInBuf_iff ..).2 hw, if_neg (by simp), if_neg (by omega)]
  repeat' split
  all_goals simp [DecodeResult.fail, DecodeResult.header]

theorem ipv6Decode_reads_pos {s : State} {base len : Word} (hw : base.toNat + len.toNat ≤ s.cfg.bufSize)
    (hl : 40 ≤ len.toNat) : 1 ≤ (ipv6Decode s base len).reads := by
  unfold ipv6Decode
  dsimp only
  rw [(windowInBuf_iff ..).2 hw, if_neg (by simp), if_neg (by omega)]
  repeat' split
  all_goals simp [DecodeResult.fail, DecodeResult.header]

theorem packetDecode_reads_pos {s : State} {base len : Word} (hw : base.toNat + len.toNat ≤ s.cfg.bufSize)
    (hl : 1 ≤ len.toNat) : 1 ≤ (packetDecode s base len).reads := by
  unfold packetDecode
  dsimp only
  rw [(windowInBuf_iff ..).2 hw, if_neg (by simp), if_neg (by rintro rfl; simp at hl)]
  repeat' split
  all_goals simp [DecodeResult.fail]

/-- Past the version and IHL checks an IPv4 decode has read the whole fixed header (rule R172). -/
theorem ipv4Decode_reads_eq {s : State} {base len : Word} (hw : base.toNat + len.toNat ≤ s.cfg.bufSize)
    (hl : 20 ≤ len.toNat) (hv : versionNibble s base.toNat = 4) (hi : 5 ≤ (ihlNibble s base.toNat).toNat) :
    (ipv4Decode s base len).reads = 20 := by
  unfold ipv4Decode
  dsimp only
  rw [(windowInBuf_iff ..).2 hw, if_neg (by simp), if_neg (by omega), if_neg (not_not.2 hv), if_neg (Nat.not_lt.2 hi)]
  repeat' split
  all_goals rfl

/-- Past the version check an IPv6 decode has read the whole fixed header (rule R192). -/
theorem ipv6Decode_reads_eq {s : State} {base len : Word} (hw : base.toNat + len.toNat ≤ s.cfg.bufSize)
    (hl : 40 ≤ len.toNat) (hv : versionNibble s base.toNat = 6) : (ipv6Decode s base len).reads = 40 := by
  have hv' : (BitVec.ofNat 8 (s.memRead base.toNat 1)).extractLsb' 4 4 = (6 : BitVec 4) := hv
  unfold ipv6Decode
  dsimp only
  rw [(windowInBuf_iff ..).2 hw, if_neg (by simp), if_neg (by omega), if_neg (not_not.2 hv')]
  repeat' split
  all_goals rfl

/-- An IPv4 decode is a function of the window, BUF_SIZE and the bytes it reads (rules R172, R176). -/
theorem ipv4Decode_congr {s t : State} {base len : Word} (hc : t.cfg.bufSize = s.cfg.bufSize)
    (h : ∀ i < (ipv4Decode s base len).reads, t.engineByte (base.toNat + i) = s.engineByte (base.toNat + i)) :
    ipv4Decode t base len = ipv4Decode s base len := by
  have hw : t.windowInBuf base len = s.windowInBuf base len := by simp [State.windowInBuf, hc]
  unfold ipv4Decode at h ⊢
  dsimp only at h ⊢
  rw [hw]
  by_cases h0 : (!s.windowInBuf base len) = true
  · rw [if_pos h0, if_pos h0]
  rw [if_neg h0, if_neg h0]
  rw [if_neg h0] at h
  by_cases h1 : len.toNat < 20
  · rw [if_pos h1, if_pos h1]
  rw [if_neg h1, if_neg h1]
  rw [if_neg h1] at h
  have e0 : t.memRead base.toNat 1 = s.memRead base.toNat 1 := memRead_congr fun i hi => h i (by
    repeat' split
    all_goals simp [DecodeResult.fail, DecodeResult.header]
    all_goals omega)
  rw [e0]
  by_cases h2 : (splitNibble (BitVec.ofNat 8 (s.memRead base.toNat 1))).1 ≠ 4
  · rw [if_pos h2, if_pos h2]
  rw [if_neg h2, if_neg h2]
  rw [if_neg h2] at h
  by_cases h3 : (splitNibble (BitVec.ofNat 8 (s.memRead base.toNat 1))).2.toNat < 5
  · rw [if_pos h3, if_pos h3]
  rw [if_neg h3, if_neg h3]
  rw [if_neg h3] at h
  rw [readV4Fields_congr fun i hi => h i (by
    repeat' split
    all_goals simpa [DecodeResult.fail, DecodeResult.header] using hi)]

/-- An IPv6 decode is a function of the window, BUF_SIZE and the bytes it reads (rule R192). -/
theorem ipv6Decode_congr {s t : State} {base len : Word} (hc : t.cfg.bufSize = s.cfg.bufSize)
    (h : ∀ i < (ipv6Decode s base len).reads, t.engineByte (base.toNat + i) = s.engineByte (base.toNat + i)) :
    ipv6Decode t base len = ipv6Decode s base len := by
  have hw : t.windowInBuf base len = s.windowInBuf base len := by simp [State.windowInBuf, hc]
  unfold ipv6Decode at h ⊢
  dsimp only at h ⊢
  rw [hw]
  by_cases h0 : (!s.windowInBuf base len) = true
  · rw [if_pos h0, if_pos h0]
  rw [if_neg h0, if_neg h0]
  rw [if_neg h0] at h
  by_cases h1 : len.toNat < 40
  · rw [if_pos h1, if_pos h1]
  rw [if_neg h1, if_neg h1]
  rw [if_neg h1] at h
  have e0 : t.memRead base.toNat 1 = s.memRead base.toNat 1 := memRead_congr fun i hi => h i (by
    repeat' split
    all_goals simp [DecodeResult.fail, DecodeResult.header]
    all_goals omega)
  rw [e0]
  by_cases h2 : (BitVec.ofNat 8 (s.memRead base.toNat 1)).extractLsb' 4 4 ≠ (6 : BitVec 4)
  · rw [if_pos h2, if_pos h2]
  rw [if_neg h2, if_neg h2]
  rw [if_neg h2] at h
  rw [readV6Fields_congr fun i hi => h i (by
    repeat' split
    all_goals simpa [DecodeResult.fail, DecodeResult.header] using hi)]

theorem packetDecode_congr {s t : State} {base len : Word} (hc : t.cfg.bufSize = s.cfg.bufSize)
    (h : ∀ i < (packetDecode s base len).reads, t.engineByte (base.toNat + i) = s.engineByte (base.toNat + i)) :
    packetDecode t base len = packetDecode s base len := by
  have hw : t.windowInBuf base len = s.windowInBuf base len := by simp [State.windowInBuf, hc]
  unfold packetDecode at h ⊢
  dsimp only at h ⊢
  rw [hw]
  by_cases h0 : (!s.windowInBuf base len) = true
  · rw [if_pos h0, if_pos h0]
  rw [if_neg h0, if_neg h0]
  rw [if_neg h0] at h
  by_cases h1 : len = 0
  · rw [if_pos h1, if_pos h1]
  rw [if_neg h1, if_neg h1]
  rw [if_neg h1] at h
  have e0 : t.memRead base.toNat 1 = s.memRead base.toNat 1 := memRead_congr fun i hi => h i (by
    repeat' split
    all_goals simp [DecodeResult.fail]
    all_goals omega)
  rw [e0]
  by_cases h2 : (BitVec.ofNat 8 (s.memRead base.toNat 1)).extractLsb' 4 4 = (4 : BitVec 4)
  · rw [if_pos h2, if_pos h2, ipv4Decode_congr hc]
    rw [if_pos h2] at h
    exact fun i hi => h i (by simp; omega)
  rw [if_neg h2, if_neg h2]
  rw [if_neg h2] at h
  by_cases h3 : (BitVec.ofNat 8 (s.memRead base.toNat 1)).extractLsb' 4 4 = (6 : BitVec 4)
  · rw [if_pos h3, if_pos h3, ipv6Decode_congr hc]
    rw [if_pos h3] at h
    exact fun i hi => h i (by simp; omega)
  rw [if_neg h3, if_neg h3]

/-- A written fixed header decodes alike wherever it stands (rule R176). -/
theorem ipv4Decode_congr_written {s t : State} {base len : Word} (hc : t.cfg.bufSize = s.cfg.bufSize)
    (hw : ∀ i < 20, s.readByte (base.toNat + i) ≠ none)
    (h : ∀ i < 20, t.readByte (base.toNat + i) = s.readByte (base.toNat + i)) :
    ipv4Decode t base len = ipv4Decode s base len :=
  ipv4Decode_congr hc fun i hi =>
    have hi := Nat.lt_of_lt_of_le hi (ipv4Decode_reads s base len)
    engineByte_congr_written (hw i hi) (h i hi)

theorem ipv6Decode_congr_written {s t : State} {base len : Word} (hc : t.cfg.bufSize = s.cfg.bufSize)
    (hw : ∀ i < 40, s.readByte (base.toNat + i) ≠ none)
    (h : ∀ i < 40, t.readByte (base.toNat + i) = s.readByte (base.toNat + i)) :
    ipv6Decode t base len = ipv6Decode s base len :=
  ipv6Decode_congr hc fun i hi =>
    have hi := Nat.lt_of_lt_of_le hi (ipv6Decode_reads s base len)
    engineByte_congr_written (hw i hi) (h i hi)

end Sys2Proof.Machine
end

