-- ==== Sys2Proof/Laws/Meanings.lean ====
section
/-! SUPPORT. What a command can do: one inversion lemma for every command (rule R250). -/

namespace Sys2Proof.Machine

@[simp] theorem withLatch_some {s : State} {l : Latch} {body : Latch → Answer} (h : s.latch = some l) :
    withLatch s body = body l := by
  simp [withLatch, h]

@[simp] theorem withLatch_none {s : State} {body : Latch → Answer} (h : s.latch = none) :
    withLatch s body = .fault (.noCommand s.time) := by
  simp [withLatch, h]

@[simp] theorem setHdr_self (s : State) : s.setHdr s.hdr = s := rfl

/-- The commands that decode (rule R113). -/
def IsDecode (i : Instr) : Prop := i = .pktDecode ∨ i = .v4Decode ∨ i = .v6Decode

/-- A header that one of the two decoders finds in the latched window, and the size of its fixed header, which is
what has been read by then. -/
def DecodedFrom (s : State) (l : Latch) (n : Nat) (h : Header) : Prop :=
  n = 20 ∧ (ipv4Decode s l.ops.bufBase l.ops.bufLen).outcome = .ok h ∨
    n = 40 ∧ (ipv6Decode s l.ops.bufBase l.ops.bufLen).outcome = .ok h

/-- Every way a command can end: OK or an error, with its reads of unwritten bytes noted. -/
inductive CommandEnd (s : State) (l : Latch) (i : Instr) : Answer → Prop where
  /-- OK, decoded-header registers unchanged. -/
  | keep (hi : ¬ IsDecode i) (hc : i ≠ .clear) (u : State) (hu : Noted s u) (q : Bool) (a b : Word) :
      CommandEnd s l i (.next (u.finish q a b))
  /-- CLEAR. -/
  | drop (hi : i = .clear) : CommandEnd s l i (.next ((s.setHdr Header.zero).finish false 0 0))
  /-- A successful decode. -/
  | decoded (hi : IsDecode i) (n : Nat) (h : Header) (hd : DecodedFrom s l n h) :
      CommandEnd s l i (.next (((s.noteReads l.ops.bufBase.toNat n).setHdr h).finish false 0 0))
  /-- An error of a command that does not decode. -/
  | error (hi : ¬ IsDecode i) (hc : i ≠ .clear) (e : Failure) (he : e.code ≠ .ok) (hu : e.uver = 0)
      (hn : e.code ≠ .unsupportedVersion) : CommandEnd s l i (.next (s.raise e))
  /-- A failed decode. -/
  | failed (hi : IsDecode i) (u : State) (hu : Noted s u) (e : Failure) (he : e.code ≠ .ok)
      (hv : e.code ≠ .unsupportedVersion → e.uver = 0) :
      CommandEnd s l i (.next ((u.setHdr Header.zero).raise e))

/-- Every command ends in a next state. -/
theorem CommandEnd.next {s : State} {l : Latch} {i : Instr} {r : Answer} (h : CommandEnd s l i r) : ∃ t, r = .next t := by
  cases h <;> exact ⟨_, rfl⟩

theorem applyDecode_end {s : State} {l : Latch} {i : Instr} {r : DecodeResult} (hi : IsDecode i)
    (hh : ∀ h, r.outcome = .ok h → ∃ n, r = .header n h ∧ DecodedFrom s l n h)
    (hf : ∀ e, r.outcome = .error e → e.code ≠ .ok ∧ (e.code ≠ .unsupportedVersion → e.uver = 0)) :
    CommandEnd s l i (applyDecode s l.ops.bufBase.toNat r) := by
  cases ho : r.outcome with
  | ok h =>
    obtain ⟨n, rfl, hd⟩ := hh h ho
    exact .decoded hi n h hd
  | error e =>
    simp only [applyDecode, finishDecode, ho]
    exact .failed hi _ (noteReads_noted ..) e (hf e ho).1 (hf e ho).2

theorem ckCommand_end {s : State} {l : Latch} {i : Instr} (hl : s.latch = some l) (hi : ¬ IsDecode i)
    (hc : i ≠ .clear) (v : Variant) (q : Bool) : CommandEnd s l i (ckCommand v q s) := by
  unfold ckCommand
  rw [withLatch_some hl]
  split
  · exact .error hi hc _ (by simp [failure]) rfl (by simp [failure])
  split
  · exact .error hi hc _ (by simp [failure]) rfl (by simp [failure])
  split
  · exact .error hi hc _ (by simp [failure]) rfl (by simp [failure])
  · exact .keep hi hc _ (noteReads_noted ..) _ _ _

/-- Every command ends in exactly one completion (rule R250). -/
theorem exec_end {s : State} {l : Latch} (hl : s.latch = some l) (i : Instr) : CommandEnd s l i (exec i s) := by
  cases i
  case nop =>
    simp only [exec, execNop, withLatch_some hl]
    exact .keep (by simp [IsDecode]) (by simp) _ .clean _ _ _
  case pktDecode =>
    simp only [exec, execPktDecode, withLatch_some hl]
    refine applyDecode_end (.inl rfl) (fun h hd => ?_) fun e hd => packetDecode_fail hd
    rcases packetDecode_header hd with ⟨hp, h4⟩ | ⟨hp, h6⟩
    · exact ⟨_, hp, .inl ⟨rfl, h4⟩⟩
    · exact ⟨_, hp, .inr ⟨rfl, h6⟩⟩
  case v4Decode =>
    simp only [exec, execV4Decode, withLatch_some hl]
    refine applyDecode_end (.inr (.inl rfl)) (fun h hd => ⟨_, (ipv4Decode_header hd).2.1, .inl ⟨rfl, hd⟩⟩) fun e hd => ?_
    have := ipv4Decode_fail hd
    exact ⟨by rintro h; simp [h] at this, fun _ => this.2⟩
  case v6Decode =>
    simp only [exec, execV6Decode, withLatch_some hl]
    refine applyDecode_end (.inr (.inr rfl)) (fun h hd => ⟨_, (ipv6Decode_header hd).2.1, .inr ⟨rfl, hd⟩⟩) fun e hd => ?_
    have := ipv6Decode_fail hd
    exact ⟨by rintro h; simp [h] at this, fun _ => this.2⟩
  case v4HdrVerify =>
    simp only [exec, execV4HdrVerify, withLatch_some hl]
    split
    · exact .error (by simp [IsDecode]) (by simp) _ (by simp [failure]) rfl (by simp [failure])
    · exact .keep (by simp [IsDecode]) (by simp) _ (noteReads_noted ..) _ _ _
  case optParse =>
    simp only [exec, execOptParse, withLatch_some hl]
    repeat' split
    all_goals first
      | exact .error (by simp [IsDecode]) (by simp) _ (by simp [failure]) rfl (by simp [failure])
      | exact .keep (by simp [IsDecode]) (by simp) _ .clean _ _ _
  case splitNibble =>
    simp only [exec, execSplitNibble, withLatch_some hl]
    exact .keep (by simp [IsDecode]) (by simp) _ .clean _ _ _
  case splitBits =>
    simp only [exec, execSplitBits, withLatch_some hl]
    exact .keep (by simp [IsDecode]) (by simp) _ .clean _ _ _
  case splitFlagsOffset =>
    simp only [exec, execSplitFlagsOffset, withLatch_some hl]
    exact .keep (by simp [IsDecode]) (by simp) _ .clean _ _ _
  case ckV4Compute => exact ckCommand_end hl (by simp [IsDecode]) (by simp) _ _
  case ckV6Compute => exact ckCommand_end hl (by simp [IsDecode]) (by simp) _ _
  case ckIcmpv6Compute => exact ckCommand_end hl (by simp [IsDecode]) (by simp) _ _
  case ckV4Verify => exact ckCommand_end hl (by simp [IsDecode]) (by simp) _ _
  case ckV6Verify => exact ckCommand_end hl (by simp [IsDecode]) (by simp) _ _
  case ckIcmpv6Verify => exact ckCommand_end hl (by simp [IsDecode]) (by simp) _ _
  case clear =>
    simp only [exec, execClear, withLatch_some hl]
    exact .drop rfl

/-- With nothing latched every command's body stops, and names the stop. -/
theorem exec_noCommand {s : State} (hl : s.latch = none) (i : Instr) : exec i s = .fault (.noCommand s.time) := by
  cases i <;>
    simp [exec, execNop, execPktDecode, execV4Decode, execV6Decode, execV4HdrVerify, execOptParse, execSplitNibble,
      execSplitBits, execSplitFlagsOffset, execCkV4Compute, execCkV6Compute, execCkIcmpv6Compute, execCkV4Verify,
      execCkV6Verify, execCkIcmpv6Verify, execClear, ckCommand, withLatch_none hl]

theorem execIllegal_some {s : State} {l : Latch} (hl : s.latch = some l) :
    execIllegal s = .next (s.raise (failure .badCommand 0 l.word 0)) := by
  simp [execIllegal, withLatch_some hl]

end Sys2Proof.Machine
end

