-- ==== Sys2Proof/Laws/PerInstr.lean ====
section
/-! SUPPORT. What holds of every command as syntax, one lemma per constructor (rules R110, R114). -/

/-- The family `OpcodeMap`: the command is well formed, its word is `0x000000OO` with the MBZ field 0, and the opcode
map names exactly it at OO (rules R110, R114). -/
def Sys2Proof.Laws.OpcodeMap.Statement (i : Sys2Proof.Instr) : Prop :=
  i.wf = true ∧ Sys2Proof.mbzField (Sys2Proof.encode i) = 0 ∧
    Sys2Proof.opcodeLookup (Sys2Proof.opcField (Sys2Proof.encode i)) = some i

namespace Sys2Proof.Laws.OpcodeMap

theorem nop : Statement .nop := ⟨rfl, rfl, rfl⟩
theorem pktDecode : Statement .pktDecode := ⟨rfl, rfl, rfl⟩
theorem v4Decode : Statement .v4Decode := ⟨rfl, rfl, rfl⟩
theorem v6Decode : Statement .v6Decode := ⟨rfl, rfl, rfl⟩
theorem v4HdrVerify : Statement .v4HdrVerify := ⟨rfl, rfl, rfl⟩
theorem optParse : Statement .optParse := ⟨rfl, rfl, rfl⟩
theorem splitNibble : Statement .splitNibble := ⟨rfl, rfl, rfl⟩
theorem splitBits : Statement .splitBits := ⟨rfl, rfl, rfl⟩
theorem splitFlagsOffset : Statement .splitFlagsOffset := ⟨rfl, rfl, rfl⟩
theorem ckV4Compute : Statement .ckV4Compute := ⟨rfl, rfl, rfl⟩
theorem ckV6Compute : Statement .ckV6Compute := ⟨rfl, rfl, rfl⟩
theorem ckIcmpv6Compute : Statement .ckIcmpv6Compute := ⟨rfl, rfl, rfl⟩
theorem ckV4Verify : Statement .ckV4Verify := ⟨rfl, rfl, rfl⟩
theorem ckV6Verify : Statement .ckV6Verify := ⟨rfl, rfl, rfl⟩
theorem ckIcmpv6Verify : Statement .ckIcmpv6Verify := ⟨rfl, rfl, rfl⟩
theorem clear : Statement .clear := ⟨rfl, rfl, rfl⟩

end Sys2Proof.Laws.OpcodeMap
end

