-- ==== Sys2Proof/Laws/Step.lean ====
section
/-! SUPPORT. What a step can do: one inversion lemma for `step`. -/

namespace Sys2Proof.Machine

/-- Every way a step can answer a next state. -/
inductive StepCase (s : State) : State → Prop where
  /-- The schedule is used up and nothing is latched. -/
  | idle (ha : s.agenda = []) (hl : s.latch = none) : StepCase s s
  /-- The Engine is scheduled with nothing latched. -/
  | engineIdle (ha : s.agenda.head? = some .engine) (hl : s.latch = none) : StepCase s s.advance
  /-- The Engine runs the latched command. -/
  | engine (l : Latch) (ha : s.agenda.head? = some .engine ∨ s.agenda = []) (hl : s.latch = some l) (t : State)
      (ht : engineStep s.advance = .next t) : StepCase s t
  /-- Reset. -/
  | reset (ha : s.agenda.head? = some .reset) : StepCase s s.advance.afterReset
  | regRead (b : BusAccess) (ha : s.agenda.head? = some (.access b)) (off : Nat)
      (hr : route s.cfg b.addr = some (.reg, off)) (hw : b.width = 4) (ho : b.op = .read) :
      StepCase s (s.advance.regRead off)
  | regWrite (b : BusAccess) (ha : s.agenda.head? = some (.access b)) (off : Nat) (v : Word)
      (hr : route s.cfg b.addr = some (.reg, off)) (hw : b.width = 4) (ho : b.op = .write v) :
      StepCase s (s.advance.regWrite off v)
  | bufRead (b : BusAccess) (ha : s.agenda.head? = some (.access b)) (a : Nat)
      (hr : route s.cfg b.addr = some (.buf, a)) (hw : b.width = 1) (ho : b.op = .read) :
      StepCase s (s.advance.bufRead a)
  | bufWrite (b : BusAccess) (ha : s.agenda.head? = some (.access b)) (a : Nat) (v : Word)
      (hr : route s.cfg b.addr = some (.buf, a)) (hw : b.width = 1) (ho : b.op = .write v) :
      StepCase s (s.advance.bufWrite a (v.extractLsb' 0 8))

theorem step_nil {s : State} (h : s.agenda = []) :
    step s = if s.busy then engineStep s.advance else .next s := by
  simp [step, nextStep, h]

theorem step_cons {s : State} {e : Event} {rest : List Event} (h : s.agenda = e :: rest) :
    step s = runEvent e s.advance := by
  simp [step, nextStep, h]

theorem engineStep_some {s : State} {l : Latch} (hl : s.latch = some l) :
    engineStep s = match decode l.word with
      | .ok i => exec i s
      | .error _ => execIllegal s := by
  cases hd : decode l.word <;> simp [engineStep, hl, hd]

theorem step_cases {s t : State} (h : step s = .next t) : StepCase s t := by
  cases ha : s.agenda with
  | nil =>
    rw [step_nil ha] at h
    cases hl : s.latch with
    | none => simp [State.busy, hl] at h; exact h ▸ .idle ha hl
    | some l => simp [State.busy, hl] at h; exact .engine l (.inr ha) hl t h
  | cons e rest =>
    rw [step_cons ha] at h
    have hh : s.agenda.head? = some e := by simp [ha]
    cases e with
    | engine =>
      simp only [runEvent] at h
      cases hl : s.latch with
      | none => simp [engineStep, hl] at h; exact h ▸ .engineIdle hh hl
      | some l => exact .engine l (.inl hh) hl t h
    | reset =>
      simp only [runEvent, Host.Outcome.next.injEq] at h
      exact h ▸ .reset hh
    | access b =>
      simp only [runEvent, hostAccess, advance_cfg] at h
      split at h
      · cases h
      · next off hr =>
        split at h
        · next hw =>
          split at h
          · next ho => cases h; exact .regRead b hh off hr hw.1 ho
          · next v ho => cases h; exact .regWrite b hh off v hr hw.1 ho
        · cases h
      · next a hr =>
        split at h
        · next hw =>
          split at h
          · next ho => cases h; exact .bufRead b hh a hr hw ho
          · next v ho => cases h; exact .bufWrite b hh a v hr hw ho
        · cases h

/-- Every way the Engine's step for a latched command can end, reads of unwritten bytes noted. -/
inductive EngineEnd (s : State) (l : Latch) : State → Prop where
  | finish (u : State) (hu : Noted s u) (q : Bool) (a b : Word) : EngineEnd s l (u.finish q a b)
  | error (e : Failure) (he : e.code ≠ .ok) (hv : e.code ≠ .unsupportedVersion → e.uver = 0) :
      EngineEnd s l (s.raise e)
  | drop (hw : decode l.word = .ok .clear) : EngineEnd s l ((s.setHdr Header.zero).finish false 0 0)
  | decoded (i : Instr) (hw : decode l.word = .ok i) (hi : IsDecode i) (n : Nat) (h : Header)
      (hd : DecodedFrom s l n h) :
      EngineEnd s l (((s.noteReads l.ops.bufBase.toNat n).setHdr h).finish false 0 0)
  | failed (i : Instr) (hw : decode l.word = .ok i) (hi : IsDecode i) (u : State) (hu : Noted s u) (e : Failure)
      (he : e.code ≠ .ok) (hv : e.code ≠ .unsupportedVersion → e.uver = 0) :
      EngineEnd s l ((u.setHdr Header.zero).raise e)

theorem engineStep_end {s t : State} {l : Latch} (hl : s.latch = some l) (h : engineStep s = .next t) :
    EngineEnd s l t := by
  rw [engineStep_some hl] at h
  split at h
  · next i hw =>
    have he := exec_end hl i
    rw [h] at he
    cases he with
    | keep hi hc u hu q a b => exact .finish u hu q a b
    | drop hi => exact .drop (hi ▸ hw)
    | decoded hi n g hd => exact .decoded i hw hi n g hd
    | error hi hc e he hu hn => exact .error e he fun _ => hu
    | failed hi u hu e he hv => exact .failed i hw hi u hu e he hv
  · rw [execIllegal_some hl] at h
    cases h
    exact .error _ (by simp [failure]) fun _ => rfl

/-- The Engine's step for a latched command always answers a next state (rules R8, R250). -/
theorem engineStep_next {s : State} {l : Latch} (hl : s.latch = some l) : ∃ t, engineStep s = .next t := by
  rw [engineStep_some hl]
  split
  · exact (exec_end hl _).next
  · exact ⟨_, execIllegal_some hl⟩

end Sys2Proof.Machine
end

