-- ==== Sys2Proof/Tests/Slice0.lean ====
section
/-! SUPPORT. The model's own tests: well-formedness, decoding, one step per command on the vectors of
spec/95_test_vectors.md (each test names its vector), and for every statement with hypotheses a witness that meets them. -/

namespace Sys2Proof.Machine.Tests

/-! ### Helpers -/

/-- Bytes laid out from an address on. -/
def cells (a : Nat) : List Byte → Memory
  | [] => []
  | b :: bs => (a, b) :: cells (a + 1) bs

/-- The reset state with BUF, header, latched word, operands and schedule given. -/
def mk (m : Memory) (h : Header) (w : Word) (o : Operands) (sched : List Event) : State :=
  { State.reset with buf := m, hdr := h, latch := some { word := w, ops := o }, agenda := sched }

/-- The command `i` latched with the operands `o`, the Engine next. -/
def ready (m : Memory) (h : Header) (i : Instr) (o : Operands) : State := mk m h (encode i) o [.engine]

/-- Operands that give a datagram window, a segment window, or ARG. -/
def dgram (base len : Word) : Operands := { bufBase := base, bufLen := len, segBase := 0, segLen := 0, arg := 0 }
def seg (base len : Word) : Operands := { bufBase := 0, bufLen := 0, segBase := base, segLen := len, arg := 0 }
def arg (v : Word) : Operands := { bufBase := 0, bufLen := 0, segBase := 0, segLen := 0, arg := v }

/-- The reset state with a schedule. -/
def host (sched : List Event) : State := { State.reset with agenda := sched }

/-- A step answers a next state that `p` holds of. -/
def lands (a : Answer) (p : State → Bool) : Bool :=
  match a with
  | .next t => p t
  | _ => false

/-- A completion with this STATUS word, RES_A, RES_B and the three DIAG registers, the header as `h`. -/
def ends (s : State) (status a b exp act field : Word) (h : Header) : Bool :=
  let res : Results := { resA := a, resB := b, diagExp := exp, diagAct := act, diagField := field }
  lands (step s) fun t => t.statusIdle == status && decide (t.res = res) && decide (t.hdr = h) && !t.busy

/-- Two Host reads or writes and Engine steps in a row. -/
def runs (k : Nat) (s : State) (p : State → Bool) : Bool :=
  match Host.Core.run core k s with
  | .next t => p t
  | _ => false

/-- The next state of an answer, if there is one. -/
def nextOf (a : Answer) : State :=
  match a with
  | .next t => t
  | _ => State.reset

theorem next_of {a : Answer} (h : lands a (fun _ => true) = true) : a = .next (nextOf a) := by
  cases a <;> simp_all [lands, nextOf]

/-! ### The datagrams of 95_test_vectors.md -/

def dV1 : List Byte :=
  [0x45, 0x00, 0x00, 0x14, 0x00, 0x01, 0x40, 0x00, 0x40, 0x06, 0xB6, 0xDF, 0xC0, 0x00, 0x02, 0x01, 0xC0, 0x00, 0x02, 0x02]

def dV3 : List Byte :=
  [0x46, 0x00, 0x00, 0x1C, 0xAB, 0xCD, 0x00, 0x00, 0x40, 0x11, 0xB8, 0x00, 0x0A, 0x00, 0x00, 0x01, 0x0A, 0x00, 0x00, 0x02,
   0x01, 0x01, 0x01, 0x00, 0xDE, 0xAD, 0xBE, 0xEF]

def addrs6 : List Byte :=
  [0x20, 0x01, 0x0D, 0xB8, 0x00, 0x00, 0x00, 0x00, 0x00, 0x00, 0x00, 0x00, 0x00, 0x00, 0x00, 0x01] ++
  [0x20, 0x01, 0x0D, 0xB8, 0x00, 0x00, 0x00, 0x00, 0x00, 0x00, 0x00, 0x00, 0x00, 0x00, 0x00, 0x02]

def segV20 : List Byte := [0x04, 0xD2, 0x16, 0x2E, 0x00, 0x0B, 0x00, 0x00, 0x61, 0x62, 0x63]

def dV20 : List Byte := [0x61, 0x23, 0x45, 0x67, 0x00, 0x0B, 0x11, 0x40] ++ addrs6 ++ segV20

def dV29 : List Byte := [0x60, 0x00, 0x00, 0x00, 0x00, 0x00, 0x3B, 0x01] ++ addrs6

/-- Row V1, "HDR after". -/
def hV1 : Header :=
  { Header.zero with
    kind := 4, hlen := 0x14, version := 4, ihl := 5, totalLen := 0x14, ident := 1, flags := 2, ttl := 0x40, proto := 6,
    cksum := 0xB6DF, src4 := 0xC0000201, dst4 := 0xC0000202, optAddr := 0x14, payAddr := 0x14 }

/-- Row V3, "HDR after". -/
def hV3 : Header :=
  { Header.zero with
    kind := 4, hlen := 0x18, version := 4, ihl := 6, totalLen := 0x1C, ident := 0xABCD, ttl := 0x40, proto := 0x11,
    cksum := 0xB800, src4 := 0x0A000001, dst4 := 0x0A000002, optAddr := 0x14, optLen := 4, payAddr := 0x18, payLen := 4 }

/-- Row V20, "HDR after". -/
def hV20 : Header :=
  { Header.zero with
    kind := 6, hlen := 0x28, version := 6, tclass := 0x12, flow := 0x34567, plen6 := 0xB, nextHdr := 0x11,
    hopLimit := 0x40, src60 := 0x20010DB8, src63 := 1, dst60 := 0x20010DB8, dst63 := 2, payAddr := 0x28, payLen := 0xB }

/-- Row V30, the header before CK_ICMPV6_COMPUTE. -/
def hV30 : Header :=
  { hV20 with tclass := 0, flow := 0, plen6 := 8, nextHdr := 0x3A, hopLimit := 0xFF, payLen := 8 }

/-- The TCP segment of X4, its checksum field at 16 and 17 holding `c`, `d`. -/
def segX4 (c d : Byte) : List Byte :=
  [0x30, 0x39, 0x00, 0x50, 0x00, 0x00, 0x00, 0x01, 0x00, 0x00, 0x00, 0x00, 0x50, 0x02, 0xFF, 0xFF, c, d, 0x00, 0x00]

/-- The header of X4, as far as the checksum commands read it. -/
def hX4 : Header := { hV1 with totalLen := 0x28, ident := 0x1234, cksum := 0xA498, payLen := 0x14 }

/-- The ICMPv6 segment of V30, its checksum field holding `c`, `d`. -/
def segV30 (c d : Byte) : List Byte := [0x80, 0x00, c, d, 0x00, 0x01, 0x00, 0x02]

/-! ### Well-formedness: ill-formed parameters, one for each check -/

theorem test_wf_reference : Config.reference.wf = true := by decide
theorem test_wf_bounds : ({ Config.reference with bufSize := 1 } : Config).wf = true ∧
    ({ bufSize := 2 ^ 32 - 1, regBase := 0x10000000, bufHostBase := 0x10000100 } : Config).wf = true := by decide
theorem test_wf_refuses_empty_buf : ({ Config.reference with bufSize := 0 } : Config).wf = false := by decide
theorem test_wf_refuses_large_buf : ({ Config.reference with bufSize := 2 ^ 32 } : Config).wf = false := by decide
theorem test_wf_refuses_overlap : ({ Config.reference with bufHostBase := 0x100000FF } : Config).wf = false := by decide

/-! ### Decoding: the word of each command, from rule R114, and the illegal words of V84 to V88 -/

theorem test_decode_nop : decode 0x00000000#32 = .ok .nop := by decide
theorem test_decode_pktDecode : decode 0x00000001#32 = .ok .pktDecode := by decide
theorem test_decode_v4Decode : decode 0x00000002#32 = .ok .v4Decode := by decide
theorem test_decode_v6Decode : decode 0x00000003#32 = .ok .v6Decode := by decide
theorem test_decode_v4HdrVerify : decode 0x00000004#32 = .ok .v4HdrVerify := by decide
theorem test_decode_optParse : decode 0x00000005#32 = .ok .optParse := by decide
theorem test_decode_splitNibble : decode 0x00000008#32 = .ok .splitNibble := by decide
theorem test_decode_splitBits : decode 0x00000009#32 = .ok .splitBits := by decide
theorem test_decode_splitFlagsOffset : decode 0x0000000A#32 = .ok .splitFlagsOffset := by decide
theorem test_decode_ckV4Compute : decode 0x00000010#32 = .ok .ckV4Compute := by decide
theorem test_decode_ckV6Compute : decode 0x00000011#32 = .ok .ckV6Compute := by decide
theorem test_decode_ckIcmpv6Compute : decode 0x00000012#32 = .ok .ckIcmpv6Compute := by decide
theorem test_decode_ckV4Verify : decode 0x00000018#32 = .ok .ckV4Verify := by decide
theorem test_decode_ckV6Verify : decode 0x00000019#32 = .ok .ckV6Verify := by decide
theorem test_decode_ckIcmpv6Verify : decode 0x0000001A#32 = .ok .ckIcmpv6Verify := by decide
theorem test_decode_clear : decode 0x0000003F#32 = .ok .clear := by decide
theorem test_decode_illegal : decode 0x06#32 = .error .reservedOpc ∧ decode 0xFF#32 = .error .reservedOpc ∧
    decode 0x101#32 = .error .mbzNotZero ∧ decode 0x80000001#32 = .error .mbzNotZero := by decide
theorem test_decodeTableWord : decodeTableWord 32 0x1A = some .ckIcmpv6Verify ∧ decodeTableWord 32 0x40 = none := by decide

/-! ### One step per command -/

/-- The word the host hands over runs as the first step after reset. -/
theorem test_withFetchWord : lands (step (State.reset.withFetchWord 32 0x3F)) (fun t => t.statusIdle == 2#32) = true := by
  decide

/-- V81: NOP overwrites stale results and keeps the header. -/
theorem test_nop : ends { ready [] hV1 .nop (arg 0) with res := { State.reset.res with resA := 0xB6DF, resB := 0x4920 } } 0x2
    0 0 0 0 0 hV1 = true := by decide
/-- V82. -/
theorem test_clear : ends (ready [] hV1 .clear (arg 0)) 0x2 0 0 0 0 0 Header.zero = true := by decide
/-- V84 and V86. -/
theorem test_illegal_reserved : ends (mk [] hV1 0x06 (arg 0) [.engine]) 0x1206 0 0 0 6 0 hV1 = true := by decide
theorem test_illegal_mbz : ends (mk [] hV1 0x101 (arg 0) [.engine]) 0x1206 0 0 0 0x101 0 hV1 = true := by decide

/-- V54. -/
theorem test_splitNibble : ends (ready [] hV1 .splitNibble (arg 0xFFFFFF45)) 0x2 4 5 0 0 0 hV1 = true := by decide
/-- V56 and V59. -/
theorem test_splitBits : ends (ready [] hV1 .splitBits (arg 0x2B9)) 0x2 0x2E 1 0 0 0 hV1 = true := by decide
theorem test_splitBits_15 : ends (ready [] hV1 .splitBits (arg 0xFB9)) 0x2 0 0xB9 0 0 0 hV1 = true := by decide
/-- V68 and V71. -/
theorem test_splitFlagsOffset : ends (ready [] hV1 .splitFlagsOffset (arg 0xFFFF)) 0x2 7 0x1FFF 0 0 0 hV1 = true := by decide
theorem test_splitFlagsOffset_high : ends (ready [] hV1 .splitFlagsOffset (arg 0xABCD4000)) 0x2 2 0 0 0 0 hV1 = true := by
  decide

/-- V74h and V75c. -/
theorem test_optParse : ends (ready [] hV1 .optParse { dgram 0x100 0x28 with arg := 0x1F }) 0x2 0x100 0x28 0 0 0 hV1 = true := by
  decide
theorem test_optParse_range : ends (ready [] hV1 .optParse { dgram 0x20000 1 with arg := 3 }) 0x1106 0 0 0 0 0 hV1 = true := by
  decide

/-- V3 and V13. -/
theorem test_v4Decode : ends (ready (cells 0 dV3) hV20 .v4Decode (dgram 0 0x1C)) 0x2 0 0 0 0 0 hV3 = true := by decide
theorem test_v4Decode_length : ends (ready (cells 0 dV1) hV20 .v4Decode (dgram 0 0x11170)) 0x406 0 0 0x14 0x11170 2
    Header.zero = true := by decide
/-- V20 and V28. -/
theorem test_v6Decode : ends (ready (cells 0 dV20) hV1 .v6Decode (dgram 0 0x33)) 0x2 0 0 0 0 0 hV20 = true := by decide
theorem test_v6Decode_length : ends (ready (cells 0 (dV20.take 50)) hV1 .v6Decode (dgram 0 0x32)) 0x406 0 0 0x33 0x32 4
    Header.zero = true := by decide
/-- V40 and V43. -/
theorem test_pktDecode : ends (ready (cells 0 dV1) hV20 .pktDecode (dgram 0 0x14)) 0x2 0 0 0 0 0 hV1 = true := by decide
theorem test_pktDecode_unsupported : ends (ready (cells 0 [0xF0]) hV1 .pktDecode (dgram 0 0x14)) 0x000F0306 0 0 0 0xF 0
    Header.zero = true := by decide
/-- V3h (24 bytes summed) and V5b (the strict comparison of 0xFFFF with 0). -/
theorem test_v4HdrVerify : ends (ready (cells 0 dV3) hV3 .v4HdrVerify (arg 0)) 0xA 0xB800 0x47FF 0 0 0 hV3 = true := by decide
theorem test_v4HdrVerify_strict :
    ends (ready (cells 0 (((dV1.set 4 0xB6).set 5 0xE0).set 10 0xFF |>.set 11 0xFF)) { hV1 with cksum := 0xFFFF }
      .v4HdrVerify (arg 0)) 0x2 0 0xFFFF 0 0 0 { hV1 with cksum := 0xFFFF } = true := by decide

/-- X4, and V16. -/
theorem test_ckV4Compute : ends (ready (cells 0x14 (segX4 0 0)) hX4 .ckV4Compute (seg 0x14 0x14)) 0x2 0xFB54 0x04AB 0 0 0
    hX4 = true := by decide
theorem test_ckV4Compute_long : ends (ready [] hX4 .ckV4Compute (seg 0 0x10000)) 0x1406 0 0 0xFFFF 0x10000 0 hX4 = true := by
  decide
/-- X4 after the insertion, and before it. -/
theorem test_ckV4Verify : ends (ready (cells 0x14 (segX4 0xFB 0x54)) hX4 .ckV4Verify (seg 0x14 0x14)) 0xA 0 0xFFFF 0 0 0
    hX4 = true := by decide
theorem test_ckV4Verify_zero : ends (ready (cells 0x14 (segX4 0 0)) hX4 .ckV4Verify (seg 0x14 0x14)) 0x2 0xFB54 0x04AB 0 0 0
    hX4 = true := by decide
/-- V21 (odd length), and V15c. -/
theorem test_ckV6Compute : ends (ready (cells 0x28 segV20) hV20 .ckV6Compute (seg 0x28 0xB)) 0x2 0xC500 0x3AFF 0 0 0
    hV20 = true := by decide
theorem test_ckV6Compute_noHeader : ends (ready [] Header.zero .ckV6Compute (seg 0 0)) 0x1306 0 0 0 0 0 Header.zero = true := by
  decide
/-- V23. -/
theorem test_ckV6Verify : ends (ready (cells 0x28 ((segV20.set 6 0xC5).set 7 0)) hV20 .ckV6Verify (seg 0x28 0xB)) 0xA 0 0xFFFF
    0 0 0 hV20 = true := by decide
/-- V25 (58 whatever HDR_NEXT_HDR holds), and V30. -/
theorem test_ckIcmpv6Compute_udp : ends (ready (cells 0x28 segV20) hV20 .ckIcmpv6Compute (seg 0x28 0xB)) 0x2 0xC4D7 0x3B28
    0 0 0 hV20 = true := by decide
theorem test_ckIcmpv6Compute : ends (ready (cells 0x28 (segV30 0 0)) hV30 .ckIcmpv6Compute (seg 0x28 8)) 0x2 0x2445 0xDBBA
    0 0 0 hV30 = true := by decide
/-- V31 and V33d (the stored 0xFFFF verifies). -/
theorem test_ckIcmpv6Verify : ends (ready (cells 0x28 (segV30 0x24 0x45)) hV30 .ckIcmpv6Verify (seg 0x28 8)) 0xA 0 0xFFFF
    0 0 0 hV30 = true := by decide
theorem test_ckIcmpv6Verify_ffff : ends (ready (cells 0x28 [0x80, 0x00, 0xFF, 0xFF, 0x00, 0x01, 0x24, 0x47]) hV30
    .ckIcmpv6Verify (seg 0x28 8)) 0xA 0 0xFFFF 0 0 0 hV30 = true := by decide

/-! ### The Host interface, hazards and reset -/

/-- V90, both schedules. -/
theorem test_V90_taken : runs 4 (host [hostCmd Config.reference .nop, .engine, hostCmd Config.reference .clear, .engine])
    (fun t => t.statusIdle == 0x2#32) = true := by decide
theorem test_V90_dropped : runs 3 (host [hostCmd Config.reference .nop, hostCmd Config.reference .clear, .engine])
    (fun t => t.statusIdle == 0x12#32) = true := by decide
/-- V91: the snapshot. -/
theorem test_V91 : runs 4 (host [hostWr Config.reference .arg 0x45, hostCmd Config.reference .splitNibble,
    hostWr Config.reference .arg 0x99, .engine])
    (fun t => t.res.resA == 4#32 && t.res.resB == 5#32 && t.ops.arg == 0x99#32) = true := by decide
/-- V92 schedule A and V93: the two mutation faults, each with its step. -/
theorem test_V92 : lands (step (mk (cells 0 dV1) Header.zero 0x01 (dgram 0 0x14) [hostSb Config.reference 0x05 0]))
    (fun t => decide (t.faults = [.busyMutation 1])) = true := by decide
theorem test_V93 : runs 2 { State.reset with
      buf := cells 0 dV1
      hdr := hV1
      agenda := [hostSb Config.reference 0x14 0x00, hostSb Config.reference 0x05 0x00] }
    (fun t => decide (t.faults = [.viewMutation 2]) && decide (t.readByte 0x14 = some 0)) = true := by decide
/-- V94: a read of an unwritten byte is recorded, the Host's and the Engine's. -/
theorem test_V94_host : lands (step (host [hostLb Config.reference 0])) (fun t => decide (t.faults = [.uninitRead 1])) = true := by
  decide
theorem test_V94_engine :
    ∃ t, step (ready [] Header.zero .v4Decode (dgram 0 0x14)) = .next t ∧ t.faults = [.uninitRead 1] := by
  let s := (ready [] Header.zero .v4Decode (dgram 0 0x14)).advance
  have h : 1 ≤ (ipv4Decode s 0#32 0x14#32).reads := ipv4Decode_reads_pos (by decide) (by decide)
  have hn : s.noteReads 0 (ipv4Decode s 0#32 0x14#32).reads = s.uninitNoted :=
    noteReads_unwritten (readBytes_eq_none.2 ⟨0, h, rfl⟩)
  refine ⟨finishDecode (s.noteReads 0 (ipv4Decode s 0#32 0x14#32).reads) (ipv4Decode s 0#32 0x14#32).outcome, rfl, ?_⟩
  rw [hn]
  cases (ipv4Decode s 0#32 0x14#32).outcome <;> rfl
/-- Rule R290: with the datagram's last byte unwritten the Engine's fault is recorded, and a reset and a Host read still run. -/
theorem test_R290_goes_on : runs 3 (mk (cells 0 (dV1.take 19)) Header.zero 0x02 (dgram 0 0x14) [.engine, .reset,
    hostLb Config.reference 0]) (fun t => decide (t.faults = [.uninitRead 1, .uninitRead 3])) = true := by decide
/-- V95. -/
theorem test_V95 : lands (step { mk (cells 0 dV1) hV1 0x01 (dgram 0 0x14) [.reset] with ops := dgram 0 0x14 })
    (fun t => t.statusIdle == 0#32 && decide (t.hdr = Header.zero) && t.ops.bufLen == 0#32 && !t.busy &&
      decide (t.readByte 0 = none)) = true := by decide
/-- V96. -/
theorem test_V96 : runs 4 (host [hostCmd Config.reference .nop, .engine, hostWr Config.reference .status 0xFFFFFFFD,
    hostRd Config.reference .status]) (fun t => decide (t.lastRead = .word 0x2)) = true := by decide
/-- V97. -/
theorem test_V97 : runs 4 (host [hostWr Config.reference .ctrl 0xFFFFFFFF, hostCmd Config.reference .nop, .engine,
    hostRd Config.reference .ctrl]) (fun t => t.irq && decide (t.lastRead = .word 1)) = true := by decide
/-- V98: IDR, and a reserved offset. -/
theorem test_V98_idr : lands (step (host [.access { addr := 0x10000034, width := 4, op := .read }]))
    (fun t => decide (t.lastRead = .word 0x49504801)) = true := by decide
theorem test_V98_reserved : lands (step (host [.access { addr := 0x100000C4, width := 4, op := .read }]))
    (fun t => decide (t.lastRead = .word 0)) = true := by decide
/-- V99: the refused accesses. -/
theorem test_V99_register : step (host [.access { addr := 0x10000006, width := 4, op := .read }]) = .refused .regAccessForm ∧
    step (host [.access { addr := 0x10000004, width := 2, op := .write 0 }]) = .refused .regAccessForm := ⟨rfl, rfl⟩
theorem test_V99_buf : step (host [.access { addr := 0x20000000, width := 2, op := .read }]) = .refused .bufAccessWidth ∧
    step (host [.access { addr := 0x20020000, width := 1, op := .read }]) = .refused .noSuchAddress := ⟨rfl, rfl⟩
/-- V99b: while BUSY the handshake bits read as they are. -/
theorem test_V99b (f : Word) : (mk [] Header.zero 0 (arg 0) []).statusBusy f &&& 0xFFF000F3 = 0x1 := by
  simp only [State.statusBusy, statusLayout]
  generalize f.extractLsb' 16 4 = u
  generalize f.extractLsb' 8 8 = c
  generalize f.getLsbD 3 = p
  generalize f.getLsbD 2 = q
  revert u c p q
  decide

/-! ### Witnesses: for every statement with hypotheses, a state and operands that meet all of them together, one theorem or one
conjunct per clause, at a boundary of its range -/

/-- The reference parameters. -/
abbrev cR : Config := Config.reference

/-- A latched command that waits for the Engine's turn while the Host moves first. -/
def busyHost (e : Event) : State := mk (cells 0 dV1) hV1 0x00 (dgram 0 0x14) [e]

theorem wit_DecodeOfEncode : Instr.clear.wf = true := by decide

theorem wit_EveryWordNamesOneCommandOrIsIllegal :
    2 ^ 8 ≤ (0x100#32).toNat ∧ 2 ^ 8 ≤ (0xFFFFFFFF#32).toNat ∧ (0xFF#32).toNat < 2 ^ 8 ∧
      (0xFF#32).toNat ∉ [0x00, 0x01, 0x02, 0x03, 0x04, 0x05, 0x08, 0x09, 0x0A, 0x10, 0x11, 0x12, 0x18, 0x19, 0x1A, 0x3F] := by
  decide

theorem wit_StepRunsTheDecodedCommand :
    let s := ready [] hV1 .clear (arg 0)
    let s' := { s with agenda := [] }
    s.latch = some { word := 0x3F, ops := arg 0 } ∧ decode 0x3F = .ok .clear ∧ s.agenda = .engine :: [] ∧
      s'.latch = s.latch ∧ s'.agenda = [] := by decide

theorem wit_IllegalWordCompletesBadCommand :
    let s := mk [] hV1 0x101 (arg 0) [.engine]
    s.latch = some { word := 0x101, ops := arg 0 } ∧ decode 0x101 = .error .mbzNotZero ∧ s.agenda = .engine :: [] := by decide

/-- A command that reads nothing, and one whose bytes are all unwritten. -/
theorem wit_EngineStepCompletesAndRecordsFaults :
    (ready [] hV1 .nop (arg 0)).latch = some { word := 0, ops := arg 0 } ∧
      (ready [] hV1 .v4Decode (dgram 0 0x14)).latch = some { word := 2, ops := dgram 0 0x14 } := by decide

theorem wit_ScheduleEndCompletesThenIdles :
    State.reset.agenda = [] ∧ State.reset.busy = false ∧
      (mk [] hV1 0x00 (arg 0) []).agenda = [] ∧ (mk [] hV1 0x00 (arg 0) []).busy = true := by decide

theorem wit_CommandFrame :
    exec .nop (ready [] hV1 .nop (arg 0)) = .next (nextOf (exec .nop (ready [] hV1 .nop (arg 0)))) ∧
      Instr.nop ∉ [Instr.pktDecode, .v4Decode, .v6Decode, .clear] := ⟨next_of (by decide), by decide⟩

theorem wit_CommandWriteLatchesOrOverruns :
    (host [hostWr cR .cmd 0xFFFFFFFF]).agenda = hostWr State.reset.cfg .cmd 0xFFFFFFFF :: [] ∧
      (host [hostWr cR .cmd 0xFFFFFFFF]).latch = none ∧
      (busyHost (hostWr cR .cmd 0)).agenda = hostWr State.reset.cfg .cmd 0 :: [] ∧
      (busyHost (hostWr cR .cmd 0)).latch ≠ none ∧
      (host [hostRd cR .cmd]).agenda = hostRd State.reset.cfg .cmd :: [] := by decide

theorem wit_StatusWriteClearsDoneAndOverrun :
    (busyHost (hostWr cR .status 0x12)).agenda = hostWr State.reset.cfg .status 0x12 :: [] := by decide

theorem wit_OverrunIsSticky :
    let s := { host [hostAck cR] with status := { State.reset.status with ovr := true } }
    step s = .next (nextOf (step s)) ∧ s.status.ovr = true ∧ (nextOf (step s)).status.ovr = false :=
  ⟨next_of (by decide), by decide, by decide⟩

theorem wit_OperandWritesStore : ∀ r ∈ [Reg.ctrl, .bufBase, .bufLen, .segBase, .segLen, .arg],
    (host [hostWr cR r 0xFFFFFFFF]).agenda = hostWr State.reset.cfg r 0xFFFFFFFF :: [] := by decide

theorem wit_ReadOnlyAndReservedWritesAreIgnored : ∀ off ∈ [0x020, 0x034, 0x0FC],
    0x020 ≤ off ∧ off < 0x100 ∧ off % 4 = 0 ∧
      (host [.access { addr := 0x10000000 + off, width := 4, op := .write 7 }]).agenda =
        .access { addr := State.reset.cfg.regBase + off, width := 4, op := .write 7 } :: [] := by decide

theorem wit_CommandsReadTheSnapshot :
    let s := ready [] hV1 .nop (arg 0)
    exec .nop s = .next (nextOf (exec .nop s)) := next_of (by decide)

theorem wit_IdleReadsFollowTheRegisterMap : State.reset.busy = false ∧
    (∀ off ∈ [0x000, 0x0FC], (host [.access { addr := 0x10000000 + off, width := 4, op := .read }]).agenda =
      .access { addr := State.reset.cfg.regBase + off, width := 4, op := .read } :: []) := by decide

theorem wit_BusyReadsKeepTheHandshake : ∀ r ∈ [Reg.status, .ctrl, .bufBase, .arg, .idr, .resA, .hdrKind, .hdrDst63],
    (busyHost (hostRd cR r)).busy = true ∧ (busyHost (hostRd cR r)).agenda = hostRd State.reset.cfg r :: [] := by decide

theorem wit_AccessesOfAnotherFormAreRefused : cR.wf = true ∧
    (∀ b ∈ [({ addr := 0x10000000, width := 1, op := .read } : BusAccess), { addr := 0x100000FF, width := 4, op := .read }],
      cR.regBase ≤ b.addr ∧ b.addr < cR.regBase + 0x100 ∧ (b.width ≠ 4 ∨ (b.addr - cR.regBase) % 4 ≠ 0)) ∧
    (∀ b ∈ [({ addr := 0x20000000, width := 4, op := .read } : BusAccess), { addr := 0x2001FFFF, width := 2, op := .write 0 }],
      cR.bufHostBase ≤ b.addr ∧ b.addr < cR.bufHostBase + cR.bufSize ∧ b.width ≠ 1) ∧
    (∀ a ∈ [0x0FFFFFFF, 0x10000100, 0x1FFFFFFF, 0x20020000],
      (a < cR.regBase ∨ cR.regBase + 0x100 ≤ a) ∧ (a < cR.bufHostBase ∨ cR.bufHostBase + cR.bufSize ≤ a)) := by decide

theorem wit_InterruptFollowsDone :
    exec .nop (ready [] hV1 .nop (arg 0)) = .next (nextOf (exec .nop (ready [] hV1 .nop (arg 0)))) ∧
      step (host [hostAck cR]) = .next (nextOf (step (host [hostAck cR]))) ∧
      step (host [hostWr cR .cmd 0]) = .next (nextOf (step (host [hostWr cR .cmd 0]))) ∧
      (host [hostWr cR .cmd 0]).busy = false := ⟨next_of (by decide), next_of (by decide), next_of (by decide), by decide⟩

theorem wit_HostByteWriteStores : cR.wf = true ∧ (∀ a ∈ [0, 0x1FFFF], a < cR.bufSize ∧ (host [hostSb cR a 7]).busy = false ∧
      (host [hostSb cR a 7]).agenda = hostSb State.reset.cfg a 7 :: [] ∧ State.reset.hdr.kind = 0) ∧
    hV1.kind ≠ 0 ∧ hV1.payAddr.toNat + hV1.payLen.toNat ≤ 0x14 ∧ 0x14 < cR.bufSize := by decide

theorem wit_HostByteWriteFaultsAreRecorded : cR.wf = true ∧ (busyHost (hostSb cR 0x1FFFF 7)).busy = true ∧
    (busyHost (hostSb cR 0x1FFFF 7)).agenda = hostSb State.reset.cfg 0x1FFFF 7 :: [] ∧ 0x1FFFF < cR.bufSize ∧
    (∀ a ∈ [0, 0x13], (busyHost (hostSb cR a 7)).hdr.kind ≠ 0 ∧ hV1.base.toNat ≤ a ∧
      a < hV1.payAddr.toNat + hV1.payLen.toNat) := by decide

theorem wit_HostByteReadReturnsOrFaults : (busyHost (hostLb cR 0)).agenda = hostLb State.reset.cfg 0 :: [] ∧
    (busyHost (hostLb cR 0)).readByte 0 = some 0x45 ∧ (busyHost (hostLb cR 0x1FFFF)).readByte 0x1FFFF = none ∧
    0x1FFFF < cR.bufSize := by decide

theorem wit_FaultRecordOnlyGrows : step (busyHost (hostSb cR 0 7)) = .next (nextOf (step (busyHost (hostSb cR 0 7)))) :=
  next_of (by decide)

theorem wit_OnlyHostWritesAndResetChangeBuf :
    step (host [hostSb cR 0 7]) = .next (nextOf (step (host [hostSb cR 0 7]))) ∧
      (nextOf (step (host [hostSb cR 0 7]))).readByte 0 ≠ (host [hostSb cR 0 7]).readByte 0 := ⟨next_of (by decide), by decide⟩

/-- For the split commands, NOP, CLEAR and OPT_PARSE the one hypothesis is a latched command (OPT_PARSE names its numbers). -/
theorem wit_latched : ∀ i ∈ [Instr.splitNibble, .splitBits, .splitFlagsOffset, .nop, .clear, .optParse],
    (ready [] hV1 i (arg 0xFB9)).latch = some { word := encode i, ops := arg 0xFB9 } ∧
      (arg 0xFB9).arg.toNat % 16 = 9 := by decide

theorem wit_SplitResultsRecombine : ∀ i ∈ [Instr.splitNibble, .splitBits, .splitFlagsOffset],
    (ready [] hV1 i (arg 0xFB9)).latch = some { word := encode i, ops := arg 0xFB9 } ∧
      lands (exec i (ready [] hV1 i (arg 0xFB9))) (fun _ => true) = true := by decide

/-- The bytes of D_V1, D_V3 and D_V29 as functions. -/
def bV1 (i : Nat) : Byte := dV1.getD i 0
def bV3 (i : Nat) : Byte := dV3.getD i 0
def bV29 (i : Nat) : Byte := dV29.getD i 0

/-- IHL 5 at the least length, and IHL 6 with options and payload. -/
theorem wit_V4DecodeWritesTheHeader :
    HoldsV4Datagram (ready (cells 0 dV1) hV20 .v4Decode (dgram 0 0x14)) { word := 2, ops := dgram 0 0x14 } bV1 ∧
      HoldsV4Datagram (ready (cells 0 dV3) hV20 .v4Decode (dgram 0 0x1C)) { word := 2, ops := dgram 0 0x1C } bV3 :=
  ⟨⟨by decide, by decide, by decide, by decide, by decide, by decide, by decide⟩,
   ⟨by decide, by decide, by decide, by decide, by decide, by decide, by decide⟩⟩

theorem wit_V6DecodeWritesTheHeader :
    HoldsV6Datagram (ready (cells 0 dV29) hV1 .v6Decode (dgram 0 0x28)) { word := 3, ops := dgram 0 0x28 } bV29 :=
  ⟨by decide, by decide, by decide, by decide⟩

/-- The clauses at their boundaries: the window one byte past BUF, 19 bytes, version 6, IHL 4, IHL 6 in 20 bytes, and a
total-length one too large (V7, V8, V9, V11, V12). The operation `bad` is the completion it is told to be. -/
theorem wit_V4DecodeFailuresInOrder :
    cR.bufSize < (0x1FFFF#32).toNat + (2#32).toNat ∧ 0 + 19 ≤ cR.bufSize ∧ 19 < 20 ∧ 0 + 20 ≤ cR.bufSize ∧
    (∀ b0 ∈ [(0x65 : Byte)], (ready (cells 0 (dV1.set 0 b0)) hV1 .v4Decode (dgram 0 0x14)).readByte 0 = some b0 ∧
      b0.toNat / 16 ≠ 4) ∧
    (∀ b0 ∈ [(0x44 : Byte), 0x40], (ready (cells 0 (dV1.set 0 b0)) hV1 .v4Decode (dgram 0 0x14)).readByte 0 = some b0 ∧
      b0.toNat / 16 = 4 ∧ b0.toNat % 16 < 5) ∧
    ((∀ i < 20, (ready (cells 0 (dV1.set 0 0x46)) hV1 .v4Decode (dgram 0 0x14)).readByte (0 + i) =
      some ((dV1.set 0 0x46).getD i 0)) ∧ 5 ≤ (0x46 : Byte).toNat % 16 ∧ 20 < (0x46 : Byte).toNat % 16 * 4) ∧
    ((∀ i < 20, (ready (cells 0 (dV1.set 3 0x15)) hV1 .v4Decode (dgram 0 0x14)).readByte (0 + i) =
      some ((dV1.set 3 0x15).getD i 0)) ∧ (0x45 : Byte).toNat % 16 * 4 ≤ 20 ∧ (0 : Byte).toNat * 256 + (0x15 : Byte).toNat ≠ 20) := by
  decide

/-- As above for IPv6 (V26, V27, V29b). -/
theorem wit_V6DecodeFailuresInOrder :
    cR.bufSize < (0xFFFFFFFF#32).toNat + (2#32).toNat ∧ 0 + 39 ≤ cR.bufSize ∧ 39 < 40 ∧ 0 + 41 ≤ cR.bufSize ∧
    ((ready (cells 0 (dV29.set 0 0x41)) hV1 .v6Decode (dgram 0 0x28)).readByte 0 = some 0x41 ∧ (0x41 : Byte).toNat / 16 ≠ 6) ∧
    ((∀ i < 40, (ready (cells 0 dV29) hV1 .v6Decode (dgram 0 0x29)).readByte (0 + i) = some (bV29 i)) ∧
      (bV29 0).toNat / 16 = 6 ∧ 41 ≠ 40 + ((bV29 4).toNat * 256 + (bV29 5).toNat)) := by decide

/-- An unwritten first byte at the least length of each command, and the last byte of each fixed header unwritten. -/
theorem wit_DecodeOfUnwrittenBytesRecordsTheFault :
    (ready [] hV1 .v4Decode (dgram 0 20)).readByte 0 = none ∧ 0 + 40 ≤ cR.bufSize ∧
    (ready (cells 0 (dV1.take 19)) hV1 .v4Decode (dgram 0 20)).readByte 0 = some 0x45 ∧
    (ready (cells 0 (dV1.take 19)) hV1 .v4Decode (dgram 0 20)).readByte (0 + 19) = none ∧
    (ready (cells 0 (dV29.take 39)) hV1 .v6Decode (dgram 0 40)).readByte 0 = some 0x60 ∧
    (ready (cells 0 (dV29.take 39)) hV1 .v6Decode (dgram 0 40)).readByte (0 + 39) = none := by decide

/-- V49b, V49c, and the nibbles 4, 6, 5 and 15 in a window of one byte. -/
theorem wit_PktDecodeDispatches :
    cR.bufSize < (0xFFFFFFFF#32).toNat + (2#32).toNat ∧ 0x20000 + 0 ≤ cR.bufSize ∧ (0 + 1 ≤ cR.bufSize ∧ 1 ≠ 0) ∧
    (∀ b0 ∈ [(0x45 : Byte), 0x60, 0x5F, 0xF0], (ready (cells 0 [b0]) hV1 .pktDecode (dgram 0 1)).readByte 0 = some b0) ∧
    (0x45 : Byte).toNat / 16 = 4 ∧ (0x60 : Byte).toNat / 16 = 6 ∧ (0x5F : Byte).toNat / 16 ≠ 4 ∧ (0xF0 : Byte).toNat / 16 ≠ 6 ∧
    lands (exec .pktDecode (ready (cells 0 [0xF0]) hV1 .pktDecode (dgram 0 1))) (fun _ => true) = true := by decide

theorem wit_PktDecodeCompletesBothVersions :
    HoldsV4Datagram (ready (cells 0 dV1) hV20 .pktDecode (dgram 0 0x14)) { word := 1, ops := dgram 0 0x14 } bV1 ∧
      HoldsV6Datagram (ready (cells 0 dV29) hV1 .pktDecode (dgram 0 0x28)) { word := 1, ops := dgram 0 0x28 } bV29 :=
  ⟨⟨by decide, by decide, by decide, by decide, by decide, by decide, by decide⟩,
   ⟨by decide, by decide, by decide, by decide⟩⟩

/-- One byte past BUF, for the datagram window and for the segment window under each kind. -/
theorem wit_WindowOutsideBufCompletesRange :
    cR.bufSize < (0x1FFFF#32).toNat + (2#32).toNat ∧ hV1.kind = 4 ∧ hV20.kind = 6 ∧
      (ready [] hV1 .v4Decode (dgram 0x1FFFF 2)).latch = some { word := 2, ops := dgram 0x1FFFF 2 } := by decide

theorem wit_OnlyPktDecodeRaisesUnsupportedVersion :
    let a := exec .pktDecode (ready (cells 0 [0xF0]) hV1 .pktDecode (dgram 0 1))
    a = .next (nextOf a) ∧ (nextOf a).status.code = .unsupportedVersion := ⟨next_of (by decide), by decide⟩

theorem wit_NoPartialHeader :
    let a := exec .v4Decode (ready [] hV1 .v4Decode (dgram 0 19))
    let b := exec .nop (ready [] hV1 .nop (arg 0))
    a = .next (nextOf a) ∧ (nextOf a).status.code ≠ .ok ∧ b = .next (nextOf b) ∧
      Instr.v4Decode ∈ [Instr.pktDecode, .v4Decode, .v6Decode] ∧ Instr.nop ∉ [Instr.pktDecode, .v4Decode, .v6Decode, .clear] :=
  ⟨next_of (by decide), by decide, next_of (by decide), by decide, by decide⟩

/-- The two states differ in their headers and in the byte after the datagram. -/
theorem wit_DecodeDependsOnTheWindowOnly :
    let s := ready (cells 0 dV1) hV1 .v4Decode (dgram 0 0x14)
    let t := ready (cells 0 (dV1 ++ [0xFF])) hV20 .v4Decode (dgram 0 0x14)
    (∀ k < 20, t.readByte (0 + k) = s.readByte (0 + k)) ∧ t.cfg.bufSize = s.cfg.bufSize ∧ t.latch = s.latch ∧
      exec .v4Decode s = .next (nextOf (exec .v4Decode s)) ∧ (nextOf (exec .v4Decode s)).faults = s.faults :=
  ⟨by decide, by decide, by decide, next_of (by decide), by decide⟩

theorem wit_FoldIsTheResidue : 0 < 1 ∧ 0 < 0x10000 := by decide

theorem wit_OddSegmentIsZeroPadded :
    [(1 : Byte), 2].length % 2 = 0 ∧ segV20.length % 2 = 1 ∧ segV20 = segV20.take 10 ++ [0x63] := by decide

theorem wit_PseudoHeaderBytes : ∃ byte : Word → Nat → Byte, (∀ w k, byte w k = BitVec.ofNat 8 (w.toNat / 256 ^ k)) ∧
    ∃ be32 : Word → List Byte, (∀ w, be32 w = [byte w 3, byte w 2, byte w 1, byte w 0]) :=
  ⟨_, fun _ _ => rfl, _, fun _ => rfl⟩

theorem wit_V4HdrVerifyResult :
    let s := ready (cells 0 dV1) hV1 .v4HdrVerify (arg 0)
    s.latch = some { word := 4, ops := arg 0 } ∧ s.hdr.kind = 4 ∧ (dV1.take 10).length = 10 ∧
      s.readBytes s.hdr.base.toNat s.hdr.hlen.toNat = some (dV1.take 10 ++ [0xB6, 0xDF] ++ dV1.drop 12) ∧
      fold (sum16 (dV1.take 10 ++ [0x00, 0x00] ++ dV1.drop 12)) = 0x4920 := by decide

/-- The empty segment at BUF_SIZE (V17e), for each of the six commands. -/
theorem wit_ChecksumResults :
    (∀ i ∈ [Instr.ckV4Compute, .ckV4Verify], ∀ o ∈ [seg 0x20000 0, seg 0x14 0x14],
      let s := ready (cells 0x14 (segX4 0 0)) hX4 i o
      s.latch = some { word := encode i, ops := o } ∧ s.hdr.kind = 4 ∧ o.segBase.toNat + o.segLen.toNat ≤ s.cfg.bufSize ∧
        o.segLen.toNat ≤ 0xFFFF ∧ (s.readBytes o.segBase.toNat o.segLen.toNat).isSome = true) ∧
    (∀ i ∈ [Instr.ckV6Compute, .ckV6Verify, .ckIcmpv6Compute, .ckIcmpv6Verify], ∀ o ∈ [seg 0x20000 0, seg 0x28 0xB],
      let s := ready (cells 0x28 segV20) hV20 i o
      s.latch = some { word := encode i, ops := o } ∧ s.hdr.kind = 6 ∧ o.segBase.toNat + o.segLen.toNat ≤ s.cfg.bufSize ∧
        (s.readBytes o.segBase.toNat o.segLen.toNat).isSome = true) := by decide

theorem wit_SummingUnwrittenBytesRecordsTheFault :
    (let s := ready (cells 0 (dV1.take 19)) hV1 .v4HdrVerify (arg 0)
     s.hdr.kind = 4 ∧ 19 < s.hdr.hlen.toNat ∧ s.readByte (s.hdr.base.toNat + 19) = none) ∧
    (∀ h ∈ [hV1, hV20], let s := ready [] h .ckV4Compute (seg 0x1FFFF 1)
     (h.kind = 4 ∨ h.kind = 6) ∧ 0x1FFFF + 1 ≤ s.cfg.bufSize ∧ 0 < 1 ∧ s.readByte (0x1FFFF + 0) = none) := by decide

theorem wit_WrongKindCompletesNoHeader : hV20.kind ≠ 4 ∧ Header.zero.kind ≠ 4 ∧ hV1.kind ≠ 6 ∧ Header.zero.kind ≠ 6 ∧
    (ready [] hV20 .ckV4Compute (seg 0 0)).latch = some { word := 0x10, ops := seg 0 0 } := by decide

theorem wit_LongIpv4SegmentCompletesSegTooLong :
    let s := ready [] hX4 .ckV4Compute (seg 0 0x10000)
    s.latch = some { word := 0x10, ops := seg 0 0x10000 } ∧ s.hdr.kind = 4 ∧ 0 + 0x10000 ≤ s.cfg.bufSize ∧
      0xFFFF < (0x10000#32).toNat ∧ exec .ckV4Compute s = .next (nextOf (exec .ckV4Compute s)) ∧
      (nextOf (exec .ckV4Compute s)).status.code = .segTooLong :=
  ⟨by decide, by decide, by decide, by decide, next_of (by decide), by decide⟩

theorem wit_ChecksumIgnoresOtherRegisters :
    let s := ready (cells 0x28 segV20) hV20 .ckIcmpv6Compute (seg 0x28 0xB)
    exec .ckIcmpv6Compute s = .next (nextOf (exec .ckIcmpv6Compute s)) ∧
      Instr.ckIcmpv6Compute ∈ [Instr.ckIcmpv6Compute, .ckIcmpv6Verify] := ⟨next_of (by decide), by decide⟩

/-- X4, before and after the insertion of FB 54. -/
theorem wit_ComputedChecksumVerifies :
    let s := ready (cells 0x14 (segX4 0 0)) hX4 .ckV4Compute (seg 0x14 0x14)
    let t := ready (cells 0x14 (segX4 0xFB 0x54)) hX4 .ckV4Verify (seg 0x14 0x14)
    let s' := nextOf (exec .ckV4Compute s)
    s.latch = some { word := 0x10, ops := seg 0x14 0x14 } ∧ t.latch = some { word := 0x18, ops := seg 0x14 0x14 } ∧
      t.hdr = s.hdr ∧ t.cfg = s.cfg ∧ ((segX4 0 0).take 16).length % 2 = 0 ∧
      s.readBytes 0x14 0x14 = some ((segX4 0 0).take 16 ++ [0x00, 0x00] ++ [0x00, 0x00]) ∧
      exec .ckV4Compute s = .next s' ∧ s'.status.code = .ok ∧
      t.readBytes 0x14 0x14 = some ((segX4 0 0).take 16 ++ [BitVec.ofNat 8 (s'.res.resA.toNat / 256),
        BitVec.ofNat 8 s'.res.resA.toNat] ++ [0x00, 0x00]) :=
  ⟨by decide, by decide, by decide, by decide, by decide, by decide, next_of (by decide), by decide, by decide⟩

theorem wit_ResetLeavesTheTable : (busyHost .reset).agenda = .reset :: [] ∧ (busyHost .reset).busy = true := by decide

theorem wit_LatchedCommandEndsByCompletionOrReset :
    step (busyHost .engine) = .next (nextOf (step (busyHost .engine))) ∧
      (busyHost .engine).latch = some { word := 0, ops := dgram 0 0x14 } := ⟨next_of (by decide), by decide⟩

theorem wit_OnlyDecodeClearAndResetChangeTheHeader :
    let s := ready [] hV1 .clear (arg 0)
    step s = .next (nextOf (step s)) ∧ (nextOf (step s)).hdr ≠ s.hdr := ⟨next_of (by decide), by decide⟩

theorem wit_ResetMeetsTheInvariant : cR.wf = true := by decide

/-- The reset state with a Host write next. -/
theorem wit_StepKeepsTheInvariant :
    Inv (host [hostSb cR 0 7]) ∧ LiveViewIntact (host [hostSb cR 0 7]) ∧
      step (host [hostSb cR 0 7]) = .next (nextOf (step (host [hostSb cR 0 7]))) :=
  ⟨⟨by decide, by decide, by decide, .inl rfl, by decide, by decide, by decide, by decide, by decide⟩,
   ⟨fun _ h => absurd h (by decide), fun _ h => absurd h (by decide), fun _ h => absurd h (by decide),
    fun _ h => absurd h (by decide)⟩, next_of (by decide)⟩

theorem hV1_isV4 : hV1.IsV4 0x20000 := by
  refine ⟨?_, ?_, ?_, ?_, ?_, ?_, ?_, ?_, ?_, ?_, ?_, ?_, ?_, ?_, ?_, ?_, ?_, ?_, ?_, ⟨?_, ?_, ?_, ?_, ?_, ?_, ?_, ?_, ?_, ?_, ?_,
    ?_, ?_⟩⟩ <;> decide

/-- A state with D_V1 decoded, the header verify latched and the Engine next. -/
theorem wit_StepKeepsTheLiveViewIntact :
    let s := ready (cells 0 dV1) hV1 .v4HdrVerify (arg 0)
    Inv s ∧ LiveViewIntact s ∧ s.faults = [] ∧ s.hdr.kind = 4 ∧ step s = .next (nextOf (step s)) :=
  ⟨⟨by decide, by decide, by decide, .inr (.inl hV1_isV4), by decide, by decide, by decide, by decide, by decide⟩,
   ⟨fun _ _ => by decide, fun _ _ => by decide, fun _ h => absurd h (by decide), fun _ h => absurd h (by decide)⟩, by decide, by decide, next_of (by decide)⟩

end Sys2Proof.Machine.Tests
end

section
/-! PROOFS. The statements of file 10_state.md: the CMD register (rules R31, R47) and the interrupt output (rules R51,
R266). First, what a step does on a Host access of a named register. -/

namespace Sys2Proof.Machine

/-! ### BUSY and the step's bookkeeping -/

theorem busy_eq_false_iff {s : State} : s.busy = false ↔ s.latch = none := by simp [State.busy]

theorem busy_eq_true_iff {s : State} : s.busy = true ↔ s.latch ≠ none := by
  rw [State.busy, Option.isSome_iff_ne_none]

@[simp] theorem afterEntry_latch (s : State) (rest : List Event) : (afterEntry s rest).latch = s.latch := rfl

theorem advance_eq_afterEntry {s : State} {e : Event} {rest : List Event} (h : s.agenda = e :: rest) :
    s.advance = afterEntry s rest := by
  simp [State.advance, afterEntry, h]

theorem step_access {s : State} {b : BusAccess} {rest : List Event} (h : s.agenda = .access b :: rest) :
    step s = hostAccess b (afterEntry s rest) := by
  rw [step_cons h, advance_eq_afterEntry h, runEvent]

/-! ### A Host access of the register window -/

theorem hostAccess_regWrite (s : State) {off : Nat} (hlt : off < 0x100) (hal : off % 4 = 0) (v : Word) :
    hostAccess { addr := s.cfg.regBase + off, width := 4, op := .write v } s = .next (s.regWrite off v) := by
  simp [hostAccess, route_reg hlt, hal]

theorem hostAccess_regRead (s : State) {off : Nat} (hlt : off < 0x100) (hal : off % 4 = 0) :
    hostAccess { addr := s.cfg.regBase + off, width := 4, op := .read } s = .next (s.regRead off) := by
  simp [hostAccess, route_reg hlt, hal]

@[simp] theorem regWrite_offset (s : State) (r : Reg) (v : Word) : s.regWrite r.offset v = s.writeReg v r := by
  simp [State.regWrite]

/-- The step of the Host program's `wr NAME, v` (rule R124). -/
theorem step_hostWr {s : State} {r : Reg} {v : Word} {rest : List Event} (h : s.agenda = hostWr s.cfg r v :: rest) :
    step s = .next ((afterEntry s rest).writeReg v r) := by
  obtain ⟨hlt, hal⟩ := offset_lt r
  rw [step_access h, ← regWrite_offset]
  exact hostAccess_regWrite (afterEntry s rest) hlt hal v

/-- The step of the Host program's `rd NAME` (rule R124). -/
theorem step_hostRd {s : State} {r : Reg} {rest : List Event} (h : s.agenda = hostRd s.cfg r :: rest) :
    step s = .next ((afterEntry s rest).regRead r.offset) := by
  obtain ⟨hlt, hal⟩ := offset_lt r
  rw [step_access h]
  exact hostAccess_regRead (afterEntry s rest) hlt hal

/-! ### The CMD register -/

theorem writeReg_cmd_idle {s : State} (hl : s.latch = none) (v : Word) : s.writeReg v .cmd = s.latchCommand v := by
  simp [State.writeReg, State.writeCmd, busy_eq_false_iff.2 hl]

theorem writeReg_cmd_busy {s : State} (hl : s.latch ≠ none) (v : Word) :
    s.writeReg v .cmd = { s with status := { s.status with ovr := true } } := by
  simp [State.writeReg, State.writeCmd, busy_eq_true_iff.2 hl]

theorem step_hostWr_cmd_idle {s : State} {v : Word} {rest : List Event} (h : s.agenda = hostWr s.cfg .cmd v :: rest)
    (hl : s.latch = none) : step s = .next ((afterEntry s rest).latchCommand v) := by
  rw [step_hostWr h, writeReg_cmd_idle (by simpa using hl)]

/-- CMD is none of the registers rule R284 leaves open, so a read of it returns 0 while BUSY = 1 too. -/
theorem regRead_cmd (s : State) : s.regRead Reg.cmd.offset = s.reply (.word 0) := by
  have hspec : Reg.unspecifiedWhileBusy .cmd = false := by decide
  simp [State.regRead, hspec, State.regValue]

/-- Settles O9: a CMD access is one step on the register window, and LATCH decides which of the two things a write
does. -/
theorem commandWriteLatchesOrOverruns : Obligations.CommandWriteLatchesOrOverruns := by
  unfold Obligations.CommandWriteLatchesOrOverruns
  refine ⟨fun s v rest h => ⟨fun hl => ?_, fun hl => ?_⟩, fun s rest h => ?_, resetWith_latch _⟩
  · rw [step_hostWr_cmd_idle h hl]
    rfl
  · rw [step_hostWr h, writeReg_cmd_busy (by simpa using hl)]
    rfl
  · rw [step_hostRd h, regRead_cmd]
    rfl

/-! ### The interrupt output -/

theorem irq_eq_true_iff (s : State) : s.irq = true ↔ s.irqEn = true ∧ s.status.done = true := by simp [State.irq]

theorem irq_eq_irqEn_of_done {s : State} (h : s.status.done = true) : s.irq = s.irqEn := by simp [State.irq, h]

theorem irq_eq_false_of_not_done {s : State} (h : s.status.done = false) : s.irq = false := by simp [State.irq, h]

/-- Every completion sets DONE and leaves CTRL alone (rules R250, R266). -/
theorem CommandEnd.done_irqEn {s t : State} {l : Latch} {i : Instr} (h : CommandEnd s l i (.next t)) :
    t.status.done = true ∧ t.irqEn = s.irqEn := by
  cases h with
  | keep _ _ u hu => exact ⟨rfl, hu.irqEn⟩
  | drop => exact ⟨rfl, rfl⟩
  | decoded _ n => exact ⟨rfl, (noteReads_noted s _ n).irqEn⟩
  | error => exact ⟨rfl, rfl⟩
  | failed _ u hu => exact ⟨rfl, hu.irqEn⟩

/-- A command's body that answers a next state ran on a latched command. -/
theorem exec_next_end {s t : State} {i : Instr} (h : exec i s = .next t) : ∃ l, CommandEnd s l i (.next t) := by
  cases hl : s.latch with
  | none => simp [exec_noCommand hl i] at h
  | some l => exact ⟨l, h ▸ exec_end hl i⟩

theorem irq_of_exec {s t : State} {i : Instr} (h : exec i s = .next t) : t.irq = s.irqEn := by
  obtain ⟨l, hend⟩ := exec_next_end h
  obtain ⟨hdone, hen⟩ := hend.done_irqEn
  rw [irq_eq_irqEn_of_done hdone, hen]

/-- Bit 1 of the word that `ack` writes is 1. -/
theorem writeOneToClear_ack_done (st : Status) : (st.writeOneToClear 0x00000012#32).done = false := by
  simp [Status.writeOneToClear]

theorem irq_of_step_ack {s t : State} {rest : List Event} (h : s.agenda = hostAck s.cfg :: rest)
    (ht : step s = .next t) : t.irq = false := by
  rw [step_hostWr h] at ht
  cases ht
  exact irq_eq_false_of_not_done (writeOneToClear_ack_done s.status)

theorem irq_of_step_latch {s t : State} {v : Word} {rest : List Event} (h : s.agenda = hostWr s.cfg .cmd v :: rest)
    (hb : s.busy = false) (ht : step s = .next t) : t.irq = false := by
  rw [step_hostWr_cmd_idle h (busy_eq_false_iff.1 hb)] at ht
  cases ht
  exact irq_eq_false_of_not_done rfl

/-- Settles O19: irq follows DONE, which every completion sets and `ack` and a latching CMD write clear. -/
theorem interruptFollowsDone : Obligations.InterruptFollowsDone := by
  unfold Obligations.InterruptFollowsDone
  exact ⟨irq_eq_true_iff, irq_eq_false_of_not_done rfl, fun _ _ _ => irq_of_exec, fun _ _ _ => irq_of_step_ack,
    fun _ _ _ _ => irq_of_step_latch⟩

end Sys2Proof.Machine
end

section
/-! PROOFS. The statement of file 30_encoding.md: the bytes of the pseudo-headers (rules R119, R120, R121). First, the
bytes of a register as numbers. -/

namespace Sys2Proof.Machine

/-- Byte `k` of a register, counted from the least significant, as a number. -/
theorem extractLsb'_byte (w : Word) (k : Nat) :
    w.extractLsb' (8 * k) 8 = BitVec.ofNat 8 (w.toNat / 256 ^ k) := by
  have hpow : 2 ^ (8 * k) = 256 ^ k := Nat.pow_mul 2 8 k
  rw [BitVec.extractLsb', Nat.shiftRight_eq_div_pow, hpow]

theorem be32_eq_bytes (w : Word) :
    be32 w = [BitVec.ofNat 8 (w.toNat / 256 ^ 3), BitVec.ofNat 8 (w.toNat / 256 ^ 2),
      BitVec.ofNat 8 (w.toNat / 256 ^ 1), BitVec.ofNat 8 (w.toNat / 256 ^ 0)] := by
  simp only [← extractLsb'_byte]
  rfl

/-- The 16-bit length of the IPv4 pseudo-header is the low half of the register, so its bytes are the register's own. -/
theorem be16_low_eq_bytes (w : Word) :
    be16 (w.extractLsb' 0 16) = [BitVec.ofNat 8 (w.toNat / 256 ^ 1), BitVec.ofNat 8 (w.toNat / 256 ^ 0)] := by
  simp only [← extractLsb'_byte]
  simp [be16, BitVec.extractLsb'_extractLsb'_of_le]

/-- Settles O46: the statement's `be32` is the model's, and the remaining bytes are byte fields of one register. -/
theorem pseudoHeaderBytes : Obligations.PseudoHeaderBytes := by
  unfold Obligations.PseudoHeaderBytes
  intro h n byte hbyte bytes32 hbytes32 addrs haddrs
  have hbe32 : bytes32 = be32 := by
    funext w
    simp only [hbytes32, hbyte, be32_eq_bytes]
  have hlow (w : Word) : w.extractLsb' 0 8 = byte w 0 := (extractLsb'_byte w 0).trans (hbyte w 0).symm
  have hlen : be16 (n.extractLsb' 0 16) = [byte n 1, byte n 0] := by
    rw [be16_low_eq_bytes, hbyte, hbyte]
  subst hbe32 haddrs
  refine ⟨?_, ?_, ?_⟩
  · simp [pseudoHeader, hlow, hlen]
  · simp [pseudoHeader, be128, hlow]
  · simp [pseudoHeader, be128]

end Sys2Proof.Machine
end

section
/-! PROOFS. The statements of file 40_bitfield_codec.md: the three split commands (rules R150, R151, R152). First, the
fields of ARG and the parts of a split as numbers; rule R154 has the decoders use the same parts. -/

namespace Sys2Proof.Machine

/-! ### The fields of ARG -/

@[simp] theorem argByte_toNat (l : Latch) : l.argByte.toNat = l.ops.arg.toNat % 256 := by
  simp [Latch.argByte]

@[simp] theorem argAt_eq (l : Latch) : l.argAt = min (l.ops.arg.toNat / 256 % 16) 8 := by
  simp [Latch.argAt, Nat.shiftRight_eq_div_pow]

@[simp] theorem argHalf_toNat (l : Latch) : l.argHalf.toNat = l.ops.arg.toNat % 65536 := by
  simp [Latch.argHalf]

/-! ### The parts of a split -/

@[simp] theorem splitNibble_fst_toNat (b : Byte) : (splitNibble b).1.toNat = b.toNat / 16 := by
  have hhigh : b.toNat / 16 < 16 := by omega
  simp [splitNibble, Nat.shiftRight_eq_div_pow, Nat.mod_eq_of_lt hhigh]

@[simp] theorem splitNibble_snd_toNat (b : Byte) : (splitNibble b).2.toNat = b.toNat % 16 := by
  simp [splitNibble]

@[simp] theorem splitBits_fst_toNat (b : Byte) (low : Nat) : (splitBits b low).1.toNat = b.toNat / 2 ^ low := by
  simp [splitBits, Nat.shiftRight_eq_div_pow]

/-- The mask of the low part fits a byte because `low` is at most 8, and masking with it is the remainder. -/
theorem splitBits_snd_toNat (b : Byte) {low : Nat} (hlow : low ≤ 8) :
    (splitBits b low).2.toNat = b.toNat % 2 ^ low := by
  have hpow : 2 ^ low ≤ 2 ^ 8 := Nat.pow_le_pow_right (by decide) hlow
  have hmask : (BitVec.ofNat 8 (2 ^ low - 1)).toNat = 2 ^ low - 1 := by
    rw [BitVec.toNat_ofNat, Nat.mod_eq_of_lt (by omega)]
  rw [splitBits, BitVec.toNat_and, hmask, Nat.and_two_pow_sub_one_eq_mod]

@[simp] theorem splitFlagsOffset_fst_toNat (v : BitVec 16) : (splitFlagsOffset v).1.toNat = v.toNat / 8192 := by
  have hflags : v.toNat / 8192 < 8 := by omega
  simp [splitFlagsOffset, Nat.shiftRight_eq_div_pow, Nat.mod_eq_of_lt hflags]

@[simp] theorem splitFlagsOffset_snd_toNat (v : BitVec 16) : (splitFlagsOffset v).2.toNat = v.toNat % 8192 := by
  simp [splitFlagsOffset]

/-! ### The commands -/

theorem finish_eq_completion (s : State) (q : Bool) (a b : Word) :
    s.finish q a b = completion s s.hdr .ok q 0 a b 0 0 0 := rfl

/-- The completion of a split command with its two parts, of any widths, as numbers in RES_A and RES_B. -/
theorem finish_parts_eq_completion (s : State) {n m : Nat} (high : BitVec n) (low : BitVec m) :
    s.finish false (high.setWidth 32) (low.setWidth 32) =
      completion s s.hdr .ok false 0 (BitVec.ofNat 32 high.toNat) (BitVec.ofNat 32 low.toNat) 0 0 0 := by
  rw [finish_eq_completion, BitVec.ofNat_toNat, BitVec.ofNat_toNat]

/-- Settles O25: the nibbles of ARG[7:0] are its quotient and remainder by 16. -/
theorem splitNibbleResult : Obligations.SplitNibbleResult := by
  unfold Obligations.SplitNibbleResult
  refine ⟨by decide, fun s l hl => ?_⟩
  have hlow : l.ops.arg.toNat % 256 % 16 = l.ops.arg.toNat % 16 := Nat.mod_mod_of_dvd _ (by decide)
  simp only [exec, execSplitNibble, withLatch_some hl, finish_parts_eq_completion, splitNibble_fst_toNat,
    splitNibble_snd_toNat, argByte_toNat, hlow]

/-- Settles O26: the parts of ARG[7:0] are its quotient and remainder by 2^at, since the clamped `at` is at most 8. -/
theorem splitBitsResult : Obligations.SplitBitsResult := by
  unfold Obligations.SplitBitsResult
  refine ⟨by decide, fun s l hl => ?_⟩
  have hat : min (l.ops.arg.toNat / 256 % 16) 8 ≤ 8 := Nat.min_le_right _ _
  simp only [exec, execSplitBits, withLatch_some hl, finish_parts_eq_completion, splitBits_fst_toNat,
    splitBits_snd_toNat _ hat, argByte_toNat, argAt_eq]

/-- Settles O27: flags and offset are the quotient and remainder of ARG[15:0] by 2^13. -/
theorem splitFlagsOffsetResult : Obligations.SplitFlagsOffsetResult := by
  unfold Obligations.SplitFlagsOffsetResult
  refine ⟨by decide, fun s l hl => ?_⟩
  have hlow : l.ops.arg.toNat % 65536 % 8192 = l.ops.arg.toNat % 8192 := Nat.mod_mod_of_dvd _ (by decide)
  simp only [exec, execSplitFlagsOffset, withLatch_some hl, finish_parts_eq_completion, splitFlagsOffset_fst_toNat,
    splitFlagsOffset_snd_toNat, argHalf_toNat, hlow]

end Sys2Proof.Machine
end

section
/-! PROOFS. The statement of file 41_options_parser.md: the outcome of OPT_PARSE (rule R160). First, ARG.IHL and the
window check on numbers, and a raised failure as a completion. -/

namespace Sys2Proof.Machine

@[simp] theorem argIhl_toNat (l : Latch) : l.argIhl.toNat = l.ops.arg.toNat % 16 := by
  simp [Latch.argIhl]

theorem windowInBuf_eq_false_iff (s : State) (base len : Word) :
    s.windowInBuf base len = false ↔ s.cfg.bufSize < base.toNat + len.toNat := by
  rw [← Bool.not_eq_true, windowInBuf_iff, Nat.not_le]

theorem raise_failure_eq_completion (s : State) (c : Code) (e a f : Word) :
    s.raise (failure c e a f) = completion s s.hdr c false 0 0 0 e a f := rfl

/-- Settles O29: the command's checks are the statement's, in the same order, and each branch ends in the completion
that the statement names. -/
theorem optParseOutcome : Obligations.OptParseOutcome := by
  unfold Obligations.OptParseOutcome
  refine ⟨by decide, ?_⟩
  rintro s l _ _ _ hl rfl rfl rfl
  have hihl : l.argIhl.setWidth 32 = BitVec.ofNat 32 (l.ops.arg.toNat % 16) := by
    rw [← argIhl_toNat, BitVec.ofNat_toNat]
  simp only [exec, execOptParse, withLatch_some hl, Bool.not_eq_true', windowInBuf_eq_false_iff, argIhl_toNat, hihl,
    optionsLen, raise_failure_eq_completion, finish_eq_completion]
  split
  case isTrue outside => rfl
  case isFalse inside =>
    split
    case isTrue badIhl => rfl
    case isFalse goodIhl => split <;> rfl

end Sys2Proof.Machine
end

section
/-! PROOFS. The statement of file 42_ipv4_header.md: the outcome of V4_HDR_VERIFY (rule R174). First, the folded sum and
its complement as numbers, and the header with its checksum field taken as 0. -/

namespace Sys2Proof.Machine

/-! ### The folded sum and its complement -/

/-- Folding ends in 16 bits, since each folding of a larger number makes it smaller. -/
theorem fold_le (n : Nat) : fold n ≤ 0xFFFF := by
  induction n using Nat.strongRecOn with
  | ind n ih =>
    by_cases hsmall : n ≤ 0xFFFF
    · rwa [fold_small hsmall]
    · rw [fold_large (Nat.not_le.1 hsmall)]
      exact ih _ (by omega)

@[simp] theorem ocSum_toNat (bs : List Byte) : (ocSum bs).toNat = fold (sum16 bs) := by
  rw [ocSum, BitVec.toNat_ofNat, Nat.mod_eq_of_lt (Nat.lt_succ_of_le (fold_le _))]

@[simp] theorem not_ocSum_toNat (bs : List Byte) : (~~~ocSum bs).toNat = 0xFFFF - fold (sum16 bs) := by
  rw [BitVec.toNat_not, ocSum_toNat]

theorem ocSum_setWidth (bs : List Byte) : (ocSum bs).setWidth 32 = BitVec.ofNat 32 (fold (sum16 bs)) := by
  rw [← ocSum_toNat, BitVec.ofNat_toNat]

theorem not_ocSum_setWidth (bs : List Byte) :
    (~~~ocSum bs).setWidth 32 = BitVec.ofNat 32 (0xFFFF - fold (sum16 bs)) := by
  rw [← not_ocSum_toNat, BitVec.ofNat_toNat]

/-- Widening a 16-bit value keeps its number, so comparing it with a register compares the numbers. -/
theorem setWidth_beq_word (v : BitVec 16) (w : Word) : (v.setWidth 32 == w) = decide (v.toNat = w.toNat) := by
  have hwide : (v.setWidth 32).toNat = v.toNat := BitVec.toNat_setWidth_of_le (by decide)
  rw [beq_eq_decide, decide_eq_decide, BitVec.toNat_eq, hwide]

/-! ### V4_HDR_VERIFY -/

theorem set_checksum_bytes {pre post : List Byte} {c0 c1 : Byte} (hpre : pre.length = 10) :
    ((pre ++ [c0, c1] ++ post).set 10 0x00#8).set 11 0x00#8 = pre ++ [0x00, 0x00] ++ post := by
  simp [hpre]

theorem exec_v4HdrVerify_otherKind {s : State} {l : Latch} (hl : s.latch = some l) (hkind : s.hdr.kind ≠ 4) :
    exec .v4HdrVerify s = .next (completion s s.hdr .noHeader false 0 0 0 0 0 0) := by
  rw [← raise_failure_eq_completion]
  simp only [exec, execV4HdrVerify, withLatch_some hl, if_pos hkind]

theorem exec_v4HdrVerify_written {s : State} {l : Latch} {bs cleared : List Byte} (hl : s.latch = some l)
    (hkind : s.hdr.kind = 4) (hread : s.readBytes s.hdr.base.toNat s.hdr.hlen.toNat = some bs)
    (hcleared : (bs.set 10 0x00#8).set 11 0x00#8 = cleared) :
    exec .v4HdrVerify s = .next (s.finish ((~~~ocSum cleared).setWidth 32 == s.hdr.cksum)
      ((~~~ocSum cleared).setWidth 32) ((ocSum cleared).setWidth 32)) := by
  simp only [exec, execV4HdrVerify, withLatch_some hl, if_neg (not_not.2 hkind), engineBytes_of_written hread,
    noteReads_written hread, hcleared]

/-- Settles O47: a written header is summed as it stands with its checksum field cleared, and the folded sum and its
complement fit 16 bits, so the registers and the comparison are those of the numbers. -/
theorem v4HdrVerifyResult : Obligations.V4HdrVerifyResult := by
  unfold Obligations.V4HdrVerifyResult
  refine ⟨by decide, fun s l hl => ⟨exec_v4HdrVerify_otherKind hl, ?_⟩⟩
  rintro pre post c0 c1 _ hkind hpre hread rfl
  rw [exec_v4HdrVerify_written hl hkind hread (set_checksum_bytes hpre), finish_eq_completion, setWidth_beq_word,
    not_ocSum_toNat, not_ocSum_setWidth, ocSum_setWidth]

end Sys2Proof.Machine
end

section
/-! PROOFS. The statements of file 46_control.md: NOP and CLEAR (rules R240, R241). First, what a HDR_KIND of 0, or of
another version, means for the live view and for the header-dependent commands. -/

namespace Sys2Proof.Machine

/-! ### Without the header that is asked for -/

/-- There is a live view only "while HDR_KIND != 0" (rule R96). -/
theorem inLiveView_of_kind_zero {s : State} (hkind : s.hdr.kind = 0) (a : Nat) : s.inLiveView a = false := by
  simp [State.inLiveView, hkind]

/-- HDR_KIND is the first check of the common checksum procedure (rule R212). -/
theorem ckCommand_otherKind {s : State} {l : Latch} {variant : Variant} (hl : s.latch = some l)
    (hkind : s.hdr.kind ≠ variant.kind) (verify : Bool) :
    ckCommand variant verify s = .next (completion s s.hdr .noHeader false 0 0 0 0 0 0) := by
  rw [← raise_failure_eq_completion]
  simp only [ckCommand, withLatch_some hl, if_pos hkind]

theorem exec_ipv4Command_otherKind {s : State} {l : Latch} (hl : s.latch = some l) (hkind : s.hdr.kind ≠ 4) :
    ∀ i ∈ [Instr.v4HdrVerify, .ckV4Compute, .ckV4Verify],
      exec i s = .next (completion s s.hdr .noHeader false 0 0 0 0 0 0) := by
  simp only [List.forall_mem_cons]
  exact ⟨exec_v4HdrVerify_otherKind hl hkind, ckCommand_otherKind (variant := .v4) hl hkind false,
    ckCommand_otherKind (variant := .v4) hl hkind true, List.forall_mem_nil _⟩

theorem exec_ipv6Command_otherKind {s : State} {l : Latch} (hl : s.latch = some l) (hkind : s.hdr.kind ≠ 6) :
    ∀ i ∈ [Instr.ckV6Compute, .ckV6Verify, .ckIcmpv6Compute, .ckIcmpv6Verify],
      exec i s = .next (completion s s.hdr .noHeader false 0 0 0 0 0 0) := by
  simp only [List.forall_mem_cons]
  exact ⟨ckCommand_otherKind (variant := .v6) hl hkind false, ckCommand_otherKind (variant := .v6) hl hkind true,
    ckCommand_otherKind (variant := .icmpv6) hl hkind false, ckCommand_otherKind (variant := .icmpv6) hl hkind true,
    List.forall_mem_nil _⟩

/-! ### CLEAR and NOP -/

/-- A completion names every decoded-header register, whatever was written to them before. -/
theorem completion_setHdr (s : State) (h h' : Header) (c : Code) (q : Bool) (u : BitVec 4) (a b e x f : Word) :
    completion (s.setHdr h) h' c q u a b e x f = completion s h' c q u a b e x f := rfl

theorem exec_clear {s : State} {l : Latch} (hl : s.latch = some l) :
    exec .clear s = .next (completion s Header.zero .ok false 0 0 0 0 0 0) := by
  simp only [exec, execClear, withLatch_some hl, finish_eq_completion, setHdr_hdr, completion_setHdr]

/-- Settles O31: CLEAR leaves HDR_KIND 0, which is no live view and neither kind that the seven commands ask for. -/
theorem clearEndsTheLiveView : Obligations.ClearEndsTheLiveView := by
  unfold Obligations.ClearEndsTheLiveView
  refine ⟨by decide, ?_⟩
  rintro s l l' hl t rfl
  have hipv4 : Header.zero.kind ≠ 4 := by decide
  have hipv6 : Header.zero.kind ≠ 6 := by decide
  exact ⟨exec_clear hl, inLiveView_of_kind_zero rfl,
    List.forall_mem_append.2 ⟨exec_ipv4Command_otherKind rfl hipv4, exec_ipv6Command_otherKind rfl hipv6⟩⟩

/-- Settles O30: NOP's body is the completion alone, with the decoded-header registers as they are. -/
theorem nopOnlyCompletes : Obligations.NopOnlyCompletes := by
  unfold Obligations.NopOnlyCompletes
  refine ⟨by decide, fun s l hl => ?_⟩
  simp only [exec, execNop, withLatch_some hl, finish_eq_completion]

end Sys2Proof.Machine
end

section
/-! PROOFS. The statements of file 60_exceptions.md: the causes of the error codes (rules R255, R257, R259, R260, R261,
R263). First, the errors of the dispatch, the checks that come before any read, and rule R251's table of which command
raises which code. -/

namespace Sys2Proof.Machine

/-! ### A window outside BUF -/

theorem ipv4Decode_outside {s : State} {base len : Word} (hw : s.windowInBuf base len = false) :
    ipv4Decode s base len = .fail 0 (failure .range 0 0 0) := by
  simp [ipv4Decode, hw]

theorem ipv6Decode_outside {s : State} {base len : Word} (hw : s.windowInBuf base len = false) :
    ipv6Decode s base len = .fail 0 (failure .range 0 0 0) := by
  simp [ipv6Decode, hw]

theorem packetDecode_outside {s : State} {base len : Word} (hw : s.windowInBuf base len = false) :
    packetDecode s base len = .fail 0 (failure .range 0 0 0) := by
  simp [packetDecode, hw]

/-- A decode that fails before its first read drops the decoded header and records no fault (rule R263). -/
theorem applyDecode_fail_unread (s : State) (base : Nat) (c : Code) (e a f : Word) :
    applyDecode s base (.fail 0 (failure c e a f)) =
      .next (completion s Header.zero c false 0 0 0 e a f) := rfl

theorem exec_decode_outside {s : State} {l : Latch} (hl : s.latch = some l)
    (hw : s.windowInBuf l.ops.bufBase l.ops.bufLen = false) :
    ∀ i ∈ [Instr.pktDecode, .v4Decode, .v6Decode],
      exec i s = .next (completion s Header.zero .range false 0 0 0 0 0 0) := by
  simp [exec, execPktDecode, execV4Decode, execV6Decode, withLatch_some hl, packetDecode_outside hw,
    ipv4Decode_outside hw, ipv6Decode_outside hw, applyDecode_fail_unread]

theorem exec_optParse_outside {s : State} {l : Latch} (hl : s.latch = some l)
    (hw : s.windowInBuf l.ops.bufBase l.ops.bufLen = false) :
    exec .optParse s = .next (completion s s.hdr .range false 0 0 0 0 0 0) := by
  simp [exec, execOptParse, withLatch_some hl, hw, raise_failure_eq_completion]

/-- The window is the second check of the common checksum procedure (rule R212). -/
theorem ckCommand_outside {s : State} {l : Latch} {variant : Variant} (hl : s.latch = some l)
    (hkind : s.hdr.kind = variant.kind) (hw : s.windowInBuf l.ops.segBase l.ops.segLen = false) (verify : Bool) :
    ckCommand variant verify s = .next (completion s s.hdr .range false 0 0 0 0 0 0) := by
  simp [ckCommand, withLatch_some hl, hkind, hw, raise_failure_eq_completion]

/-- Settles O39: the window check comes before any read in every one of the ten commands, after HDR_KIND alone in the six
that sum. -/
theorem windowOutsideBufCompletesRange : Obligations.WindowOutsideBufCompletesRange := by
  unfold Obligations.WindowOutsideBufCompletesRange
  intro s l hl
  simp only [← windowInBuf_eq_false_iff]
  refine ⟨fun hw => ⟨exec_decode_outside hl hw, exec_optParse_outside hl hw⟩, fun hw => ⟨fun h4 => ?_, fun h6 => ?_⟩⟩
  · simp only [List.forall_mem_cons]
    exact ⟨ckCommand_outside (variant := .v4) hl h4 hw false, ckCommand_outside (variant := .v4) hl h4 hw true,
      List.forall_mem_nil _⟩
  · simp only [List.forall_mem_cons]
    exact ⟨ckCommand_outside (variant := .v6) hl h6 hw false, ckCommand_outside (variant := .v6) hl h6 hw true,
      ckCommand_outside (variant := .icmpv6) hl h6 hw false, ckCommand_outside (variant := .icmpv6) hl h6 hw true,
      List.forall_mem_nil _⟩

/-! ### A header of another kind, and an illegal word -/

/-- Settles O51: HDR_KIND is the first check of V4_HDR_VERIFY and of the common checksum procedure. -/
theorem wrongKindCompletesNoHeader : Obligations.WrongKindCompletesNoHeader := by
  unfold Obligations.WrongKindCompletesNoHeader
  exact fun s l hl => ⟨exec_ipv4Command_otherKind hl, exec_ipv6Command_otherKind hl⟩

/-- Settles O5: the Engine's step on a word that does not decode is the completion of rule R242. -/
theorem illegalWordCompletesBadCommand : Obligations.IllegalWordCompletesBadCommand := by
  unfold Obligations.IllegalWordCompletesBadCommand
  intro s l e rest hl hword hsched
  have hl' : (afterEntry s rest).latch = some l := by rw [afterEntry_latch, hl]
  rw [step_cons hsched, advance_eq_afterEntry hsched, runEvent, engineStep_some hl', hword]
  exact execIllegal_some hl'

/-! ### The header after a command -/

theorem isDecode_iff_mem (i : Instr) : IsDecode i ↔ i ∈ [Instr.pktDecode, .v4Decode, .v6Decode] := by
  simp [IsDecode]

/-- Settles O41: of the five ways a command can end, the failed decode zeroes the header, and only a decode or CLEAR
writes it at all. -/
theorem noPartialHeader : Obligations.NoPartialHeader := by
  unfold Obligations.NoPartialHeader
  intro i s t h
  obtain ⟨l, hend⟩ := exec_next_end h
  rw [← isDecode_iff_mem]
  have hmem : i ∉ [Instr.pktDecode, .v4Decode, .v6Decode, .clear] → ¬ IsDecode i ∧ i ≠ .clear := by
    simpa [isDecode_iff_mem] using fun h1 h2 h3 h4 => ⟨⟨h1, h2, h3⟩, h4⟩
  cases hend with
  | keep hi _ u hu => exact ⟨fun hd => absurd hd hi, fun _ => hu.hdr⟩
  | drop hi => exact ⟨fun _ _ => rfl, fun hn => absurd hi (hmem hn).2⟩
  | decoded hi => exact ⟨fun _ herr => absurd rfl herr, fun hn => absurd hi (hmem hn).1⟩
  | error hi => exact ⟨fun hd => absurd hd hi, fun _ => rfl⟩
  | failed hi => exact ⟨fun _ _ => rfl, fun hn => absurd hi (hmem hn).1⟩

/-! ### Which command raises which code -/

/-- UNSUPPORTED_VERSION with its diagnostics: `n` in UVER and in DIAG_ACT (rules R252, R255). -/
def unsupportedVersion (n : BitVec 4) : Failure :=
  { code := .unsupportedVersion, uver := n, exp := 0, act := n.setWidth 32, field := 0 }

/-- Where an error of the dispatch comes from (rule R200): its own three checks, or the decoder that byte 0 names. -/
theorem packetDecode_error {s : State} {base len : Word} {e : Failure}
    (hd : (packetDecode s base len).outcome = .error e) :
    e = failure .range 0 0 0 ∨ e = failure .truncated 1 0 0 ∨
      versionNibble s base.toNat = 4 ∧ (ipv4Decode s base len).outcome = .error e ∨
      versionNibble s base.toNat = 6 ∧ (ipv6Decode s base len).outcome = .error e ∨
      versionNibble s base.toNat ≠ 4 ∧ versionNibble s base.toNat ≠ 6 ∧
        e = unsupportedVersion (versionNibble s base.toNat) ∧ (packetDecode s base len).reads = 1 := by
  unfold packetDecode at hd ⊢
  dsimp only at hd ⊢
  split at hd
  next => cases hd; exact .inl rfl
  next hw =>
  split at hd
  next => cases hd; exact .inr (.inl rfl)
  next hlen =>
  split at hd
  next h4 => exact .inr (.inr (.inl ⟨h4, hd⟩))
  next h4 =>
  split at hd
  next h6 => exact .inr (.inr (.inr (.inl ⟨h6, hd⟩)))
  next h6 =>
  cases hd
  rw [if_neg hw, if_neg hlen, if_neg h4, if_neg h6]
  exact .inr (.inr (.inr (.inr ⟨h4, h6, rfl, rfl⟩)))

/-- The version check of rule R171 fails only on a nibble other than 4. -/
theorem ipv4Decode_wrongVersion {s : State} {base len : Word} {e : Failure}
    (hd : (ipv4Decode s base len).outcome = .error e) (hc : e.code = .wrongVersion) :
    versionNibble s base.toNat ≠ 4 := by
  unfold ipv4Decode at hd
  dsimp only at hd
  split at hd
  next => cases hd; cases hc
  split at hd
  next => cases hd; cases hc
  split at hd
  next hv => exact hv
  repeat' split at hd
  all_goals cases hd
  all_goals cases hc

/-- The version check of rule R191 fails only on a nibble other than 6. -/
theorem ipv6Decode_wrongVersion {s : State} {base len : Word} {e : Failure}
    (hd : (ipv6Decode s base len).outcome = .error e) (hc : e.code = .wrongVersion) :
    versionNibble s base.toNat ≠ 6 := by
  unfold ipv6Decode at hd
  dsimp only at hd
  split at hd
  next => cases hd; cases hc
  split at hd
  next => cases hd; cases hc
  split at hd
  next hv => exact hv
  split at hd
  all_goals cases hd
  cases hc

/-- The commands that raise a code: the last column of rule R251's table. OK is no error, and BAD_COMMAND is raised for a
word that is no command. -/
def Code.raisedBy : Code → List Instr
  | .ok => []
  | .truncated => [.v4Decode, .v6Decode, .pktDecode, .optParse]
  | .wrongVersion => [.v4Decode, .v6Decode]
  | .unsupportedVersion => [.pktDecode]
  | .lengthMismatch => [.v4Decode, .v6Decode, .pktDecode]
  | .badIhl => [.v4Decode, .pktDecode, .optParse]
  | .range =>
    [.v4Decode, .v6Decode, .pktDecode, .optParse, .ckV4Compute, .ckV6Compute, .ckIcmpv6Compute, .ckV4Verify,
     .ckV6Verify, .ckIcmpv6Verify]
  | .badCommand => []
  | .noHeader =>
    [.v4HdrVerify, .ckV4Compute, .ckV6Compute, .ckIcmpv6Compute, .ckV4Verify, .ckV6Verify, .ckIcmpv6Verify]
  | .segTooLong => [.ckV4Compute, .ckV4Verify]

theorem ipv4Decode_raisedBy {s : State} {base len : Word} {e : Failure}
    (hd : (ipv4Decode s base len).outcome = .error e) : .v4Decode ∈ e.code.raisedBy :=
  have hrows : ∀ c ∈ [Code.range, .truncated, .wrongVersion, .badIhl, .lengthMismatch], .v4Decode ∈ c.raisedBy := by
    decide
  hrows _ (ipv4Decode_fail hd).1

theorem ipv6Decode_raisedBy {s : State} {base len : Word} {e : Failure}
    (hd : (ipv6Decode s base len).outcome = .error e) : .v6Decode ∈ e.code.raisedBy :=
  have hrows : ∀ c ∈ [Code.range, .truncated, .wrongVersion, .lengthMismatch], .v6Decode ∈ c.raisedBy := by decide
  hrows _ (ipv6Decode_fail hd).1

/-- In rule R251's table PKT_DECODE stands with the two decoders in every row but WRONG_VERSION's. -/
theorem pktDecode_mem_raisedBy {c : Code} (h : .v4Decode ∈ c.raisedBy ∨ .v6Decode ∈ c.raisedBy)
    (hne : c ≠ .wrongVersion) : .pktDecode ∈ c.raisedBy := by
  revert h hne
  cases c <;> decide

/-- The dispatch never passes on WRONG_VERSION, since it has made the decoder's version check itself (rule R254). -/
theorem packetDecode_raisedBy {s : State} {base len : Word} {e : Failure}
    (hd : (packetDecode s base len).outcome = .error e) : .pktDecode ∈ e.code.raisedBy := by
  rcases packetDecode_error hd with rfl | rfl | ⟨h4, hd4⟩ | ⟨h6, hd6⟩ | ⟨-, -, rfl, -⟩
  · decide
  · decide
  · exact pktDecode_mem_raisedBy (.inl (ipv4Decode_raisedBy hd4)) fun hc => ipv4Decode_wrongVersion hd4 hc h4
  · exact pktDecode_mem_raisedBy (.inr (ipv6Decode_raisedBy hd6)) fun hc => ipv6Decode_wrongVersion hd6 hc h6
  · exact List.mem_singleton.2 rfl

/-- The command ends OK, or with an error that rule R251 lets it raise. -/
def EndsByTable (i : Instr) (r : Answer) : Prop :=
  ∃ t, r = .next t ∧ (t.status.code = .ok ∨ i ∈ t.status.code.raisedBy)

theorem endsByTable_finish (i : Instr) (s : State) (q : Bool) (a b : Word) : EndsByTable i (.next (s.finish q a b)) :=
  ⟨_, rfl, .inl rfl⟩

theorem endsByTable_raise {i : Instr} {f : Failure} (h : i ∈ f.code.raisedBy) (s : State) :
    EndsByTable i (.next (s.raise f)) :=
  ⟨_, rfl, .inr h⟩

theorem endsByTable_applyDecode {i : Instr} {d : DecodeResult} (h : ∀ e, d.outcome = .error e → i ∈ e.code.raisedBy)
    (s : State) (base : Nat) : EndsByTable i (applyDecode s base d) := by
  unfold applyDecode
  cases hd : d.outcome with
  | ok g => exact endsByTable_finish ..
  | error e => exact endsByTable_raise (h e hd) _

theorem endsByTable_ckCommand {i : Instr} {s : State} {l : Latch} (hl : s.latch = some l) {variant : Variant}
    (hkind : i ∈ Code.noHeader.raisedBy) (hrange : i ∈ Code.range.raisedBy)
    (hlong : variant = .v4 → i ∈ Code.segTooLong.raisedBy) (verify : Bool) :
    EndsByTable i (ckCommand variant verify s) := by
  simp only [ckCommand, withLatch_some hl]
  split
  next => exact endsByTable_raise hkind _
  split
  next => exact endsByTable_raise hrange _
  split
  next hv4 => exact endsByTable_raise (hlong hv4.1) _
  exact endsByTable_finish ..

/-- Every command keeps to rule R251's table. -/
theorem exec_endsByTable {s : State} {l : Latch} (hl : s.latch = some l) (i : Instr) : EndsByTable i (exec i s) := by
  cases i
  case nop | splitNibble | splitBits | splitFlagsOffset | clear =>
    simp only [exec, execNop, execSplitNibble, execSplitBits, execSplitFlagsOffset, execClear, withLatch_some hl]
    exact endsByTable_finish ..
  case pktDecode =>
    simp only [exec, execPktDecode, withLatch_some hl]
    exact endsByTable_applyDecode (fun _ => packetDecode_raisedBy) _ _
  case v4Decode =>
    simp only [exec, execV4Decode, withLatch_some hl]
    exact endsByTable_applyDecode (fun _ => ipv4Decode_raisedBy) _ _
  case v6Decode =>
    simp only [exec, execV6Decode, withLatch_some hl]
    exact endsByTable_applyDecode (fun _ => ipv6Decode_raisedBy) _ _
  case v4HdrVerify =>
    simp only [exec, execV4HdrVerify, withLatch_some hl]
    split
    next => exact endsByTable_raise (by decide) _
    exact endsByTable_finish ..
  case optParse =>
    simp only [exec, execOptParse, withLatch_some hl]
    split
    next => exact endsByTable_raise (by decide) _
    split
    next => exact endsByTable_raise (show _ ∈ Code.badIhl.raisedBy by decide) _
    split
    next => exact endsByTable_raise (show _ ∈ Code.truncated.raisedBy by decide) _
    exact endsByTable_finish ..
  case ckV4Compute | ckV4Verify => exact endsByTable_ckCommand hl (by decide) (by decide) (by decide) _
  case ckV6Compute | ckV6Verify => exact endsByTable_ckCommand hl (by decide) (by decide) (by decide) _
  case ckIcmpv6Compute | ckIcmpv6Verify => exact endsByTable_ckCommand hl (by decide) (by decide) (by decide) _

/-- A command's body answers a next state only while a command is latched (rule R50). -/
theorem latch_of_exec {s t : State} {i : Instr} (h : exec i s = .next t) : ∃ l, s.latch = some l := by
  refine Option.ne_none_iff_exists'.1 fun hl => ?_
  rw [exec_noCommand hl i] at h
  cases h

theorem mem_raisedBy_of_exec {s t : State} {i : Instr} {c : Code} (h : exec i s = .next t) (hc : t.status.code = c)
    (hne : c ≠ .ok) : i ∈ c.raisedBy := by
  obtain ⟨l, hl⟩ := latch_of_exec h
  obtain ⟨t', ht, htable⟩ := exec_endsByTable hl i
  cases h.symm.trans ht
  rw [hc] at htable
  exact htable.resolve_left hne

/-! ### SEG_TOO_LONG -/

/-- The length check of an IPv4 sum comes after HDR_KIND and the window (rule R212). -/
theorem ckCommand_tooLong {s : State} {l : Latch} (hl : s.latch = some l) (hkind : s.hdr.kind = Variant.v4.kind)
    (hw : s.windowInBuf l.ops.segBase l.ops.segLen = true) (hlong : 0xFFFF < l.ops.segLen.toNat) (verify : Bool) :
    ckCommand .v4 verify s = .next (completion s s.hdr .segTooLong false 0 0 0 0xFFFF l.ops.segLen 0) := by
  simp [ckCommand, withLatch_some hl, hkind, hw, hlong, raise_failure_eq_completion]

/-- Settles O52: the third check of the common procedure is made for IPv4 alone, and by rule R251's table nothing else
raises the code. -/
theorem longIpv4SegmentCompletesSegTooLong : Obligations.LongIpv4SegmentCompletesSegTooLong := by
  unfold Obligations.LongIpv4SegmentCompletesSegTooLong
  refine ⟨fun s l hl hkind hw hlong => ?_, fun s t i h hc => ?_⟩
  · rw [← windowInBuf_iff] at hw
    simp only [List.forall_mem_cons]
    exact ⟨ckCommand_tooLong hl hkind hw hlong false, ckCommand_tooLong hl hkind hw hlong true, List.forall_mem_nil _⟩
  · simpa [Code.raisedBy] using mem_raisedBy_of_exec h hc (by decide)

/-! ### UNSUPPORTED_VERSION -/

/-- The two decoders never raise UNSUPPORTED_VERSION, so the dispatch raised it on byte 0 alone (rule R255). -/
theorem packetDecode_unsupportedVersion {s : State} {base len : Word} {e : Failure}
    (hd : (packetDecode s base len).outcome = .error e) (hc : e.code = .unsupportedVersion) :
    versionNibble s base.toNat ≠ 4 ∧ versionNibble s base.toNat ≠ 6 ∧
      e = unsupportedVersion (versionNibble s base.toNat) ∧ (packetDecode s base len).reads = 1 := by
  rcases packetDecode_error hd with rfl | rfl | ⟨-, hd4⟩ | ⟨-, hd6⟩ | hown
  · cases hc
  · cases hc
  · simpa [hc] using (ipv4Decode_fail hd4).1
  · simpa [hc] using (ipv6Decode_fail hd6).1
  · exact hown

theorem applyDecode_error {s t : State} {base : Nat} {d : DecodeResult} (h : applyDecode s base d = .next t)
    (hc : t.status.code ≠ .ok) :
    ∃ e, d.outcome = .error e ∧ t = ((s.noteReads base d.reads).setHdr Header.zero).raise e := by
  unfold applyDecode at h
  cases hd : d.outcome with
  | ok g =>
    rw [hd] at h
    cases h
    exact absurd rfl hc
  | error e =>
    rw [hd] at h
    cases h
    exact ⟨e, rfl, rfl⟩

/-- Reads that left the fault record alone were reads of written bytes (rule R98). -/
theorem written_of_noteReads_faults {s : State} {a n : Nat} (h : (s.noteReads a n).faults = s.faults) :
    ∀ i < n, s.readByte (a + i) ≠ none := by
  refine noteReads_eq_self.1 ?_
  have hnoted := noteReads_noted s a n
  generalize s.noteReads a n = u at h hnoted ⊢
  cases hnoted with
  | clean => rfl
  | fault => simp [State.uninitNoted] at h

theorem versionNibble_toNat_of_written {s : State} {a : Nat} {b : Byte} (h : s.readByte a = some b) :
    (versionNibble s a).toNat = b.toNat / 16 := by
  rw [splitNibble_fst_toNat, memRead_one, engineByte_of_written h, BitVec.ofNat_toNat, BitVec.setWidth_eq]

theorem exec_pktDecode_unsupportedVersion {s t : State} {l : Latch} (hl : s.latch = some l)
    (h : exec .pktDecode s = .next t) (hc : t.status.code = .unsupportedVersion) :
    versionNibble s l.ops.bufBase.toNat ≠ 4 ∧ versionNibble s l.ops.bufBase.toNat ≠ 6 ∧
      t = ((s.noteReads l.ops.bufBase.toNat 1).setHdr Header.zero).raise
        (unsupportedVersion (versionNibble s l.ops.bufBase.toNat)) := by
  simp only [exec, execPktDecode, withLatch_some hl] at h
  obtain ⟨e, hd, rfl⟩ := applyDecode_error h (by simp [hc])
  obtain ⟨h4, h6, rfl, hreads⟩ := packetDecode_unsupportedVersion hd hc
  exact ⟨h4, h6, by rw [hreads]⟩

/-- Settles O40: by rule R251's table the command is PKT_DECODE; it has read byte 0 alone, and with no fault recorded that
byte is written and gives the nibble. -/
theorem onlyPktDecodeRaisesUnsupportedVersion : Obligations.OnlyPktDecodeRaisesUnsupportedVersion := by
  unfold Obligations.OnlyPktDecodeRaisesUnsupportedVersion
  intro i s t h hc
  obtain rfl : i = .pktDecode := List.mem_singleton.1 (mem_raisedBy_of_exec h hc (by decide))
  obtain ⟨l, hl⟩ := latch_of_exec h
  obtain ⟨h4, h6, rfl⟩ := exec_pktDecode_unsupportedVersion hl h hc
  refine ⟨rfl, fun hfaults => ?_⟩
  obtain ⟨b, hb⟩ := Option.ne_none_iff_exists'.1 (written_of_noteReads_faults hfaults 0 Nat.one_pos)
  have hn := versionNibble_toNat_of_written hb
  rw [Nat.add_zero] at hn
  refine ⟨l, b, b.toNat / 16, hl, hb, rfl, by omega, fun hq => h4 (BitVec.eq_of_toNat_eq (hn.trans hq)),
    fun hq => h6 (BitVec.eq_of_toNat_eq (hn.trans hq)), ?_, ?_⟩
  · rw [← hn, BitVec.ofNat_toNat, BitVec.setWidth_eq]
    rfl
  · rw [← hn, BitVec.ofNat_toNat]
    rfl

end Sys2Proof.Machine
end

section
/-! PROOFS. The statement of file 70_reset_and_hazards.md: the table of reset values (rule R280). First, what a step does
on a reset event, and how the state after reset reads. -/

namespace Sys2Proof.Machine

/-! ### The reset event -/

theorem step_reset {s : State} {rest : List Event} (h : s.agenda = .reset :: rest) :
    step s = .next (afterEntry s rest).afterReset := by
  rw [step_cons h, advance_eq_afterEntry h, runEvent]

/-! ### How the state after reset reads -/

@[simp] theorem regValue_cmd (s : State) : s.regValue .cmd = 0 := rfl

@[simp] theorem regValue_idr (s : State) : s.regValue .idr = 0x49504801#32 := rfl

@[simp] theorem afterReset_statusIdle (s : State) : s.afterReset.statusIdle = 0x00000000#32 := by
  have hok : Code.ok.num = 0x00#8 := rfl
  simp [State.statusIdle, State.err, statusLayout, hok]

@[simp] theorem afterReset_busy (s : State) : s.afterReset.busy = false := busy_eq_false_iff.2 (afterReset_latch s)

@[simp] theorem afterReset_irq (s : State) : s.afterReset.irq = false := irq_eq_false_of_not_done rfl

/-- With BUF unwritten no address holds a byte, in BUF or outside it. -/
theorem readByte_of_buf_nil {s : State} (h : s.buf = []) (a : Nat) : s.readByte a = none := by
  simp [State.readByte, h]

/-- Settles O55: a reset event is the step to `afterReset`, whatever is latched, and each conjunct is how that state
reads. -/
theorem resetLeavesTheTable : Obligations.ResetLeavesTheTable := by
  unfold Obligations.ResetLeavesTheTable
  intro s rest h
  let u := afterEntry s rest
  exact ⟨u.afterReset, step_reset h, regValue_cmd _, afterReset_statusIdle u, afterReset_busy u, afterReset_status u,
    afterReset_irqEn u, afterReset_ops u, afterReset_res u, regValue_idr _, afterReset_hdr u, afterReset_latch u,
    afterReset_irq u, readByte_of_buf_nil (afterReset_buf u), afterReset_faults u⟩

end Sys2Proof.Machine
end

section
/-! PROOFS. The invariant of the machine (Safety.lean): it holds after reset and every step keeps it. First, that the
registers a decode writes hold exactly one header with its views in BUF, then what each update keeps. -/

namespace Sys2Proof.Machine

/-! ### The parameters -/

theorem bufSize_lt_of_wf {c : Config} (h : c.wf = true) : c.bufSize < 2 ^ 32 := by
  have hsize : c.sizeOk = true := (Bool.and_eq_true_iff.1 h).1
  simp only [Config.sizeOk, Bool.and_eq_true, decide_eq_true_eq] at hsize
  omega

theorem windowsApart_of_wf {c : Config} (h : c.wf = true) : c.windowsApart = true := (Bool.and_eq_true_iff.1 h).2

/-! ### The decoded-header registers after a decode -/

/-- A register that holds `n` bytes of a datagram holds a number of as many bytes. -/
theorem ofNat_memRead_lt (s : State) (a n : Nat) : (BitVec.ofNat 32 (s.memRead a n)).toNat < 256 ^ n := by
  rw [BitVec.toNat_ofNat]
  exact (Nat.mod_le _ _).trans_lt (memRead_lt s a n)

theorem toNat_setWidth_lt {n : Nat} (v : BitVec n) (w : Nat) : (v.setWidth w).toNat < 2 ^ n := by
  rw [BitVec.toNat_setWidth]
  exact (Nat.mod_le _ _).trans_lt v.isLt

/-- An address inside BUF is computed without overflow, since BUF_SIZE fits a register (rules R6, R89). -/
theorem toNat_add_of_le {a b : Word} {size : Nat} (h : a.toNat + b.toNat ≤ size) (hsize : size < 2 ^ 32) :
    (a + b).toNat = a.toNat + b.toNat := by
  rw [BitVec.toNat_add, Nat.mod_eq_of_lt (by omega)]

theorem toNat_sub_of_toNat_le {a b : Word} (h : b.toNat ≤ a.toNat) : (a - b).toNat = a.toNat - b.toNat :=
  BitVec.toNat_sub_of_le (BitVec.le_def.2 h)

theorem dscp_lt (b : Byte) : ((splitBits b 2).1.setWidth 32).toNat < 2 ^ 6 := by
  rw [BitVec.toNat_setWidth_of_le (by decide), splitBits_fst_toNat]
  omega

theorem ecn_lt (b : Byte) : ((splitBits b 2).2.setWidth 32).toNat < 2 ^ 2 := by
  rw [BitVec.toNat_setWidth_of_le (by decide), splitBits_snd_toNat b (by decide)]
  omega

/-- An IPv4 decode that succeeds leaves one IPv4 header in the registers (rules R43, R44, R173). -/
theorem isV4_writeV4 {s : State} {base len : Word} (hf : V4Found s base len) (hsize : s.cfg.bufSize < 2 ^ 32) :
    (writeV4 base len (ihlNibble s base.toNat) (readV4Fields s base.toNat)).IsV4 s.cfg.bufSize := by
  obtain ⟨hwindow, hfixed, -, hihl, hoptions, htotal⟩ := hf
  generalize ihlNibble s base.toNat = ihl at *
  have hihlHigh : ihl.toNat < 16 := ihl.isLt
  have hihlReg : (ihl.setWidth 32).toNat = ihl.toNat := BitVec.toNat_setWidth_of_le (by decide)
  have h20 : (20 : Word).toNat = 20 := rfl
  have hhlen : (BitVec.ofNat 32 (ihl.toNat * 4)).toNat = ihl.toNat * 4 := by
    rw [BitVec.toNat_ofNat, Nat.mod_eq_of_lt (by omega)]
  have hpayAddr : (base + BitVec.ofNat 32 (ihl.toNat * 4)).toNat = base.toNat + ihl.toNat * 4 :=
    (toNat_add_of_le (by omega) hsize).trans (by rw [hhlen])
  have hpayLen : (len - BitVec.ofNat 32 (ihl.toNat * 4)).toNat = len.toNat - ihl.toNat * 4 :=
    (toNat_sub_of_toNat_le (by omega)).trans (by rw [hhlen])
  have hoptLen : (BitVec.ofNat 32 (ihl.toNat * 4) - 20).toNat = ihl.toNat * 4 - 20 :=
    (toNat_sub_of_toNat_le (by omega)).trans (by rw [hhlen, h20])
  exact {
    kind := rfl
    version := rfl
    ihlLow := by simpa only [writeV4, hihlReg]
    ihlHigh := by simp only [writeV4, hihlReg]; omega
    hlen := by simp only [writeV4, hihlReg, hhlen]
    dscp := dscp_lt _
    ecn := ecn_lt _
    totalLen := ofNat_memRead_lt s _ 2
    ident := ofNat_memRead_lt s _ 2
    flags := toNat_setWidth_lt _ 32
    fragOff := toNat_setWidth_lt _ 32
    ttl := ofNat_memRead_lt s _ 1
    proto := ofNat_memRead_lt s _ 1
    cksum := ofNat_memRead_lt s _ 2
    optAddr := toNat_add_of_le (by omega) hsize
    optLen := by simp only [writeV4, hoptLen, hihlReg]; omega
    payAddr := hpayAddr.trans (by rw [← hhlen]; rfl)
    total := by simp only [writeV4, hpayLen, hhlen, ← htotal]; omega
    inBuf := by simp only [writeV4, hpayLen, hpayAddr]; omega
    noV6 := by constructor <;> rfl }

/-- The payload of an IPv6 datagram that decodes is the rest of the window (rule R191). -/
theorem V6Found.len {s : State} {base len : Word} (hf : V6Found s base len) :
    len.toNat = 40 + (readV6Fields s base.toNat).plen.toNat := by
  have h40 : (40 : Word).toNat = 40 := rfl
  have hfixed := hf.fixed
  rw [← hf.total, toNat_sub_of_toNat_le (by omega)]
  omega

/-- An IPv6 decode that succeeds leaves one IPv6 header in the registers (rules R45, R191). -/
theorem isV6_writeV6 {s : State} {base len : Word} (hf : V6Found s base len) (hsize : s.cfg.bufSize < 2 ^ 32) :
    (writeV6 base (readV6Fields s base.toNat)).IsV6 s.cfg.bufSize := by
  have h40 : (40 : Word).toNat = 40 := rfl
  have hlen := hf.len
  have hwindow := hf.window
  have hpayAddr : (base + 40).toNat = base.toNat + 40 := toNat_add_of_le (by omega) hsize
  exact {
    kind := rfl
    version := rfl
    hlen := rfl
    tclass := toNat_setWidth_lt _ 32
    flow := toNat_setWidth_lt _ 32
    plen6 := ofNat_memRead_lt s _ 2
    nextHdr := ofNat_memRead_lt s _ 1
    hopLimit := ofNat_memRead_lt s _ 1
    payAddr := hpayAddr
    payLen := rfl
    inBuf := by simp only [writeV6, hpayAddr]; omega
    noV4 := by constructor <;> rfl }

theorem closed_of_decodedFrom {s : State} {l : Latch} {n : Nat} {h : Header} (hd : DecodedFrom s l n h)
    (hcfg : s.cfg.wf = true) : h.Closed s.cfg.bufSize := by
  have hsize := bufSize_lt_of_wf hcfg
  rcases hd with ⟨-, hd⟩ | ⟨-, hd⟩
  · obtain ⟨hf, -, rfl⟩ := ipv4Decode_header hd
    exact .inr (.inl (isV4_writeV4 hf hsize))
  · obtain ⟨hf, -, rfl⟩ := ipv6Decode_header hd
    exact .inr (.inr (isV6_writeV6 hf hsize))

/-! ### What each update keeps -/

theorem inv_resetWith {c : Config} (h : c.wf = true) : Inv (State.resetWith c) where
  cfg := h
  bufSorted := rfl
  bufInside := rfl
  hdr := .inl rfl
  handshake := nofun
  boolOk := nofun
  uver := fun _ => rfl
  diagOk := fun _ => ⟨rfl, rfl, rfl⟩
  resErr := fun _ => ⟨rfl, rfl⟩

theorem Inv.advance {s : State} (h : Inv s) : Inv s.advance := { h with }

/-- The fields reset leaves (log 10) are none that the invariant speaks of but the parameters. -/
theorem Inv.afterReset {s : State} (h : Inv s) : Inv s.afterReset := { inv_resetWith h.cfg with }

theorem Inv.noted {s u : State} (h : Inv s) (hu : Noted s u) : Inv u := by
  cases hu with
  | clean => exact h
  | fault => exact { h with }

theorem Inv.setHdr {s : State} {g : Header} (h : Inv s) (hg : g.Closed s.cfg.bufSize) : Inv (s.setHdr g) :=
  { h with hdr := hg }

theorem Inv.finish {s : State} (h : Inv s) (q : Bool) (a b : Word) : Inv (s.finish q a b) :=
  { h with
    handshake := nofun
    boolOk := fun _ => rfl
    uver := fun _ => rfl
    diagOk := fun _ => ⟨rfl, rfl, rfl⟩
    resErr := fun hn => absurd rfl hn }

theorem Inv.raise {s : State} {e : Failure} (h : Inv s) (he : e.code ≠ .ok)
    (hv : e.code ≠ .unsupportedVersion → e.uver = 0) : Inv (s.raise e) :=
  { h with
    handshake := nofun
    boolOk := nofun
    uver := hv
    diagOk := fun hok => absurd hok he
    resErr := fun _ => ⟨rfl, rfl⟩ }

/-- A completion keeps the invariant: the decoded-header registers it leaves are closed (rules R250, R263). -/
theorem Inv.engineEnd {s t : State} {l : Latch} (h : Inv s) (ht : EngineEnd s l t) : Inv t := by
  cases ht with
  | finish u hu q a b => exact (h.noted hu).finish q a b
  | error e he hv => exact h.raise he hv
  | drop => exact (h.setHdr (.inl rfl)).finish false 0 0
  | decoded i hw hi n g hd =>
    have hnoted := noteReads_noted s l.ops.bufBase.toNat n
    refine ((h.noted hnoted).setHdr ?_).finish false 0 0
    rw [hnoted.cfg]
    exact closed_of_decodedFrom hd h.cfg
  | failed i hw hi u hu e he hv => exact ((h.noted hu).setHdr (.inl rfl)).raise he hv

theorem Inv.regWrite {s : State} (h : Inv s) (off : Nat) (v : Word) : Inv (s.regWrite off v) := by
  rcases regWrite_eq s off v with ⟨-, -, he⟩ | ⟨-, -, he⟩ | ⟨-, he⟩ | ⟨irq, ops, he⟩ <;> rw [he]
  · exact { h with handshake := fun _ => rfl }
  · exact { h with }
  · refine { h with handshake := fun hb => ?_ }
    have hdone : s.status.done = false := h.handshake hb
    simp [Status.writeOneToClear, hdone]
  · exact { h with }

theorem Inv.bufWrite {s : State} {a : Nat} (h : Inv s) (ha : a < s.cfg.bufSize) (v : Byte) : Inv (s.bufWrite a v) := by
  obtain ⟨w, fs, d, he, -⟩ := bufWrite_eq s a v
  rw [he]
  exact { h with
    bufSorted := Memory.wf_write a w h.bufSorted
    bufInside := Memory.within_write a w h.bufInside ha }

/-- Settles O59, along the ways a step can end: a completion, reset, or a Host access. -/
theorem stepKeepsTheInvariant : Obligations.StepKeepsTheInvariant := by
  unfold Obligations.StepKeepsTheInvariant
  intro s t h hstep
  have h' := h.advance
  cases step_cases hstep with
  | idle => exact h
  | engineIdle => exact h'
  | engine l ha hl t ht => exact h'.engineEnd (engineStep_end hl ht)
  | reset => exact h'.afterReset
  | regRead b ha off hr hw ho =>
    obtain ⟨r, d, he, -⟩ := regRead_eq s.advance off
    exact he ▸ { h' with }
  | regWrite b ha off v hr hw ho => exact h'.regWrite off v
  | bufRead b ha a hr hw ho =>
    obtain ⟨r, fs, he⟩ := bufRead_eq s.advance a
    exact he ▸ { h' with }
  | bufWrite b ha a v hr hw ho => exact h'.bufWrite (route_eq_buf hr).1 _

end Sys2Proof.Machine
end

section
/-! PROOFS. The three sorts of step: a completion, reset, and a step of the Host or with nothing to do, which leaves
most of the block alone. The statements about every step are read off from them. -/

namespace Sys2Proof.Machine

/-- What a step leaves that is neither a completion nor reset (rules R32, R47, R87, R96, R290). -/
structure HostStep (s t : State) : Prop where
  cfg    : t.cfg = s.cfg
  hdr    : t.hdr = s.hdr
  /-- "Nothing ever removes a fault" (rule R290). -/
  faults : s.faults <+: t.faults
  /-- A latched command stays, since a CMD write while BUSY = 1 is dropped (rule R31). -/
  latch  : s.latch ≠ none → t.latch = s.latch
  /-- OVR is sticky but for a STATUS write (rule R32). -/
  ovr    : s.status.ovr = true → t.status.ovr = true ∨
    ∃ v, s.agenda.head? = some (hostWr s.cfg .status v) ∧ v.getLsbD 4 = true
  /-- BUF changes by a byte write alone, which is a fault while BUSY = 1 or inside the live view (rules R96, R97). -/
  buf    : t.buf = s.buf ∨ ∃ a v w,
    s.agenda.head? = some (.access { addr := s.cfg.bufHostBase + a, width := 1, op := .write v }) ∧
      t.buf = s.buf.write a w ∧ (t.faults = s.faults → s.inLiveView a = false)

theorem hostStep_advance (s : State) : HostStep s s.advance where
  cfg := rfl
  hdr := rfl
  faults := List.prefix_rfl
  latch := fun _ => rfl
  ovr := .inl
  buf := .inl rfl

theorem hostStep_regRead (s : State) (off : Nat) : HostStep s (s.advance.regRead off) := by
  obtain ⟨r, d, he, -⟩ := regRead_eq s.advance off
  exact he ▸ { hostStep_advance s with }

theorem hostStep_regWrite {s : State} {b : BusAccess} {off : Nat} {v : Word}
    (ha : s.agenda.head? = some (.access b)) (hr : route s.cfg b.addr = some (.reg, off)) (hw : b.width = 4)
    (ho : b.op = .write v) : HostStep s (s.advance.regWrite off v) := by
  have hbase := hostStep_advance s
  rcases regWrite_eq s.advance off v with ⟨-, hl, he⟩ | ⟨-, -, he⟩ | ⟨hoff, he⟩ | ⟨irq, ops, he⟩ <;> rw [he]
  · exact { hbase with latch := fun hne => absurd hl hne }
  · exact { hbase with ovr := fun _ => .inl rfl }
  · refine { hbase with ovr := fun hovr => ?_ }
    by_cases hbit : v.getLsbD 4 = true
    · obtain ⟨-, haddr⟩ := route_eq_reg hr
      rw [hoff] at haddr
      exact .inr ⟨v, by rw [ha, hostWr, Reg.offset, ← haddr, ← hw, ← ho], hbit⟩
    · have hkept : (s.status.ovr && !v.getLsbD 4) = true := by
        rw [hovr, Bool.eq_false_iff.2 hbit]
        rfl
      exact .inl hkept
  · exact { hbase with }

theorem hostStep_bufRead (s : State) (a : Nat) : HostStep s (s.advance.bufRead a) := by
  obtain ⟨r, fs, he⟩ := bufRead_eq s.advance a
  exact he ▸ { hostStep_advance s with faults := List.prefix_append .., buf := .inl rfl }

theorem hostStep_bufWrite {s : State} {b : BusAccess} {a : Nat} {v : Word}
    (ha : s.agenda.head? = some (.access b)) (hr : route s.cfg b.addr = some (.buf, a)) (hw : b.width = 1)
    (ho : b.op = .write v) : HostStep s (s.advance.bufWrite a (v.extractLsb' 0 8)) := by
  obtain ⟨w, fs, d, he, hquiet⟩ := bufWrite_eq s.advance a (v.extractLsb' 0 8)
  obtain ⟨-, haddr⟩ := route_eq_buf hr
  rw [he]
  exact { hostStep_advance s with
    faults := List.prefix_append ..
    buf := .inr ⟨a, v, w, by rw [ha, ← haddr, ← hw, ← ho], rfl,
      fun hf => (hquiet (List.append_right_eq_self.1 hf)).2⟩ }

/-- The three sorts of step. -/
inductive StepSort (s : State) : State → Prop where
  /-- The Engine completes the latched command. -/
  | completes (l : Latch) (ha : s.agenda.head? = some .engine ∨ s.agenda = []) (hl : s.latch = some l) (t : State)
      (ht : EngineEnd s.advance l t) : StepSort s t
  | reset (ha : s.agenda.head? = some .reset) : StepSort s s.advance.afterReset
  /-- A Host access, or nothing to do. -/
  | host (t : State) (ht : HostStep s t) : StepSort s t

theorem step_sort {s t : State} (h : step s = .next t) : StepSort s t := by
  cases step_cases h with
  | idle => exact .host _ { hostStep_advance s with }
  | engineIdle => exact .host _ (hostStep_advance s)
  | engine l ha hl t ht => exact .completes l ha hl t (engineStep_end hl ht)
  | reset ha => exact .reset ha
  | regRead b ha off => exact .host _ (hostStep_regRead s off)
  | regWrite b ha off v hr hw ho => exact .host _ (hostStep_regWrite ha hr hw ho)
  | bufRead b ha a => exact .host _ (hostStep_bufRead s a)
  | bufWrite b ha a v hr hw ho => exact .host _ (hostStep_bufWrite ha hr hw ho)

end Sys2Proof.Machine
end

section
/-! PROOFS. The statements of file 20_memory.md and of the fault record: Host accesses of BUF, the accesses without a
meaning, and what a step leaves of BUF and of the record (rules R81, R82, R96 to R98, R274, R287, R288, R290). First,
the live view and a written byte, then what a completion adds to the record. -/

namespace Sys2Proof.Machine

/-! ### The live view and a written byte -/

theorem inLiveView_iff (s : State) (a : Nat) :
    s.inLiveView a = true ↔
      s.hdr.kind ≠ 0 ∧ s.hdr.base.toNat ≤ a ∧ a < s.hdr.payAddr.toNat + s.hdr.payLen.toNat := by
  simp [State.inLiveView, and_assoc]

theorem readByte_write_same (s : State) {a : Nat} (ha : a < s.cfg.bufSize) (v : Byte) :
    State.readByte { s with buf := s.buf.write a v } a = some v := by
  simp [State.readByte, ha, Memory.read_write_same]

theorem readByte_write_other {s t : State} {a b : Nat} {w : Byte} (hcfg : t.cfg = s.cfg)
    (hbuf : t.buf = s.buf.write a w) (h : b ≠ a) : t.readByte b = s.readByte b := by
  simp [State.readByte, hcfg, hbuf, Memory.read_write_other _ _ _ _ h]

theorem busyMutation_mem_writeFaults (s : State) (a : Nat) :
    .busyMutation s.time ∈ s.writeFaults a ↔ s.busy = true := by
  simp [State.writeFaults]

theorem viewMutation_mem_writeFaults (s : State) (a : Nat) :
    .viewMutation s.time ∈ s.writeFaults a ↔ s.inLiveView a = true := by
  simp [State.writeFaults]

/-! ### A Host access of BUF -/

theorem hostAccess_bufWrite (s : State) {a : Nat} (hcfg : s.cfg.wf = true) (ha : a < s.cfg.bufSize) (v : Word) :
    hostAccess { addr := s.cfg.bufHostBase + a, width := 1, op := .write v } s =
      .next (s.bufWrite a (v.extractLsb' 0 8)) := by
  simp [hostAccess, route_buf (windowsApart_of_wf hcfg) ha]

theorem hostAccess_bufRead (s : State) {a : Nat} (hcfg : s.cfg.wf = true) (ha : a < s.cfg.bufSize) :
    hostAccess { addr := s.cfg.bufHostBase + a, width := 1, op := .read } s = .next (s.bufRead a) := by
  simp [hostAccess, route_buf (windowsApart_of_wf hcfg) ha]

/-- The step of the Host program's `sb a, v` (rule R124): the byte on the bus is the low 8 bits of the value (log 15).
-/
theorem step_hostSb {s : State} {a : Nat} {v : Byte} {rest : List Event} (hcfg : s.cfg.wf = true)
    (ha : a < s.cfg.bufSize) (h : s.agenda = hostSb s.cfg a v :: rest) :
    step s = .next ((afterEntry s rest).bufWrite a v) := by
  have hlow : (v.setWidth 32).extractLsb' 0 8 = v :=
    BitVec.eq_of_toNat_eq (by simpa using v.isLt)
  rw [step_access h]
  exact (hostAccess_bufWrite (afterEntry s rest) hcfg ha _).trans (by rw [hlow])

/-- The step of the Host program's `lb a` (rule R124). -/
theorem step_hostLb {s : State} {a : Nat} {rest : List Event} (hcfg : s.cfg.wf = true)
    (ha : a < s.cfg.bufSize) (h : s.agenda = hostLb s.cfg a :: rest) :
    step s = .next ((afterEntry s rest).bufRead a) := by
  rw [step_access h]
  exact hostAccess_bufRead (afterEntry s rest) hcfg ha

/-- Settles O20: outside the live view and while BUSY = 0 the write has neither fault's condition. -/
theorem hostByteWriteStores : Obligations.HostByteWriteStores := by
  unfold Obligations.HostByteWriteStores
  intro s a v rest hcfg ha h hidle houtside
  have hview : s.inLiveView a = false := by
    rw [← Bool.not_eq_true, inLiveView_iff]
    rintro ⟨hkind, hlow, hhigh⟩
    have := houtside hkind
    omega
  have hquiet : (afterEntry s rest).writeFaults a = [] := writeFaults_eq_nil.2 ⟨hidle, hview⟩
  refine ⟨s.buf.write a v, ?_, readByte_write_same s ha v, fun b hb => readByte_write_other rfl rfl hb⟩
  rw [step_hostSb hcfg ha h, bufWrite_quiet v hquiet]
  rfl

/-- Settles O21: the write records its faults, each under its own condition, and writes BUF at its address alone. -/
theorem hostByteWriteFaultsAreRecorded : Obligations.HostByteWriteFaultsAreRecorded := by
  unfold Obligations.HostByteWriteFaultsAreRecorded
  intro s a v rest hcfg ha h hcause
  rw [← inLiveView_iff] at hcause ⊢
  let u := afterEntry s rest
  have hfaults : u.writeFaults a ≠ [] := fun hnil => by
    obtain ⟨hidle, hview⟩ := writeFaults_eq_nil.1 hnil
    rcases hcause with hbusy | hinside
    · exact absurd (hidle.symm.trans hbusy) (by decide)
    · exact absurd (hview.symm.trans hinside) (by decide)
  refine ⟨s.buf.write a (Config.freeByte s.draws), u.writeFaults a, ?_, fun b hb => readByte_write_other rfl rfl hb,
    busyMutation_mem_writeFaults u a, viewMutation_mem_writeFaults u a⟩
  rw [step_hostSb hcfg ha h, bufWrite_faulting v hfaults]
  rfl

/-- Settles O22: the read answers the byte, or records the fault when there is none. -/
theorem hostByteReadReturnsOrFaults : Obligations.HostByteReadReturnsOrFaults := by
  unfold Obligations.HostByteReadReturnsOrFaults
  intro s a rest hcfg ha h
  have hsame : (afterEntry s rest).readByte a = s.readByte a := rfl
  rw [step_hostLb hcfg ha h, State.bufRead, hsame]
  refine ⟨fun b hb => ?_, fun hnone => ?_⟩
  · rw [hb]
    rfl
  · rw [hnone]
    rfl

/-! ### Accesses without a meaning -/

theorem hostAccess_regForm {s : State} {b : BusAccess} (hlow : s.cfg.regBase ≤ b.addr)
    (hhigh : b.addr < s.cfg.regBase + 0x100) (hform : b.width ≠ 4 ∨ (b.addr - s.cfg.regBase) % 4 ≠ 0) :
    hostAccess b s = .refused .regAccessForm := by
  have hno : ¬ (b.width = 4 ∧ (b.addr - s.cfg.regBase) % 4 = 0) := by omega
  simp only [hostAccess, route, if_pos (And.intro hlow hhigh), if_neg hno]

theorem hostAccess_bufWidth {s : State} {b : BusAccess} (hcfg : s.cfg.wf = true) (hlow : s.cfg.bufHostBase ≤ b.addr)
    (hhigh : b.addr < s.cfg.bufHostBase + s.cfg.bufSize) (hwidth : b.width ≠ 1) :
    hostAccess b s = .refused .bufAccessWidth := by
  have hroute := route_buf (a := b.addr - s.cfg.bufHostBase) (windowsApart_of_wf hcfg) (by omega)
  rw [Nat.add_sub_cancel' hlow] at hroute
  simp only [hostAccess, hroute, if_neg hwidth]

theorem hostAccess_nowhere {s : State} {b : BusAccess}
    (hreg : b.addr < s.cfg.regBase ∨ s.cfg.regBase + 0x100 ≤ b.addr)
    (hbuf : b.addr < s.cfg.bufHostBase ∨ s.cfg.bufHostBase + s.cfg.bufSize ≤ b.addr) :
    hostAccess b s = .refused .noSuchAddress := by
  have hreg' : ¬ (s.cfg.regBase ≤ b.addr ∧ b.addr < s.cfg.regBase + 0x100) := by omega
  have hbuf' : ¬ (s.cfg.bufHostBase ≤ b.addr ∧ b.addr < s.cfg.bufHostBase + s.cfg.bufSize) := by omega
  simp only [hostAccess, route, if_neg hreg', if_neg hbuf']

/-- Settles O18: the address decides the port, and each port refuses every form but its own. -/
theorem accessesOfAnotherFormAreRefused : Obligations.AccessesOfAnotherFormAreRefused := by
  unfold Obligations.AccessesOfAnotherFormAreRefused
  intro s b rest h hcfg
  rw [step_access h]
  exact ⟨hostAccess_regForm (s := afterEntry s rest), hostAccess_bufWidth (s := afterEntry s rest) hcfg,
    hostAccess_nowhere (s := afterEntry s rest)⟩

/-! ### The fault record -/

/-- A command's reads leave the record and the draws, or add UNINIT_READ of this step and draw once (log 6). -/
theorem Noted.faults_draws {s u : State} (h : Noted s u) :
    u.faults = s.faults ∧ u.draws = s.draws ∨
      u.faults = s.faults ++ [.uninitRead s.time] ∧ u.draws = s.draws + 1 := by
  cases h with
  | clean => exact .inl ⟨rfl, rfl⟩
  | fault => exact .inr ⟨rfl, rfl⟩

/-- The one fault a completion can record is UNINIT_READ of its step (rule R290). -/
theorem EngineEnd.faults {s t : State} {l : Latch} (h : EngineEnd s l t) :
    t.faults = s.faults ∨ t.faults = s.faults ++ [.uninitRead s.time] := by
  have hnoted {u : State} (hu : Noted s u) : u.faults = s.faults ∨ u.faults = s.faults ++ [.uninitRead s.time] :=
    hu.faults_draws.imp And.left And.left
  cases h with
  | finish u hu => exact (hnoted hu :)
  | error => exact .inl rfl
  | drop => exact .inl rfl
  | decoded i hw hi n => exact (hnoted (noteReads_noted s l.ops.bufBase.toNat n) :)
  | failed i hw hi u hu => exact (hnoted hu :)

theorem EngineEnd.faults_prefix {s t : State} {l : Latch} (h : EngineEnd s l t) : s.faults <+: t.faults := by
  rcases h.faults with he | he <;> rw [he]
  exact List.prefix_append ..

theorem faults_prefix_of_step {s t : State} (h : step s = .next t) : s.faults <+: t.faults := by
  cases step_sort h with
  | completes l ha hl t ht => exact ht.faults_prefix
  | reset => exact List.prefix_rfl
  | host t ht => exact ht.faults

/-- Settles O23: no way a step can end takes a fault from the record. -/
theorem faultRecordOnlyGrows : Obligations.FaultRecordOnlyGrows := by
  unfold Obligations.FaultRecordOnlyGrows
  exact fun s t => faults_prefix_of_step

/-! ### What a step leaves of BUF -/

/-- "No command writes BUF" (rule R82). -/
theorem EngineEnd.cfg_buf {s t : State} {l : Latch} (h : EngineEnd s l t) : t.cfg = s.cfg ∧ t.buf = s.buf := by
  cases h with
  | finish u hu => exact ⟨hu.cfg, hu.buf⟩
  | error => exact ⟨rfl, rfl⟩
  | drop => exact ⟨rfl, rfl⟩
  | decoded i hw hi n => exact ⟨noteReads_cfg s _ n, noteReads_buf s _ n⟩
  | failed i hw hi u hu => exact ⟨hu.cfg, hu.buf⟩

/-- Settles O24: of the three sorts of step a completion leaves BUF, and a Host step writes at most one byte. -/
theorem onlyHostWritesAndResetChangeBuf : Obligations.OnlyHostWritesAndResetChangeBuf := by
  unfold Obligations.OnlyHostWritesAndResetChangeBuf
  intro s t a h hchange
  cases step_sort h with
  | completes l ha hl t ht => exact absurd (readByte_congr ht.cfg_buf.1 ht.cfg_buf.2 a) hchange
  | reset ha => exact .inl ha
  | host t ht =>
    rcases ht.buf with hbuf | ⟨a', v, w, hev, hbuf, -⟩
    · exact absurd (readByte_congr ht.cfg hbuf a) hchange
    · by_cases ha : a = a'
      · exact .inr ⟨v, ha ▸ hev⟩
      · exact absurd (readByte_write_other ht.cfg hbuf ha) hchange

end Sys2Proof.Machine
end

section
/-! PROOFS. What the live view holds (`LiveViewIntact`, Safety.lean): in a run without a fault the decode could be done
again with the same result, since only the Host writes BUF and a write inside the live view is a fault (rules R96, R174,
R176, R288). -/

namespace Sys2Proof.Machine

/-- With no header decoded there is no live view to hold anything. -/
theorem liveViewIntact_of_hdr_zero {s : State} (h : s.hdr = Header.zero) : LiveViewIntact s where
  v4Written := fun _ hk => by rw [h] at hk; cases hk
  v4 := fun _ hk => by rw [h] at hk; cases hk
  v6Written := fun _ hk => by rw [h] at hk; cases hk
  v6 := fun _ hk => by rw [h] at hk; cases hk

/-- Settles O58: nothing is decoded, written or recorded after reset. -/
theorem resetMeetsTheInvariant : Obligations.ResetMeetsTheInvariant := by
  unfold Obligations.ResetMeetsTheInvariant
  exact fun c hc => ⟨inv_resetWith hc, liveViewIntact_of_hdr_zero rfl⟩

/-! ### The fixed header lies in the live view -/

theorem Header.Closed.isV4 {h : Header} {size : Nat} (hc : h.Closed size) (hk : h.kind = 4) : h.IsV4 size := by
  rcases hc with rfl | h4 | h6
  · cases hk
  · exact h4
  · rw [h6.kind] at hk
    cases hk

theorem Header.Closed.isV6 {h : Header} {size : Nat} (hc : h.Closed size) (hk : h.kind = 6) : h.IsV6 size := by
  rcases hc with rfl | h4 | h6
  · cases hk
  · rw [h4.kind] at hk
    cases hk
  · exact h6

/-- The first 20 bytes of the IPv4 datagram: IHL is at least 5 (rules R44, R173). -/
theorem Inv.inLiveView_v4 {s : State} (h : Inv s) (hk : s.hdr.kind = 4) {i : Nat} (hi : i < 20) :
    s.inLiveView (s.hdr.base.toNat + i) = true := by
  have hv4 := h.hdr.isV4 hk
  have hihl := hv4.ihlLow
  have hhlen := hv4.hlen
  have hpay := hv4.payAddr
  exact (inLiveView_iff s _).2 ⟨by rw [hk]; decide, by omega, by omega⟩

/-- The 40 bytes of the IPv6 fixed header (rules R45, R191). -/
theorem Inv.inLiveView_v6 {s : State} (h : Inv s) (hk : s.hdr.kind = 6) {i : Nat} (hi : i < 40) :
    s.inLiveView (s.hdr.base.toNat + i) = true := by
  have hpay := (h.hdr.isV6 hk).payAddr
  exact (inLiveView_iff s _).2 ⟨by rw [hk]; decide, by omega, by omega⟩

/-! ### What keeps the live view intact -/

/-- A live view whose bytes and registers stay, with no fault taken back, stays intact. -/
theorem LiveViewIntact.congr {s t : State} (h : LiveViewIntact s) (hinv : Inv s) (hcfg : t.cfg = s.cfg)
    (hhdr : t.hdr = s.hdr) (hfaults : s.faults <+: t.faults)
    (hbytes : t.faults = [] → ∀ a, s.inLiveView a = true → t.readByte a = s.readByte a) : LiveViewIntact t := by
  have hclean (ht : t.faults = []) : s.faults = [] := List.prefix_nil.1 (ht ▸ hfaults)
  have hsize : t.cfg.bufSize = s.cfg.bufSize := by rw [hcfg]
  have hsame4 (ht : t.faults = []) (hk : s.hdr.kind = 4) : ∀ i < 20,
      t.readByte (s.hdr.base.toNat + i) = s.readByte (s.hdr.base.toNat + i) :=
    fun i hi => hbytes ht _ (hinv.inLiveView_v4 hk hi)
  have hsame6 (ht : t.faults = []) (hk : s.hdr.kind = 6) : ∀ i < 40,
      t.readByte (s.hdr.base.toNat + i) = s.readByte (s.hdr.base.toNat + i) :=
    fun i hi => hbytes ht _ (hinv.inLiveView_v6 hk hi)
  constructor <;> rw [hhdr] <;> intro ht hk
  case v4Written => exact fun i hi => hsame4 ht hk i hi ▸ h.v4Written (hclean ht) hk i hi
  case v4 =>
    rw [ipv4Decode_congr_written hsize (h.v4Written (hclean ht) hk) (hsame4 ht hk)]
    exact h.v4 (hclean ht) hk
  case v6Written => exact fun i hi => hsame6 ht hk i hi ▸ h.v6Written (hclean ht) hk i hi
  case v6 =>
    rw [ipv6Decode_congr_written hsize (h.v6Written (hclean ht) hk) (hsame6 ht hk)]
    exact h.v6 (hclean ht) hk

theorem written_of_noteReads_clean {s : State} {a n : Nat} (h : (s.noteReads a n).faults = []) :
    ∀ i < n, s.readByte (a + i) ≠ none := by
  refine written_of_noteReads_faults ?_
  rcases (noteReads_noted s a n).faults_draws with ⟨he, -⟩ | ⟨he, -⟩
  · exact he
  · simp [he] at h

/-- The window of an IPv4 datagram that decodes stands in the registers (rules R44, R173). -/
theorem ipv4Decode_window {s : State} {base len : Word} {g : Header} (hd : (ipv4Decode s base len).outcome = .ok g) :
    g.kind = 4 ∧ g.base = base ∧ g.totalLen = len := by
  obtain ⟨hf, -, rfl⟩ := ipv4Decode_header hd
  exact ⟨rfl, rfl, hf.total.symm⟩

theorem ipv6Decode_window {s : State} {base len : Word} {g : Header} (hd : (ipv6Decode s base len).outcome = .ok g) :
    g.kind = 6 ∧ g.base = base ∧ g.plen6 + 40 = len := by
  obtain ⟨hf, -, rfl⟩ := ipv6Decode_header hd
  have hplen : (writeV6 base (readV6Fields s base.toNat)).plen6 = len - 40 := hf.total.symm
  exact ⟨rfl, rfl, by rw [hplen, BitVec.sub_add_cancel]⟩

/-- The registers of an IPv4 decode, with its fixed header still as it was read, are an intact live view. -/
theorem liveViewIntact_of_ipv4Decode {s t : State} {base len : Word} (hd : (ipv4Decode s base len).outcome = .ok t.hdr)
    (hcfg : t.cfg = s.cfg) (hbyte : ∀ a, t.readByte a = s.readByte a)
    (hwritten : t.faults = [] → ∀ i < 20, s.readByte (base.toNat + i) ≠ none) : LiveViewIntact t := by
  obtain ⟨hkind, hbase, hlen⟩ := ipv4Decode_window hd
  have hno6 : t.hdr.kind ≠ 6 := by rw [hkind]; decide
  refine ⟨fun ht _ i hi => ?_, fun ht _ => ?_, fun _ hk => absurd hk hno6, fun _ hk => absurd hk hno6⟩
  · rw [hbase, hbyte]
    exact hwritten ht i hi
  · rw [hbase, hlen, ipv4Decode_congr_written (congrArg _ hcfg) (hwritten ht) fun i _ => hbyte _, hd]

theorem liveViewIntact_of_ipv6Decode {s t : State} {base len : Word} (hd : (ipv6Decode s base len).outcome = .ok t.hdr)
    (hcfg : t.cfg = s.cfg) (hbyte : ∀ a, t.readByte a = s.readByte a)
    (hwritten : t.faults = [] → ∀ i < 40, s.readByte (base.toNat + i) ≠ none) : LiveViewIntact t := by
  obtain ⟨hkind, hbase, hlen⟩ := ipv6Decode_window hd
  have hno4 : t.hdr.kind ≠ 4 := by rw [hkind]; decide
  refine ⟨fun _ hk => absurd hk hno4, fun _ hk => absurd hk hno4, fun ht _ i hi => ?_, fun ht _ => ?_⟩
  · rw [hbase, hbyte]
    exact hwritten ht i hi
  · rw [hbase, hlen, ipv6Decode_congr_written (congrArg _ hcfg) (hwritten ht) fun i _ => hbyte _, hd]

/-- After a decode that recorded no fault the window just decoded is the live view, and its fixed header was written. -/
theorem liveViewIntact_decoded {s : State} {l : Latch} {n : Nat} {g : Header} (hd : DecodedFrom s l n g) :
    LiveViewIntact (((s.noteReads l.ops.bufBase.toNat n).setHdr g).finish false 0 0) := by
  have hcfg := noteReads_cfg s l.ops.bufBase.toNat n
  have hbyte := readByte_congr hcfg (noteReads_buf s l.ops.bufBase.toNat n)
  rcases hd with ⟨rfl, hd⟩ | ⟨rfl, hd⟩
  · exact liveViewIntact_of_ipv4Decode hd hcfg hbyte written_of_noteReads_clean
  · exact liveViewIntact_of_ipv6Decode hd hcfg hbyte written_of_noteReads_clean

theorem LiveViewIntact.engineEnd {s t : State} {l : Latch} (h : LiveViewIntact s) (hinv : Inv s)
    (ht : EngineEnd s l t) : LiveViewIntact t := by
  obtain ⟨hcfg, hbuf⟩ := ht.cfg_buf
  have hkeep (hhdr : t.hdr = s.hdr) : LiveViewIntact t :=
    h.congr hinv hcfg hhdr ht.faults_prefix fun _ a _ => readByte_congr hcfg hbuf a
  cases ht with
  | finish u hu => exact hkeep hu.hdr
  | error => exact hkeep rfl
  | drop => exact liveViewIntact_of_hdr_zero rfl
  | decoded i hw hi n g hd => exact liveViewIntact_decoded hd
  | failed => exact liveViewIntact_of_hdr_zero rfl

/-- Settles O60: a completion decodes anew, drops the header or leaves it and BUF alone; a Host write inside the live
view records a fault. -/
theorem stepKeepsTheLiveViewIntact : Obligations.StepKeepsTheLiveViewIntact := by
  unfold Obligations.StepKeepsTheLiveViewIntact
  intro s t hinv h hstep
  have h' : LiveViewIntact s.advance := h.congr hinv rfl rfl List.prefix_rfl fun _ _ _ => rfl
  cases step_sort hstep with
  | completes l ha hl t ht => exact h'.engineEnd hinv.advance ht
  | reset => exact liveViewIntact_of_hdr_zero rfl
  | host t ht =>
    refine h.congr hinv ht.cfg ht.hdr ht.faults fun hclean a hview => ?_
    have hsame : t.faults = s.faults := hclean.trans (List.prefix_nil.1 (hclean ▸ ht.faults)).symm
    rcases ht.buf with hbuf | ⟨a', v, w, -, hbuf, hquiet⟩
    · exact readByte_congr ht.cfg hbuf a
    · have hne : a ≠ a' := by
        rintro rfl
        exact absurd (hview.symm.trans (hquiet hsame)) (by decide)
      exact readByte_write_other ht.cfg hbuf hne

end Sys2Proof.Machine
end

section
/-! PROOFS. The decoder of a command word (rules R110, R111, R114, file 30_encoding.md): the table on numbers, and the
words that name no command. -/

namespace Sys2Proof.Machine

/-! ### The fields of a command word -/

@[simp] theorem opcField_toNat (v : Word) : (opcField v).toNat = v.toNat % 256 := by
  simp [opcField]

@[simp] theorem mbzField_toNat (v : Word) : (mbzField v).toNat = v.toNat / 256 := by
  have hhigh : v.toNat / 256 < 2 ^ 24 := by omega
  simp only [mbzField, BitVec.extractLsb'_toNat, Nat.shiftRight_eq_div_pow]
  exact Nat.mod_eq_of_lt hhigh

theorem mbzField_eq_zero_iff (v : Word) : mbzField v = 0#24 ↔ v.toNat < 256 := by
  rw [BitVec.toNat_eq, mbzField_toNat, BitVec.toNat_zero]
  omega

/-! ### The opcode map -/

theorem opcodeLookup_eq_some_iff (b : Byte) (i : Instr) : opcodeLookup b = some i ↔ (b, i) ∈ opcodeMap := by
  constructor
  · intro h
    obtain ⟨row, hrow, rfl⟩ := Option.map_eq_some_iff.1 h
    obtain rfl : row.1 = b := by simpa using List.find?_some hrow
    exact List.mem_of_find?_eq_some hrow
  · have hrows : ∀ row ∈ opcodeMap, opcodeLookup row.1 = some row.2 := by decide
    exact fun h => hrows _ h

/-- The rows of rule R114 with each OPC as a number. -/
def opcodeRows : List (Nat × Instr) := opcodeMap.map fun row => (row.1.toNat, row.2)

theorem mem_opcodeRows_iff (v : Word) (i : Instr) :
    (v.toNat, i) ∈ opcodeRows ↔ v.toNat < 256 ∧ (opcField v, i) ∈ opcodeMap := by
  simp only [opcodeRows, List.mem_map, Prod.mk.injEq]
  constructor
  · rintro ⟨⟨b, _⟩, hrow, hnum, rfl⟩
    have hb : opcField v = b := BitVec.eq_of_toNat_eq (by rw [opcField_toNat, ← hnum]; exact Nat.mod_eq_of_lt b.isLt)
    exact ⟨hnum ▸ b.isLt, hb ▸ hrow⟩
  · rintro ⟨hlt, hrow⟩
    exact ⟨_, hrow, by rw [opcField_toNat, Nat.mod_eq_of_lt hlt], rfl⟩

/-! ### The decoder -/

theorem decode_of_large {v : Word} (h : 256 ≤ v.toNat) : decode v = .error .mbzNotZero := by
  rw [decode, if_pos (by rw [ne_eq, mbzField_eq_zero_iff]; omega)]

theorem decode_of_row {v : Word} {i : Instr} (h : v.toNat < 256) (hrow : opcodeLookup (opcField v) = some i) :
    decode v = .ok i := by
  simp [decode, (mbzField_eq_zero_iff v).2 h, hrow]

theorem decode_of_noRow {v : Word} (h : v.toNat < 256) (hrow : opcodeLookup (opcField v) = none) :
    decode v = .error .reservedOpc := by
  simp [decode, (mbzField_eq_zero_iff v).2 h, hrow]

/-- A word names the command that rule R114 lists for it, and no other. -/
theorem decode_eq_ok_iff (v : Word) (i : Instr) : decode v = .ok i ↔ (v.toNat, i) ∈ opcodeRows := by
  rw [mem_opcodeRows_iff, ← opcodeLookup_eq_some_iff]
  by_cases h : v.toNat < 256
  · cases hrow : opcodeLookup (opcField v) with
    | some j => simp [decode_of_row h hrow, h]
    | none => simp [decode_of_noRow h hrow]
  · simp [decode_of_large (Nat.not_lt.1 h), h]

theorem decode_of_reserved {v : Word} (hlt : v.toNat < 256) (h : v.toNat ∉ opcodeRows.map Prod.fst) :
    decode v = .error .reservedOpc := by
  refine decode_of_noRow hlt (Option.eq_none_iff_forall_ne_some.2 fun i hrow => h ?_)
  have hmem := (mem_opcodeRows_iff v i).2 ⟨hlt, (opcodeLookup_eq_some_iff _ _).1 hrow⟩
  exact List.mem_map_of_mem hmem

/-- Settles O1: each word is one row of the table, or none. -/
theorem tableWordsDecode : Obligations.TableWordsDecode := by
  unfold Obligations.TableWordsDecode
  decide

/-- Settles O2: one row of the opcode map for each command. -/
theorem decodeOfEncode : Obligations.DecodeOfEncode := by
  unfold Obligations.DecodeOfEncode
  intro i _
  cases i <;> rfl

/-- Settles O3: the statement's table is `opcodeRows` written out. -/
theorem everyWordNamesOneCommandOrIsIllegal : Obligations.EveryWordNamesOneCommandOrIsIllegal := by
  unfold Obligations.EveryWordNamesOneCommandOrIsIllegal
  exact fun v => ⟨decode_eq_ok_iff v, decode_of_large, decode_of_reserved⟩

/-! ### The commands that rewrite the decoded-header registers -/

theorem word_of_decode_eq_ok {v : Word} {i : Instr} (h : decode v = .ok i) (hi : IsDecode i ∨ i = .clear) :
    v.toNat ∈ [0x01, 0x02, 0x03, 0x3F] := by
  rw [decode_eq_ok_iff] at h
  rcases hi with (rfl | rfl | rfl) | rfl <;> simp_all [opcodeRows, opcodeMap]

theorem EngineEnd.hdr {s t : State} {l : Latch} (h : EngineEnd s l t) :
    t.hdr = s.hdr ∨ ∃ i, decode l.word = .ok i ∧ (IsDecode i ∨ i = .clear) := by
  cases h with
  | finish u hu => exact .inl hu.hdr
  | error => exact .inl rfl
  | drop hw => exact .inr ⟨_, hw, .inr rfl⟩
  | decoded i hw hi => exact .inr ⟨i, hw, .inl hi⟩
  | failed i hw hi => exact .inr ⟨i, hw, .inl hi⟩

/-- Settles O57: of the three sorts of step a Host step leaves the registers, and a completion rewrites them only for a
word that decodes to a decode command or to CLEAR. -/
theorem onlyDecodeClearAndResetChangeTheHeader : Obligations.OnlyDecodeClearAndResetChangeTheHeader := by
  unfold Obligations.OnlyDecodeClearAndResetChangeTheHeader
  intro s t h hchange
  cases step_sort h with
  | completes l ha hl t ht =>
    obtain ⟨i, hw, hi⟩ := ht.hdr.resolve_left hchange
    exact .inr ⟨l, hl, ha, word_of_decode_eq_ok hw hi⟩
  | reset ha => exact .inl ha
  | host t ht => exact absurd ht.hdr hchange

end Sys2Proof.Machine
end

section
/-! PROOFS. The step, the completion and the snapshot (rules R8, R47, R50, R82, R242, R250, R273, R281, R286): what a
completion leaves, that a latched command always gets one, and that a command does not read the live operand
registers. -/

namespace Sys2Proof.Machine

/-! ### The step of a latched command -/

theorem step_engine {s : State} {rest : List Event} (h : s.agenda = .engine :: rest) :
    step s = engineStep (afterEntry s rest) := by
  rw [step_cons h, advance_eq_afterEntry h, runEvent]

theorem step_ended {s : State} {l : Latch} (hl : s.latch = some l) (h : s.agenda = []) :
    step s = engineStep (afterEntry s []) := by
  have hbusy : s.busy = true := by simp [State.busy, hl]
  have hadvance : s.advance = afterEntry s [] := by simp [State.advance, afterEntry, h]
  rw [step_nil h, if_pos hbusy, hadvance]

theorem engineStep_decoded {s : State} {l : Latch} {i : Instr} (hl : s.latch = some l) (hd : decode l.word = .ok i) :
    engineStep s = exec i s := by
  rw [engineStep_some hl, hd]

/-- Settles O4: the two schedules that run the Engine give the same step, up to the entry used. -/
theorem stepRunsTheDecodedCommand : Obligations.StepRunsTheDecodedCommand := by
  unfold Obligations.StepRunsTheDecodedCommand
  intro s l i hl hd
  refine ⟨fun rest h => ?_, fun h => ?_⟩
  · rw [step_engine h, engineStep_decoded (s := afterEntry s rest) hl hd]
  · rw [step_ended hl h, engineStep_decoded (s := afterEntry s []) hl hd]

/-! ### A completion -/

theorem Noted.ovr {s u : State} (h : Noted s u) : u.status.ovr = s.status.ovr := congrArg Status.ovr h.status

/-- LATCH becomes empty, DONE is set, OVR and the schedule stay (rule R250). -/
theorem EngineEnd.latch_done_ovr {s t : State} {l : Latch} (h : EngineEnd s l t) :
    t.latch = none ∧ t.status.done = true ∧ t.status.ovr = s.status.ovr := by
  cases h with
  | finish u hu => exact ⟨rfl, rfl, hu.ovr⟩
  | error => exact ⟨rfl, rfl, rfl⟩
  | drop => exact ⟨rfl, rfl, rfl⟩
  | decoded i hw hi n => exact ⟨rfl, rfl, (noteReads_noted s l.ops.bufBase.toNat n).ovr⟩
  | failed i hw hi u hu => exact ⟨rfl, rfl, hu.ovr⟩

theorem EngineEnd.agenda {s t : State} {l : Latch} (h : EngineEnd s l t) : t.agenda = s.agenda := by
  cases h with
  | finish u hu => exact hu.agenda
  | error => rfl
  | drop => rfl
  | decoded i hw hi n => exact noteReads_agenda s _ n
  | failed i hw hi u hu => exact hu.agenda

theorem engineStep_completes {s : State} {l : Latch} (hl : s.latch = some l) :
    ∃ t, engineStep s = .next t ∧ EngineEnd s l t := by
  obtain ⟨t, ht⟩ := engineStep_next hl
  exact ⟨t, ht, engineStep_end hl ht⟩

theorem engineStep_ne_fault (s : State) (f : Fault) : engineStep s ≠ .fault f := by
  cases hl : s.latch with
  | none => simp [engineStep, hl]
  | some l =>
    obtain ⟨t, ht⟩ := engineStep_next hl
    simp [ht]

/-- An access is done or refused. -/
theorem hostAccess_ne_fault (b : BusAccess) (s : State) (f : Fault) : hostAccess b s ≠ .fault f := by
  unfold hostAccess
  repeat' split
  all_goals nofun

theorem step_ne_fault (s : State) (f : Fault) : step s ≠ .fault f := by
  cases ha : s.agenda with
  | nil =>
    rw [step_nil ha]
    split
    · exact engineStep_ne_fault _ f
    · nofun
  | cons e rest =>
    rw [step_cons ha]
    cases e with
    | access b => exact hostAccess_ne_fault b _ f
    | engine => exact engineStep_ne_fault _ f
    | reset => simp [runEvent]

/-- Settles O6: whatever the word, the Engine's step is a completion; and no branch of a step answers a fault. -/
theorem engineStepCompletesAndRecordsFaults : Obligations.EngineStepCompletesAndRecordsFaults := by
  unfold Obligations.EngineStepCompletesAndRecordsFaults
  refine ⟨fun s l hl => ?_, step_ne_fault⟩
  obtain ⟨t, ht, hend⟩ := engineStep_completes hl
  obtain ⟨hlatch, hdone, hovr⟩ := hend.latch_done_ovr
  exact ⟨t, ht, hlatch, busy_eq_false_iff.2 hlatch, hdone, hovr, hend.faults⟩

theorem step_idle {s : State} (h : s.agenda = []) (hl : s.latch = none) : step s = .next s := by
  rw [step_nil h, busy_eq_false_iff.2 hl, if_neg Bool.false_ne_true]

/-- Settles O7: the completion empties LATCH and leaves the schedule empty, and then nothing is left to do. -/
theorem scheduleEndCompletesThenIdles : Obligations.ScheduleEndCompletesThenIdles := by
  unfold Obligations.ScheduleEndCompletesThenIdles
  intro s h
  refine ⟨fun hidle => step_idle h (busy_eq_false_iff.1 hidle), fun hbusy => ?_⟩
  obtain ⟨l, hl⟩ := Option.isSome_iff_exists.1 hbusy
  obtain ⟨t, ht, hend⟩ := engineStep_completes (s := afterEntry s []) hl
  obtain ⟨hlatch, hdone, -⟩ := hend.latch_done_ovr
  exact ⟨t, by rw [step_ended hl h, ht], hdone, step_idle hend.agenda hlatch⟩

/-- Settles O56: of the three sorts of step a completion and reset empty LATCH, and a Host step keeps a latched
command. -/
theorem latchedCommandEndsByCompletionOrReset : Obligations.LatchedCommandEndsByCompletionOrReset := by
  unfold Obligations.LatchedCommandEndsByCompletionOrReset
  intro s t l h hl
  cases step_sort h with
  | completes l' ha hl' t ht =>
    obtain ⟨hlatch, hdone, -⟩ := ht.latch_done_ovr
    exact .inr (.inl ⟨hlatch, hdone⟩)
  | reset ha => exact .inr (.inr ⟨rfl, ha⟩)
  | host t ht => exact .inl ((ht.latch (by simp [hl])).trans hl)

/-- Bit `i` of a register as a number. -/
theorem getLsbD_eq_decide (v : Word) (i : Nat) : v.getLsbD i = decide (v.toNat / 2 ^ i % 2 = 1) := by
  rw [← BitVec.testBit_toNat, Nat.testBit_eq_decide_div_mod_eq]

/-- Settles O11: of the three sorts of step a completion keeps OVR, and a Host step clears it by a STATUS write alone.
-/
theorem overrunIsSticky : Obligations.OverrunIsSticky := by
  unfold Obligations.OverrunIsSticky
  intro s t h hset hclear
  cases step_sort h with
  | completes l ha hl t ht =>
    obtain ⟨-, -, hovr⟩ := ht.latch_done_ovr
    exact absurd (hovr.trans hset) (by simp [hclear])
  | reset ha => exact .inl ha
  | host t ht =>
    obtain ⟨v, hev, hbit⟩ := (ht.ovr hset).resolve_left (by simp [hclear])
    rw [getLsbD_eq_decide, decide_eq_true_iff] at hbit
    exact .inr ⟨v, hev, hbit⟩

/-! ### The frame of a command -/

/-- A completion as an update of the fields that a command may change (rules R82, R250). -/
theorem CommandEnd.frame {s t : State} {l : Latch} {i : Instr} (h : CommandEnd s l i (.next t)) :
    t = { s with
      latch := none, status := t.status, res := t.res, hdr := t.hdr, faults := t.faults, draws := t.draws } := by
  cases h with
  | keep _ _ u hu => cases hu <;> rfl
  | drop => rfl
  | decoded _ n g hd =>
    obtain ⟨fs, d, he, -⟩ := (noteReads_noted s l.ops.bufBase.toNat n).eq
    rw [he]
    rfl
  | error => rfl
  | failed _ u hu => cases hu <;> rfl

theorem CommandEnd.ovr {s t : State} {l : Latch} {i : Instr} (h : CommandEnd s l i (.next t)) :
    t.status.ovr = s.status.ovr := by
  cases h with
  | keep _ _ u hu => exact hu.ovr
  | drop => rfl
  | decoded _ n g hd => exact (noteReads_noted s l.ops.bufBase.toNat n).ovr
  | error => rfl
  | failed _ u hu => exact hu.ovr

theorem CommandEnd.faults_draws {s t : State} {l : Latch} {i : Instr} (h : CommandEnd s l i (.next t)) :
    t.faults = s.faults ∧ t.draws = s.draws ∨
      t.faults = s.faults ++ [.uninitRead s.time] ∧ t.draws = s.draws + 1 := by
  cases h with
  | keep _ _ u hu => exact hu.faults_draws
  | drop => exact .inl ⟨rfl, rfl⟩
  | decoded _ n g hd => exact (noteReads_noted s _ n).faults_draws
  | error => exact .inl ⟨rfl, rfl⟩
  | failed _ u hu => exact hu.faults_draws

/-- Settles O8: the frame is that of each way a command can end; which commands keep the header is in O41. -/
theorem commandFrame : Obligations.CommandFrame := by
  unfold Obligations.CommandFrame
  intro i s t h
  obtain ⟨l, hend⟩ := exec_next_end h
  have hframe := hend.frame
  refine ⟨hframe, hend.ovr, fun a => ?_, (noPartialHeader i s t h).2, hend.faults_draws⟩
  rw [hframe]
  rfl

/-! ### Registers that a command does not read -/

/-- The state with other values in the live operand registers and in the decoded-header registers. -/
def State.replace (s : State) (o : Operands → Operands) (g : Header → Header) : State :=
  { s with ops := o s.ops, hdr := g s.hdr }

/-- A step's answer, its next state passed through `f`. -/
def mapNext (f : State → State) : Answer → Answer
  | .next t => .next (f t)
  | .fault e => .fault e
  | .refused e => .refused e

section
variable (s : State) (o : Operands → Operands) (g : Header → Header)

theorem noteReads_replace (a n : Nat) : (s.replace o g).noteReads a n = (s.noteReads a n).replace o g := by
  have hread : (s.replace o g).readBytes a n = s.readBytes a n := readBytes_congr fun _ _ => rfl
  cases h : s.readBytes a n with
  | none => rw [noteReads_unwritten h, noteReads_unwritten (hread.trans h)]; rfl
  | some bs => rw [noteReads_written h, noteReads_written (hread.trans h)]

theorem engineBytes_replace (a n : Nat) : (s.replace o g).engineBytes a n = s.engineBytes a n :=
  engineBytes_congr fun _ _ => rfl

/-- Of the decoded-header registers the common checksum procedure reads HDR_KIND and the pseudo-header's (rules R211,
R212), and of the operand registers only the snapshot. -/
theorem ckCommand_replace {variant : Variant} (hkind : (g s.hdr).kind = s.hdr.kind)
    (hpseudo : ∀ n, pseudoHeader (g s.hdr) n variant = pseudoHeader s.hdr n variant) (verify : Bool) :
    ckCommand variant verify (s.replace o g) = mapNext (·.replace o g) (ckCommand variant verify s) := by
  have hkind' : (s.replace o g).hdr.kind = s.hdr.kind := hkind
  have hpseudo' n : pseudoHeader (s.replace o g).hdr n variant = pseudoHeader s.hdr n variant := hpseudo n
  have hlatch : (s.replace o g).latch = s.latch := rfl
  have hwindow base len : (s.replace o g).windowInBuf base len = s.windowInBuf base len := rfl
  cases hl : s.latch with
  | none => simp only [ckCommand, withLatch, hlatch, hl]; rfl
  | some l =>
    simp only [ckCommand, withLatch, hlatch, hl, hkind', hpseudo', hwindow, engineBytes_replace, noteReads_replace]
    repeat' split
    all_goals rfl

/-- The decoders read no register at all: the window is the snapshot's. -/
theorem applyDecode_replace (base : Nat) (d : DecodeResult) :
    applyDecode (s.replace o id) base d = mapNext (·.replace o id) (applyDecode s base d) := by
  rw [applyDecode, noteReads_replace, applyDecode]
  cases d.outcome <;> rfl

theorem execV4HdrVerify_replace :
    execV4HdrVerify (s.replace o id) = mapNext (·.replace o id) (execV4HdrVerify s) := by
  have hlatch : (s.replace o id).latch = s.latch := rfl
  have hhdr : (s.replace o id).hdr = s.hdr := rfl
  cases hl : s.latch with
  | none => simp only [execV4HdrVerify, withLatch, hlatch, hl]; rfl
  | some l =>
    simp only [execV4HdrVerify, withLatch, hlatch, hl, hhdr, engineBytes_replace, noteReads_replace]
    split <;> rfl

theorem execOptParse_replace : execOptParse (s.replace o id) = mapNext (·.replace o id) (execOptParse s) := by
  have hlatch : (s.replace o id).latch = s.latch := rfl
  have hwindow base len : (s.replace o id).windowInBuf base len = s.windowInBuf base len := rfl
  cases hl : s.latch with
  | none => simp only [execOptParse, withLatch, hlatch, hl]; rfl
  | some l =>
    simp only [execOptParse, withLatch, hlatch, hl, hwindow]
    repeat' split
    all_goals rfl

/-- Every command reads the snapshot, and carries the live operand registers along. -/
theorem exec_replaceOps {l : Latch} (hl : s.latch = some l) (i : Instr) :
    exec i (s.replace o id) = mapNext (·.replace o id) (exec i s) := by
  have hl' : (s.replace o id).latch = some l := hl
  cases i
  case nop | splitNibble | splitBits | splitFlagsOffset | clear =>
    simp only [exec, execNop, execSplitNibble, execSplitBits, execSplitFlagsOffset, execClear, withLatch_some hl,
      withLatch_some hl']
    rfl
  case pktDecode =>
    have hd base len : packetDecode (s.replace o id) base len = packetDecode s base len :=
      packetDecode_congr rfl fun _ _ => rfl
    simp only [exec, execPktDecode, withLatch_some hl, withLatch_some hl', hd, applyDecode_replace]
  case v4Decode =>
    have hd base len : ipv4Decode (s.replace o id) base len = ipv4Decode s base len :=
      ipv4Decode_congr rfl fun _ _ => rfl
    simp only [exec, execV4Decode, withLatch_some hl, withLatch_some hl', hd, applyDecode_replace]
  case v6Decode =>
    have hd base len : ipv6Decode (s.replace o id) base len = ipv6Decode s base len :=
      ipv6Decode_congr rfl fun _ _ => rfl
    simp only [exec, execV6Decode, withLatch_some hl, withLatch_some hl', hd, applyDecode_replace]
  case v4HdrVerify => exact execV4HdrVerify_replace s o
  case optParse => exact execOptParse_replace s o
  case ckV4Compute | ckV4Verify => exact ckCommand_replace s o id rfl (fun _ => rfl) _
  case ckV6Compute | ckV6Verify => exact ckCommand_replace s o id rfl (fun _ => rfl) _
  case ckIcmpv6Compute | ckIcmpv6Verify => exact ckCommand_replace s o id rfl (fun _ => rfl) _

end

/-- Settles O14: replacing the live operand registers commutes with every command. -/
theorem commandsReadTheSnapshot : Obligations.CommandsReadTheSnapshot := by
  unfold Obligations.CommandsReadTheSnapshot
  intro i s t o h
  obtain ⟨l, hl⟩ := latch_of_exec h
  exact (exec_replaceOps s (fun _ => o) hl i).trans (by rw [h]; rfl)

end Sys2Proof.Machine
end

section
/-! PROOFS. The register window (rules R30 to R40, R84, R87, R251, R284, R286): what a Host write of a named register
stores, and what a Host read returns, BUSY or not. First, the word of STATUS as a number. -/

namespace Sys2Proof.Machine

/-! ### Writes -/

/-- A written 1 clears, a written 0 keeps (rule R32). -/
theorem writeOneToClear_eq (st : Status) (v : Word) :
    st.writeOneToClear v = { st with
      done := if v.toNat / 2 % 2 = 1 then false else st.done
      ovr := if v.toNat / 16 % 2 = 1 then false else st.ovr } := by
  have hclear (q : Bool) (i : Nat) : (q && !v.getLsbD i) = if v.toNat / 2 ^ i % 2 = 1 then false else q := by
    rw [getLsbD_eq_decide]
    split
    case isTrue h => simp [h]
    case isFalse h => simp [h]
  rw [Status.writeOneToClear, hclear, hclear]
  rfl

/-- Settles O10: the write's step is the W1C update of STATUS. -/
theorem statusWriteClearsDoneAndOverrun : Obligations.StatusWriteClearsDoneAndOverrun := by
  unfold Obligations.StatusWriteClearsDoneAndOverrun
  intro s v rest h
  rw [step_hostWr h, State.writeReg, writeOneToClear_eq]
  rfl

/-- Settles O12: the write's step is `writeReg`, register by register. -/
theorem operandWritesStore : Obligations.OperandWritesStore := by
  unfold Obligations.OperandWritesStore
  intro s v rest
  have hbit : v.getLsbD 0 = decide (v.toNat % 2 = 1) := by rw [getLsbD_eq_decide, pow_zero, Nat.div_one]
  refine ⟨fun h => ?_, fun h => step_hostWr h, fun h => step_hostWr h, fun h => step_hostWr h,
    fun h => step_hostWr h, fun h => step_hostWr h⟩
  rw [step_hostWr h, State.writeReg, hbit]

/-- The registers from RES_A on are read-only (rule R30). -/
theorem regWrite_readOnly (s : State) {off : Nat} (h : 0x020 ≤ off) (v : Word) : s.regWrite off v = s := by
  unfold State.regWrite
  split
  case h_1 => rfl
  case h_2 r hr =>
    rw [← offset_of_regAt hr] at h
    cases r
    case cmd | status | ctrl | bufBase | bufLen | segBase | segLen | arg => exact absurd h (by decide)
    all_goals rfl

/-- Settles O13: the write's step changes nothing past its bookkeeping. -/
theorem readOnlyAndReservedWritesAreIgnored : Obligations.ReadOnlyAndReservedWritesAreIgnored := by
  unfold Obligations.ReadOnlyAndReservedWritesAreIgnored
  intro s off v rest hlow hhigh halign h
  rw [step_access h]
  exact (hostAccess_regWrite (afterEntry s rest) hhigh halign v).trans (by rw [regWrite_readOnly _ hlow])

/-! ### The word of STATUS -/

theorem toNat_append_eq_add {n m : Nat} (x : BitVec n) (y : BitVec m) :
    (x ++ y).toNat = x.toNat * 2 ^ m + y.toNat := by
  rw [BitVec.toNat_append, ← Nat.shiftLeft_add_eq_or_of_lt y.isLt, Nat.shiftLeft_eq]

theorem statusLayout_toNat (uver : BitVec 4) (code : BitVec 8) (ovr bool err done busy : Bool) :
    (statusLayout uver code ovr bool err done busy).toNat =
      busy.toNat + done.toNat * 2 + err.toNat * 4 + bool.toNat * 8 + ovr.toNat * 16 + code.toNat * 256 +
        uver.toNat * 65536 := by
  simp only [statusLayout, toNat_append_eq_add, BitVec.toNat_ofBool, BitVec.toNat_zero]
  omega

theorem err_eq_decide (s : State) : s.err = decide (s.status.code.num.toNat ≠ 0) := by
  rw [State.err]
  cases s.status.code <;> rfl

/-- Settles O16: the layout of rule R32 on numbers, with the code's number of rule R251. -/
theorem statusWordIsLaidOutAsTheTableSays : Obligations.StatusWordIsLaidOutAsTheTableSays := by
  unfold Obligations.StatusWordIsLaidOutAsTheTableSays
  refine fun s => ⟨s.status.code.num.toNat, ?_, ?_⟩
  · cases s.status.code <;> decide
  · rw [State.statusIdle, statusLayout_toNat, err_eq_decide, Bool.toNat_false, Nat.zero_add]

/-! ### Reads -/

/-- The register an offset reads while BUSY = 0, and 0 at a reserved offset (rules R30, R40). -/
def State.idleWord (s : State) (off : Nat) : Word :=
  match regAt off with
  | none => 0
  | some r => s.regValue r

theorem regRead_idle {s : State} (h : s.busy = false) (off : Nat) :
    s.regRead off = s.reply (.word (s.idleWord off)) := by
  unfold State.regRead State.idleWord
  cases regAt off with
  | none => rfl
  | some r => simp [h]

theorem regRead_specified (s : State) {r : Reg} (h : r.unspecifiedWhileBusy = false) :
    s.regRead r.offset = s.reply (.word (s.regValue r)) := by
  simp [State.regRead, h]

theorem regRead_unspecified {s : State} {r : Reg} (hb : s.busy = true) (h : r.unspecifiedWhileBusy = true) :
    s.regRead r.offset = (s.reply (.word (s.busyValue (Config.freeWord s.draws) r))).drawn := by
  simp [State.regRead, h, hb]

theorem ctrlWord_eq (b : Bool) : (BitVec.ofBool b).setWidth 32 = if b then (1 : Word) else 0 := by
  cases b <;> rfl

/-- Settles O15: the statement's list has the window's 64 aligned offsets, each with the word that `idleWord` gives. -/
theorem idleReadsFollowTheRegisterMap : Obligations.IdleReadsFollowTheRegisterMap := by
  unfold Obligations.IdleReadsFollowTheRegisterMap
  intro s off w rest hidle hrow h
  rw [← ctrlWord_eq] at hrow
  have hoff : off ∈ (List.range 64).map (4 * ·) := List.mem_map_of_mem (f := Prod.fst) hrow
  have hword : s.idleWord off = w := by
    refine (List.map_inj_left (f := fun row => s.idleWord row.1) (g := Prod.snd)).1 ?_ (off, w) hrow
    rfl
  obtain ⟨k, hk, rfl⟩ := List.mem_map.1 hoff
  rw [List.mem_range] at hk
  rw [step_access h]
  refine (hostAccess_regRead (afterEntry s rest) (by omega) (by omega)).trans ?_
  rw [regRead_idle (s := afterEntry s rest) hidle, ← hword]
  rfl

theorem step_hostRd_unspecified {s : State} {r : Reg} {rest : List Event} (hb : s.busy = true)
    (hr : r.unspecifiedWhileBusy = true) (h : s.agenda = hostRd s.cfg r :: rest) :
    step s = .next { afterEntry s rest with
      lastRead := .word ((afterEntry s rest).busyValue (Config.freeWord s.draws) r), draws := s.draws + 1 } := by
  rw [step_hostRd h, regRead_unspecified (s := afterEntry s rest) hb hr]
  rfl

/-- Settles O17: rule R284 leaves STATUS, the result, diagnostic and decoded-header registers unspecified, and no
other. -/
theorem busyReadsKeepTheHandshake : Obligations.BusyReadsKeepTheHandshake := by
  unfold Obligations.BusyReadsKeepTheHandshake
  intro s rest hb
  refine ⟨fun h => ?_, ?_, fun r hr h => ?_⟩
  · refine ⟨_, step_hostRd_unspecified hb (by decide) h, ?_⟩
    have hovr : (afterEntry s rest).status.ovr = s.status.ovr := rfl
    generalize Config.freeWord s.draws = f
    have hbool := (f.getLsbD 3).toNat_le
    have herr := (f.getLsbD 2).toNat_le
    have hovrLe := s.status.ovr.toNat_le
    have hcode := (f.extractLsb' 8 8).isLt
    have huver := (f.extractLsb' 16 4).isLt
    rw [State.busyValue, if_pos rfl, State.statusBusy, statusLayout_toNat, hovr, Bool.toNat_true, Bool.toNat_false]
    omega
  · have hopen : ∀ r ∈ [Reg.ctrl, .bufBase, .bufLen, .segBase, .segLen, .arg, .idr],
        r.unspecifiedWhileBusy = false := by decide
    rw [← ctrlWord_eq]
    intro p hp h
    have hvalue : s.regValue p.1 = p.2 := by
      refine (List.map_inj_left (f := fun p => s.regValue p.1) (g := Prod.snd)).1 ?_ p hp
      rfl
    have hspec := hopen p.1 (List.mem_map_of_mem (f := Prod.fst) hp)
    rw [step_hostRd h, regRead_specified _ hspec, ← hvalue]
    rfl
  · have hopen : ∀ r ∈ [Reg.resA, .resB, .diagExp, .diagAct, .diagField] ++ headerRegs,
        r.unspecifiedWhileBusy = true := by decide
    exact ⟨_, step_hostRd_unspecified hb (hopen r hr) h⟩

end Sys2Proof.Machine
end

section
/-! PROOFS. The round trip of the split commands (rule R153, file 40_bitfield_codec.md), on the numbers that their
results are. -/

namespace Sys2Proof.Machine

/-- Quotient and remainder by 2^k, put back together, with their bounds. -/
theorem split_recombines {a b : Word} {n k w : Nat} (hk : k ≤ w) (hw : w ≤ 32) (hn : n < 2 ^ w)
    (ha : a = BitVec.ofNat 32 (n / 2 ^ k)) (hb : b = BitVec.ofNat 32 (n % 2 ^ k)) :
    (a <<< k) ||| b = BitVec.ofNat 32 n ∧ a.toNat < 2 ^ (w - k) ∧ b.toNat < 2 ^ k := by
  have hw32 : 2 ^ w ≤ 2 ^ 32 := Nat.pow_le_pow_right (by decide) hw
  have hquot : n / 2 ^ k ≤ n := Nat.div_le_self ..
  have hrem : n % 2 ^ k ≤ n := Nat.mod_le ..
  have hquotLt : n / 2 ^ k < 2 ^ (w - k) := by
    rw [Nat.div_lt_iff_lt_mul (Nat.two_pow_pos k), ← Nat.pow_add, Nat.sub_add_cancel hk]
    exact hn
  have hremLt : n % 2 ^ k < 2 ^ k := Nat.mod_lt _ (Nat.two_pow_pos k)
  have haNat : a.toNat = n / 2 ^ k := by rw [ha, BitVec.toNat_ofNat, Nat.mod_eq_of_lt (by omega)]
  have hbNat : b.toNat = n % 2 ^ k := by rw [hb, BitVec.toNat_ofNat, Nat.mod_eq_of_lt (by omega)]
  have hback : n / 2 ^ k * 2 ^ k + n % 2 ^ k = n := Nat.div_add_mod' n (2 ^ k)
  refine ⟨BitVec.eq_of_toNat_eq ?_, haNat ▸ hquotLt, hbNat ▸ hremLt⟩
  rw [BitVec.toNat_or, BitVec.toNat_shiftLeft, haNat, hbNat, Nat.shiftLeft_eq, Nat.mod_eq_of_lt (by omega),
    ← Nat.shiftLeft_eq, ← Nat.shiftLeft_add_eq_or_of_lt hremLt, Nat.shiftLeft_eq, hback, BitVec.toNat_ofNat,
    Nat.mod_eq_of_lt (by omega)]

/-- Masking the low `k` bits is the remainder by 2^k. -/
theorem and_low_eq_ofNat_mod (v : Word) {k : Nat} (hk : k ≤ 32) :
    v &&& BitVec.ofNat 32 (2 ^ k - 1) = BitVec.ofNat 32 (v.toNat % 2 ^ k) := by
  have hpow : 2 ^ k ≤ 2 ^ 32 := Nat.pow_le_pow_right (by decide) hk
  have hmask : (BitVec.ofNat 32 (2 ^ k - 1)).toNat = 2 ^ k - 1 := by
    rw [BitVec.toNat_ofNat, Nat.mod_eq_of_lt (by omega)]
  have hrem : (BitVec.ofNat 32 (v.toNat % 2 ^ k)).toNat = v.toNat % 2 ^ k := by
    rw [BitVec.toNat_ofNat, Nat.mod_eq_of_lt ((Nat.mod_le ..).trans_lt v.isLt)]
  exact BitVec.eq_of_toNat_eq (by rw [BitVec.toNat_and, hmask, hrem, Nat.and_two_pow_sub_one_eq_mod])

/-- Settles O28: each split command's results are a quotient and remainder of the bits of ARG it splits. -/
theorem splitResultsRecombine : Obligations.SplitResultsRecombine := by
  unfold Obligations.SplitResultsRecombine
  intro s t l hl
  have hbyte : l.ops.arg &&& 0xFF = BitVec.ofNat 32 (l.ops.arg.toNat % 256) :=
    and_low_eq_ofNat_mod _ (k := 8) (by decide)
  have hhalf : l.ops.arg &&& 0xFFFF = BitVec.ofNat 32 (l.ops.arg.toNat % 65536) :=
    and_low_eq_ofNat_mod _ (k := 16) (by decide)
  refine ⟨fun h => ?_, fun h k hk => ?_, fun h => ?_⟩
  · cases h.symm.trans (And.right splitNibbleResult s l hl)
    have hrem : l.ops.arg.toNat % 16 = l.ops.arg.toNat % 256 % 16 := by omega
    exact hbyte ▸ split_recombines (w := 8) (by decide) (by decide) (by omega) rfl (congrArg (BitVec.ofNat 32) hrem)
  · cases h.symm.trans (And.right splitBitsResult s l hl)
    rw [hbyte]
    exact split_recombines (w := 8) (by omega) (by decide) (by omega) (hk ▸ rfl) (hk ▸ rfl)
  · cases h.symm.trans (And.right splitFlagsOffsetResult s l hl)
    have hrem : l.ops.arg.toNat % 8192 = l.ops.arg.toNat % 65536 % 8192 := by omega
    exact hhalf ▸ split_recombines (w := 16) (by decide) (by decide) (by omega) rfl (congrArg (BitVec.ofNat 32) hrem)

end Sys2Proof.Machine
end

section
/-! PROOFS. The decode commands on a written window (rules R115, R117, R171 to R173, R191, R192, files 42_ipv4_header.md
and 43_ipv6_header.md). First, what the wire bytes are as numbers, then the completion of a decode, then the checks in
their order. -/

namespace Sys2Proof.Machine

/-! ### Bytes and fields as numbers -/

theorem setWidth_eq_ofNat {n : Nat} (v : BitVec n) (w : Nat) : v.setWidth w = BitVec.ofNat w v.toNat :=
  (BitVec.ofNat_toNat w v).symm

theorem ofNat_sub_of_le {a b : Nat} (h : b ≤ a) : BitVec.ofNat 32 (a - b) = BitVec.ofNat 32 a - BitVec.ofNat 32 b := by
  rw [BitVec.eq_sub_iff_add_eq, ← BitVec.ofNat_add, Nat.sub_add_cancel h]

/-- Four bytes as one big-endian number (rule R83). -/
theorem ofNat_bigEndian_four (a b c d : Byte) :
    BitVec.ofNat 32 (((a.toNat * 256 + b.toNat) * 256 + c.toNat) * 256 + d.toNat) = a ++ b ++ c ++ d := by
  refine BitVec.eq_of_toNat_eq ?_
  simp only [toNat_append_eq_add, BitVec.toNat_ofNat]
  omega

/-- DSCP and ECN of byte 1 (rule R115). -/
theorem splitBits_two_setWidth (b : Byte) :
    (splitBits b 2).1.setWidth 32 = BitVec.ofNat 32 (b.toNat / 4) ∧
      (splitBits b 2).2.setWidth 32 = BitVec.ofNat 32 (b.toNat % 4) := by
  rw [setWidth_eq_ofNat, setWidth_eq_ofNat, splitBits_fst_toNat, splitBits_snd_toNat b (by decide)]
  exact ⟨rfl, rfl⟩

/-- Flags and fragment offset of bytes 6 and 7 (rule R115). -/
theorem splitFlagsOffset_bytes_setWidth (b c : Byte) :
    (splitFlagsOffset (BitVec.ofNat 16 (b.toNat * 256 + c.toNat))).1.setWidth 32 = BitVec.ofNat 32 (b.toNat / 32) ∧
      (splitFlagsOffset (BitVec.ofNat 16 (b.toNat * 256 + c.toNat))).2.setWidth 32 =
        BitVec.ofNat 32 (b.toNat % 32 * 256 + c.toNat) := by
  rw [setWidth_eq_ofNat, setWidth_eq_ofNat, splitFlagsOffset_fst_toNat, splitFlagsOffset_snd_toNat, BitVec.toNat_ofNat,
    Nat.mod_eq_of_lt (by omega)]
  exact ⟨congrArg _ (by omega), congrArg _ (by omega)⟩

/-- Traffic class and flow label of the first four bytes (rule R117). -/
theorem extractLsb'_first_setWidth (a b c d : Byte) :
    ((a ++ b ++ c ++ d : Word).extractLsb' 20 8).setWidth 32 = BitVec.ofNat 32 (a.toNat % 16 * 16 + b.toNat / 16) ∧
      ((a ++ b ++ c ++ d : Word).extractLsb' 0 20).setWidth 32 =
        BitVec.ofNat 32 ((b.toNat % 16 * 256 + c.toNat) * 256 + d.toNat) := by
  have hfirst : (a ++ b ++ c ++ d : Word).toNat = ((a.toNat * 256 + b.toNat) * 256 + c.toNat) * 256 + d.toNat := by
    simp only [toNat_append_eq_add, Nat.reducePow]
  rw [setWidth_eq_ofNat, setWidth_eq_ofNat, BitVec.extractLsb'_toNat, BitVec.extractLsb'_toNat, hfirst,
    Nat.shiftRight_eq_div_pow, Nat.shiftRight_eq_div_pow]
  exact ⟨congrArg _ (by omega), congrArg _ (by omega)⟩

/-! ### The fixed headers -/

section
variable {s : State} {base : Nat} {b : Nat → Byte}

theorem versionNibble_setWidth_of_written {b0 : Byte} (h : s.readByte base = some b0) :
    (versionNibble s base).setWidth 32 = BitVec.ofNat 32 (b0.toNat / 16) := by
  rw [setWidth_eq_ofNat, versionNibble_toNat_of_written h]

theorem ihlNibble_toNat_of_written {b0 : Byte} (h : s.readByte base = some b0) :
    (ihlNibble s base).toNat = b0.toNat % 16 := by
  rw [splitNibble_snd_toNat, memRead_one, engineByte_of_written h, BitVec.ofNat_toNat, BitVec.setWidth_eq]

theorem ihlNibble_setWidth_of_written {b0 : Byte} (h : s.readByte base = some b0) :
    (ihlNibble s base).setWidth 32 = BitVec.ofNat 32 (b0.toNat % 16) := by
  rw [setWidth_eq_ofNat, ihlNibble_toNat_of_written h]

/-- The version check on numbers. -/
theorem versionNibble_eq_iff {b0 : Byte} (h : s.readByte base = some b0) {n : Nat} (hn : n < 16) :
    versionNibble s base = BitVec.ofNat 4 n ↔ b0.toNat / 16 = n := by
  rw [BitVec.toNat_eq, versionNibble_toNat_of_written h, BitVec.toNat_ofNat, Nat.mod_eq_of_lt hn]

theorem readV4Fields_of_written (h : ∀ i < 20, s.readByte (base + i) = some (b i)) :
    readV4Fields s base = {
      dscp     := BitVec.ofNat 32 ((b 1).toNat / 4)
      ecn      := BitVec.ofNat 32 ((b 1).toNat % 4)
      totalLen := BitVec.ofNat 32 ((b 2).toNat * 256 + (b 3).toNat)
      ident    := BitVec.ofNat 32 ((b 4).toNat * 256 + (b 5).toNat)
      flags    := BitVec.ofNat 32 ((b 6).toNat / 32)
      fragOff  := BitVec.ofNat 32 ((b 6).toNat % 32 * 256 + (b 7).toNat)
      ttl      := BitVec.ofNat 32 (b 8).toNat
      proto    := BitVec.ofNat 32 (b 9).toNat
      cksum    := BitVec.ofNat 32 ((b 10).toNat * 256 + (b 11).toNat)
      src      := b 12 ++ b 13 ++ b 14 ++ b 15
      dst      := b 16 ++ b 17 ++ b 18 ++ b 19 } := by
  have e {i : Nat} (hi : i < 20) : s.engineByte (base + i) = b i := engineByte_of_written (h i hi)
  simp only [readV4Fields, memRead_one, memRead_two, memRead_four, Nat.add_assoc, Nat.reduceAdd, e, Nat.reduceLT,
    BitVec.ofNat_toNat, BitVec.setWidth_eq, splitBits_two_setWidth, splitFlagsOffset_bytes_setWidth,
    ofNat_bigEndian_four]

theorem readV6Fields_of_written (h : ∀ i < 40, s.readByte (base + i) = some (b i)) :
    readV6Fields s base = {
      tclass   := BitVec.ofNat 32 ((b 0).toNat % 16 * 16 + (b 1).toNat / 16)
      flow     := BitVec.ofNat 32 (((b 1).toNat % 16 * 256 + (b 2).toNat) * 256 + (b 3).toNat)
      plen     := BitVec.ofNat 32 ((b 4).toNat * 256 + (b 5).toNat)
      nextHdr  := BitVec.ofNat 32 (b 6).toNat
      hopLimit := BitVec.ofNat 32 (b 7).toNat
      src0     := b 8 ++ b 9 ++ b 10 ++ b 11
      src1     := b 12 ++ b 13 ++ b 14 ++ b 15
      src2     := b 16 ++ b 17 ++ b 18 ++ b 19
      src3     := b 20 ++ b 21 ++ b 22 ++ b 23
      dst0     := b 24 ++ b 25 ++ b 26 ++ b 27
      dst1     := b 28 ++ b 29 ++ b 30 ++ b 31
      dst2     := b 32 ++ b 33 ++ b 34 ++ b 35
      dst3     := b 36 ++ b 37 ++ b 38 ++ b 39 } := by
  have e0 : s.engineByte base = b 0 := engineByte_of_written (h 0 (by decide))
  have e {i : Nat} (hi : i < 40) : s.engineByte (base + i) = b i := engineByte_of_written (h i hi)
  simp only [readV6Fields, memRead_one, memRead_two, memRead_four, Nat.add_assoc, Nat.reduceAdd, e, e0, Nat.reduceLT,
    ofNat_bigEndian_four, extractLsb'_first_setWidth]

end

/-! ### The completion of a decode -/

/-- A decode that succeeds on written bytes completes OK with its header (rules R170, R190). -/
theorem applyDecode_header_written {s : State} {base n : Nat} (hw : ∀ i < n, s.readByte (base + i) ≠ none)
    (h : Header) :
    applyDecode s base (.header n h) = .next (completion s h .ok false 0 0 0 0 0 0) := by
  rw [applyDecode, DecodeResult.header, noteReads_eq_self.2 hw]
  rfl

/-- A decode that fails on written bytes drops the decoded header (rule R263). -/
theorem applyDecode_fail_written {s : State} {base n : Nat} (hw : ∀ i < n, s.readByte (base + i) ≠ none)
    (c : Code) (e a f : Word) :
    applyDecode s base (.fail n (failure c e a f)) = .next (completion s Header.zero c false 0 0 0 e a f) := by
  rw [applyDecode, DecodeResult.fail, noteReads_eq_self.2 hw]
  rfl

theorem ne_none_of_bytes {s : State} {base n : Nat} {b : Nat → Byte} (h : ∀ i < n, s.readByte (base + i) = some (b i)) :
    ∀ i < n, s.readByte (base + i) ≠ none := fun i hi => by simp [h i hi]

/-- Byte 0 of a written window. -/
theorem first_of_bytes {s : State} {base n : Nat} {b : Nat → Byte} (hn : 0 < n)
    (h : ∀ i < n, s.readByte (base + i) = some (b i)) : s.readByte base = some (b 0) := h 0 hn

theorem ne_none_of_first {s : State} {base : Nat} {b0 : Byte} (h : s.readByte base = some b0) :
    ∀ i < 1, s.readByte (base + i) ≠ none := fun i hi => by
  obtain rfl : i = 0 := by omega
  simp [h]

theorem exec_v4Decode {s : State} {l : Latch} (hl : s.latch = some l) :
    exec .v4Decode s = applyDecode s l.ops.bufBase.toNat (ipv4Decode s l.ops.bufBase l.ops.bufLen) := by
  rw [exec, execV4Decode, withLatch_some hl]

theorem exec_v6Decode {s : State} {l : Latch} (hl : s.latch = some l) :
    exec .v6Decode s = applyDecode s l.ops.bufBase.toNat (ipv6Decode s l.ops.bufBase l.ops.bufLen) := by
  rw [exec, execV6Decode, withLatch_some hl]

/-! ### V4_DECODE -/

section
variable {s : State} {base len : Word} (hw : base.toNat + len.toNat ≤ s.cfg.bufSize)
include hw

theorem ipv4Decode_short (h : len.toNat < 20) : ipv4Decode s base len = .fail 0 (failure .truncated 20 len 0) := by
  simp [ipv4Decode, (windowInBuf_iff ..).2 hw, h]

variable (h20 : 20 ≤ len.toNat)
include h20

theorem ipv4Decode_otherVersion (hv : versionNibble s base.toNat ≠ 4) :
    ipv4Decode s base len =
      .fail 1 (failure .wrongVersion 4 ((versionNibble s base.toNat).setWidth 32) 0) := by
  unfold ipv4Decode
  dsimp only
  rw [(windowInBuf_iff ..).2 hw, if_neg (by decide), if_neg (Nat.not_lt.2 h20), if_pos hv]

variable (hv : versionNibble s base.toNat = 4)
include hv

theorem ipv4Decode_badIhl (hi : (ihlNibble s base.toNat).toNat < 5) :
    ipv4Decode s base len = .fail 1 (failure .badIhl 5 ((ihlNibble s base.toNat).setWidth 32) 0) := by
  unfold ipv4Decode
  dsimp only
  rw [(windowInBuf_iff ..).2 hw, if_neg (by decide), if_neg (Nat.not_lt.2 h20), if_neg (not_not.2 hv), if_pos hi]

variable (hi : 5 ≤ (ihlNibble s base.toNat).toNat)
include hi

theorem ipv4Decode_shortOptions (ho : len.toNat < (ihlNibble s base.toNat).toNat * 4) :
    ipv4Decode s base len =
      .fail 20 (failure .truncated (BitVec.ofNat 32 ((ihlNibble s base.toNat).toNat * 4)) len 0) := by
  unfold ipv4Decode
  dsimp only
  rw [(windowInBuf_iff ..).2 hw, if_neg (by decide), if_neg (Nat.not_lt.2 h20), if_neg (not_not.2 hv),
    if_neg (Nat.not_lt.2 hi), if_pos ((options_check (Nat.not_lt.2 hi) (Nat.not_lt.2 h20)).2 ho)]

theorem ipv4Decode_lengthMismatch (ho : (ihlNibble s base.toNat).toNat * 4 ≤ len.toNat)
    (ht : len ≠ (readV4Fields s base.toNat).totalLen) :
    ipv4Decode s base len = .fail 20 (failure .lengthMismatch (readV4Fields s base.toNat).totalLen len 2) := by
  unfold ipv4Decode
  dsimp only
  rw [(windowInBuf_iff ..).2 hw, if_neg (by decide), if_neg (Nat.not_lt.2 h20), if_neg (not_not.2 hv),
    if_neg (Nat.not_lt.2 hi), if_neg (mt (options_check (Nat.not_lt.2 hi) (Nat.not_lt.2 h20)).1 (Nat.not_lt.2 ho)),
    if_pos ht]

end

theorem ofNat_toNat_eq {w : Word} {n : Nat} (h : n = w.toNat) : BitVec.ofNat 32 n = w := by
  rw [h, BitVec.ofNat_toNat, BitVec.setWidth_eq]

theorem eq_ofNat_iff {w : Word} {n : Nat} (h : n < 2 ^ 32) : w = BitVec.ofNat 32 n ↔ w.toNat = n := by
  rw [BitVec.toNat_eq, BitVec.toNat_ofNat, Nat.mod_eq_of_lt h]

section
variable {s : State} {l : Latch} {b : Nat → Byte} (h : HoldsV4Datagram s l b)
include h

/-- The window of a well-formed IPv4 datagram passes every check of rule R171. -/
theorem HoldsV4Datagram.found : V4Found s l.ops.bufBase l.ops.bufLen := by
  have hb0 := first_of_bytes (by decide) h.bytes
  have hihl := ihlNibble_toNat_of_written hb0
  have htotal := congrArg V4Fields.totalLen (readV4Fields_of_written h.bytes)
  exact {
    window := h.window
    fixed := h.fixed
    version := (versionNibble_eq_iff hb0 (by decide)).2 h.version
    ihl := hihl ▸ h.ihl
    options := hihl ▸ h.options
    total := (ofNat_toNat_eq h.total).symm.trans htotal.symm }

/-- The registers a decode writes are those of the wire bytes (rules R43, R44, R115, R173). -/
theorem HoldsV4Datagram.writeV4_eq :
    writeV4 l.ops.bufBase l.ops.bufLen (ihlNibble s l.ops.bufBase.toNat) (readV4Fields s l.ops.bufBase.toNat) =
      wireV4Header l b := by
  have hb0 := first_of_bytes (by decide) h.bytes
  have hihl := h.ihl
  have hoptLen : ((b 0).toNat % 16 - 5) * 4 = (b 0).toNat % 16 * 4 - 20 := by omega
  have hbase : BitVec.ofNat 32 l.ops.bufBase.toNat = l.ops.bufBase := ofNat_toNat_eq rfl
  have hlen : BitVec.ofNat 32 l.ops.bufLen.toNat = l.ops.bufLen := ofNat_toNat_eq rfl
  rw [readV4Fields_of_written h.bytes]
  simp only [writeV4, wireV4Header, ihlNibble_setWidth_of_written hb0, ihlNibble_toNat_of_written hb0, hoptLen,
    ofNat_sub_of_le (show 20 ≤ (b 0).toNat % 16 * 4 by omega), ofNat_sub_of_le h.options, BitVec.ofNat_add, hbase,
    hlen]
  rfl

end

/-- Settles O32: the datagram passes every check, and its 20 bytes are written, so no read of it is a fault. -/
theorem v4DecodeWritesTheHeader : Obligations.V4DecodeWritesTheHeader := by
  unfold Obligations.V4DecodeWritesTheHeader
  intro s l b hl h
  rw [exec_v4Decode hl, ipv4Decode_of_found h.found, h.writeV4_eq,
    applyDecode_header_written (ne_none_of_bytes h.bytes)]

/-- Settles O33: each failure is one branch of the decoder, in its order. -/
theorem v4DecodeFailuresInOrder : Obligations.V4DecodeFailuresInOrder := by
  unfold Obligations.V4DecodeFailuresInOrder
  rintro s l _ _ bad hl rfl rfl hbad
  have hunread : ∀ i < 0, s.readByte (l.ops.bufBase.toNat + i) ≠ none := nofun
  simp only [hbad]
  rw [exec_v4Decode hl]
  refine ⟨fun hout => ?_, fun hw hshort => ?_, fun b0 hw h20 hb0 hv => ?_, fun b0 hw h20 hb0 hv hi => ?_,
    fun b hw h20 hb hv hi ho => ?_, fun b hw h20 hb hv hi ho ht => ?_⟩
  · rw [ipv4Decode_outside ((windowInBuf_eq_false_iff ..).2 hout), applyDecode_fail_written hunread]
  · rw [ipv4Decode_short hw hshort, applyDecode_fail_written hunread]
  · rw [ipv4Decode_otherVersion hw h20 (mt (versionNibble_eq_iff hb0 (by decide)).1 hv),
      versionNibble_setWidth_of_written hb0, applyDecode_fail_written (ne_none_of_first hb0)]
  · rw [ipv4Decode_badIhl hw h20 ((versionNibble_eq_iff hb0 (by decide)).2 hv)
      (by rwa [ihlNibble_toNat_of_written hb0]), ihlNibble_setWidth_of_written hb0,
      applyDecode_fail_written (ne_none_of_first hb0)]
  · have hb0 := first_of_bytes (by decide) hb
    have hihl := ihlNibble_toNat_of_written hb0
    rw [ipv4Decode_shortOptions hw h20 ((versionNibble_eq_iff hb0 (by decide)).2 hv) (hihl ▸ hi) (hihl ▸ ho), hihl,
      applyDecode_fail_written (ne_none_of_bytes hb)]
  · have hb0 := first_of_bytes (by decide) hb
    have hihl := ihlNibble_toNat_of_written hb0
    have htotal : (readV4Fields s l.ops.bufBase.toNat).totalLen =
        BitVec.ofNat 32 ((b 2).toNat * 256 + (b 3).toNat) := by rw [readV4Fields_of_written hb]
    have hne : l.ops.bufLen ≠ (readV4Fields s l.ops.bufBase.toNat).totalLen := by
      rw [htotal, ne_eq, eq_ofNat_iff (by omega)]
      exact Ne.symm ht
    rw [ipv4Decode_lengthMismatch hw h20 ((versionNibble_eq_iff hb0 (by decide)).2 hv) (hihl ▸ hi) (hihl ▸ ho) hne,
      htotal, applyDecode_fail_written (ne_none_of_bytes hb)]

end Sys2Proof.Machine
end

section
/-! PROOFS. V6_DECODE on a written window (rules R117, R191, R192, file 43_ipv6_header.md), and the dispatch of
PKT_DECODE (rules R200 to R203, file 44_packet_dispatch.md). -/

namespace Sys2Proof.Machine

/-- The nibble as the IPv6 decoder and the dispatch write it. -/
theorem versionNibble_eq_extractLsb' (s : State) (base : Nat) :
    versionNibble s base = (BitVec.ofNat 8 (s.memRead base 1)).extractLsb' 4 4 := rfl

/-! ### V6_DECODE -/

section
variable {s : State} {base len : Word} (hw : base.toNat + len.toNat ≤ s.cfg.bufSize)
include hw

theorem ipv6Decode_short (h : len.toNat < 40) : ipv6Decode s base len = .fail 0 (failure .truncated 40 len 0) := by
  simp [ipv6Decode, (windowInBuf_iff ..).2 hw, h]

variable (h40 : 40 ≤ len.toNat)
include h40

theorem ipv6Decode_otherVersion (hv : versionNibble s base.toNat ≠ 6) :
    ipv6Decode s base len =
      .fail 1 (failure .wrongVersion 6 ((versionNibble s base.toNat).setWidth 32) 0) := by
  rw [versionNibble_eq_extractLsb'] at hv
  unfold ipv6Decode
  dsimp only
  rw [(windowInBuf_iff ..).2 hw, if_neg (by decide), if_neg (Nat.not_lt.2 h40), if_pos hv]
  rfl

theorem ipv6Decode_lengthMismatch (hv : versionNibble s base.toNat = 6)
    (ht : len - 40 ≠ (readV6Fields s base.toNat).plen) :
    ipv6Decode s base len =
      .fail 40 (failure .lengthMismatch (40 + (readV6Fields s base.toNat).plen) len 4) := by
  rw [versionNibble_eq_extractLsb'] at hv
  unfold ipv6Decode
  dsimp only
  rw [(windowInBuf_iff ..).2 hw, if_neg (by decide), if_neg (Nat.not_lt.2 h40), if_neg (not_not.2 hv), if_pos ht]

end

/-- The payload length of bytes 4 and 5 (rule R117). -/
theorem readV6Fields_plen_of_written {s : State} {base : Nat} {b : Nat → Byte}
    (h : ∀ i < 40, s.readByte (base + i) = some (b i)) :
    (readV6Fields s base).plen = BitVec.ofNat 32 ((b 4).toNat * 256 + (b 5).toNat) := by
  rw [readV6Fields_of_written h]

/-- The length check of rule R191 on numbers. -/
theorem sub_forty_eq_iff {len : Word} (h40 : 40 ≤ len.toNat) {n : Nat} (hn : n < 2 ^ 32) :
    len - 40 = BitVec.ofNat 32 n ↔ len.toNat = 40 + n := by
  have hforty : (40 : Word).toNat = 40 := rfl
  rw [eq_ofNat_iff hn, toNat_sub_of_toNat_le (by omega)]
  omega

section
variable {s : State} {l : Latch} {b : Nat → Byte} (h : HoldsV6Datagram s l b)
include h

/-- The window of a well-formed IPv6 datagram passes every check of rule R191. -/
theorem HoldsV6Datagram.found : V6Found s l.ops.bufBase l.ops.bufLen := by
  have hfixed : 40 ≤ l.ops.bufLen.toNat := by
    have := h.total
    omega
  exact {
    window := h.window
    fixed := hfixed
    version := (versionNibble_eq_iff (first_of_bytes (by decide) h.bytes) (by decide)).2 h.version
    total := by
      rw [readV6Fields_plen_of_written h.bytes, sub_forty_eq_iff hfixed (by omega)]
      exact h.total }

/-- The registers a decode writes are those of the wire bytes (rules R45, R117, R191). -/
theorem HoldsV6Datagram.writeV6_eq :
    writeV6 l.ops.bufBase (readV6Fields s l.ops.bufBase.toNat) = wireV6Header l b := by
  have hbase : BitVec.ofNat 32 l.ops.bufBase.toNat = l.ops.bufBase := ofNat_toNat_eq rfl
  rw [readV6Fields_of_written h.bytes]
  simp only [writeV6, wireV6Header, BitVec.ofNat_add, hbase]
  rfl

end

/-- Settles O34: the datagram passes every check, and its 40 bytes are written, so no read of it is a fault. -/
theorem v6DecodeWritesTheHeader : Obligations.V6DecodeWritesTheHeader := by
  unfold Obligations.V6DecodeWritesTheHeader
  intro s l b hl h
  rw [exec_v6Decode hl, ipv6Decode_of_found h.found, h.writeV6_eq,
    applyDecode_header_written (ne_none_of_bytes h.bytes)]

/-- Settles O35: each failure is one branch of the decoder, in its order. -/
theorem v6DecodeFailuresInOrder : Obligations.V6DecodeFailuresInOrder := by
  unfold Obligations.V6DecodeFailuresInOrder
  rintro s l _ _ bad hl rfl rfl hbad
  have hunread : ∀ i < 0, s.readByte (l.ops.bufBase.toNat + i) ≠ none := nofun
  simp only [hbad]
  rw [exec_v6Decode hl]
  refine ⟨fun hout => ?_, fun hw hshort => ?_, fun b0 hw h40 hb0 hv => ?_, fun b hw h40 hb hv ht => ?_⟩
  · rw [ipv6Decode_outside ((windowInBuf_eq_false_iff ..).2 hout), applyDecode_fail_written hunread]
  · rw [ipv6Decode_short hw hshort, applyDecode_fail_written hunread]
  · rw [ipv6Decode_otherVersion hw h40 (mt (versionNibble_eq_iff hb0 (by decide)).1 hv),
      versionNibble_setWidth_of_written hb0, applyDecode_fail_written (ne_none_of_first hb0)]
  · have hb0 := first_of_bytes (by decide) hb
    have hplen := readV6Fields_plen_of_written hb
    have hne : l.ops.bufLen - 40 ≠ (readV6Fields s l.ops.bufBase.toNat).plen := by
      rw [hplen, ne_eq, sub_forty_eq_iff h40 (by omega)]
      exact ht
    rw [ipv6Decode_lengthMismatch hw h40 ((versionNibble_eq_iff hb0 (by decide)).2 hv) hne, hplen,
      applyDecode_fail_written (ne_none_of_bytes hb), BitVec.ofNat_add 40]
    rfl

/-! ### PKT_DECODE -/

theorem exec_pktDecode {s : State} {l : Latch} (hl : s.latch = some l) :
    exec .pktDecode s = applyDecode s l.ops.bufBase.toNat (packetDecode s l.ops.bufBase l.ops.bufLen) := by
  rw [exec, execPktDecode, withLatch_some hl]

section
variable {s : State} {base len : Word} (hw : base.toNat + len.toNat ≤ s.cfg.bufSize)
include hw

theorem packetDecode_empty (h : len = 0) : packetDecode s base len = .fail 0 (failure .truncated 1 0 0) := by
  unfold packetDecode
  dsimp only
  rw [(windowInBuf_iff ..).2 hw, if_neg (by decide), if_pos h]

variable (hlen : len ≠ 0)
include hlen

theorem packetDecode_v4 (hv : versionNibble s base.toNat = 4) :
    packetDecode s base len = (ipv4Decode s base len).afterByte0 := by
  rw [versionNibble_eq_extractLsb'] at hv
  unfold packetDecode
  dsimp only
  rw [(windowInBuf_iff ..).2 hw, if_neg (by decide), if_neg hlen, if_pos hv]

theorem packetDecode_v6 (hv : versionNibble s base.toNat = 6) :
    packetDecode s base len = (ipv6Decode s base len).afterByte0 := by
  have h4 : versionNibble s base.toNat ≠ 4 := by rw [hv]; decide
  rw [versionNibble_eq_extractLsb'] at hv h4
  unfold packetDecode
  dsimp only
  rw [(windowInBuf_iff ..).2 hw, if_neg (by decide), if_neg hlen, if_neg h4, if_pos hv]

theorem packetDecode_otherVersion (h4 : versionNibble s base.toNat ≠ 4) (h6 : versionNibble s base.toNat ≠ 6) :
    packetDecode s base len = .fail 1 (unsupportedVersion (versionNibble s base.toNat)) := by
  rw [versionNibble_eq_extractLsb'] at h4 h6
  unfold packetDecode
  dsimp only
  rw [(windowInBuf_iff ..).2 hw, if_neg (by decide), if_neg hlen, if_neg h4, if_neg h6]
  rfl

end

/-- That the dispatch has read byte 0 makes no difference where byte 0 is written. -/
theorem applyDecode_afterByte0 {s : State} {base : Nat} {b0 : Byte} (h : s.readByte base = some b0) (d : DecodeResult) :
    applyDecode s base d.afterByte0 = applyDecode s base d := by
  have hnote : s.noteReads base (max 1 d.reads) = s.noteReads base d.reads := by
    cases hr : d.reads with
    | zero => rw [noteReads_none]; exact noteReads_eq_self.2 (ne_none_of_first h)
    | succ n => rw [Nat.max_eq_right (by omega)]
  rw [applyDecode, afterByte0_reads, afterByte0_outcome, hnote, applyDecode]

theorem exec_pktDecode_v4 {s : State} {l : Latch} {b0 : Byte} (hl : s.latch = some l)
    (hw : l.ops.bufBase.toNat + l.ops.bufLen.toNat ≤ s.cfg.bufSize) (hlen : l.ops.bufLen ≠ 0)
    (h : s.readByte l.ops.bufBase.toNat = some b0) (hv : b0.toNat / 16 = 4) : exec .pktDecode s = exec .v4Decode s := by
  rw [exec_pktDecode hl, exec_v4Decode hl, packetDecode_v4 hw hlen ((versionNibble_eq_iff h (by decide)).2 hv),
    applyDecode_afterByte0 h]

theorem exec_pktDecode_v6 {s : State} {l : Latch} {b0 : Byte} (hl : s.latch = some l)
    (hw : l.ops.bufBase.toNat + l.ops.bufLen.toNat ≤ s.cfg.bufSize) (hlen : l.ops.bufLen ≠ 0)
    (h : s.readByte l.ops.bufBase.toNat = some b0) (hv : b0.toNat / 16 = 6) : exec .pktDecode s = exec .v6Decode s := by
  rw [exec_pktDecode hl, exec_v6Decode hl, packetDecode_v6 hw hlen ((versionNibble_eq_iff h (by decide)).2 hv),
    applyDecode_afterByte0 h]

/-- UNSUPPORTED_VERSION is raised on byte 0 alone (rules R200, R255). -/
theorem exec_pktDecode_otherVersion {s : State} {l : Latch} {b0 : Byte} (hl : s.latch = some l)
    (hw : l.ops.bufBase.toNat + l.ops.bufLen.toNat ≤ s.cfg.bufSize) (hlen : l.ops.bufLen ≠ 0)
    (h : s.readByte l.ops.bufBase.toNat = some b0) (h4 : b0.toNat / 16 ≠ 4) (h6 : b0.toNat / 16 ≠ 6) :
    exec .pktDecode s = .next (completion s Header.zero .unsupportedVersion false
      (BitVec.ofNat 4 (b0.toNat / 16)) 0 0 0 (BitVec.ofNat 32 (b0.toNat / 16)) 0) := by
  have hv4 := mt (versionNibble_eq_iff h (by decide)).1 h4
  have hv6 := mt (versionNibble_eq_iff h (by decide)).1 h6
  have hnibble : BitVec.ofNat 4 (b0.toNat / 16) = versionNibble s l.ops.bufBase.toNat :=
    ((versionNibble_eq_iff h (by omega)).2 rfl).symm
  rw [exec_pktDecode hl, packetDecode_otherVersion hw hlen hv4 hv6, applyDecode, DecodeResult.fail,
    noteReads_eq_self.2 (ne_none_of_first h), hnibble, ← versionNibble_setWidth_of_written h]
  rfl

/-- Settles O37: the dispatch's branches in their order; WRONG_VERSION is not PKT_DECODE's in rule R251's table. -/
theorem pktDecodeDispatches : Obligations.PktDecodeDispatches := by
  unfold Obligations.PktDecodeDispatches
  rintro s l _ _ hl rfl rfl
  have hunread : ∀ i < 0, s.readByte (l.ops.bufBase.toNat + i) ≠ none := nofun
  refine ⟨fun hout => ?_, fun hw hempty => ?_, fun b0 hw hlen hb0 => ?_, fun t ht hc => ?_⟩
  · rw [exec_pktDecode hl, packetDecode_outside ((windowInBuf_eq_false_iff ..).2 hout),
      applyDecode_fail_written hunread]
  · rw [exec_pktDecode hl, packetDecode_empty hw (BitVec.eq_of_toNat_eq hempty), applyDecode_fail_written hunread]
  · have hne : l.ops.bufLen ≠ 0 := fun h => hlen (congrArg BitVec.toNat h)
    exact ⟨exec_pktDecode_v4 hl hw hne hb0, exec_pktDecode_v6 hl hw hne hb0,
      exec_pktDecode_otherVersion hl hw hne hb0⟩
  · exact absurd (mem_raisedBy_of_exec ht hc (by decide)) (by decide)

/-- Settles O38: the version nibble of each datagram sends it to its own decoder. -/
theorem pktDecodeCompletesBothVersions : Obligations.PktDecodeCompletesBothVersions := by
  unfold Obligations.PktDecodeCompletesBothVersions
  intro s l b hl
  have hne (hlen : 0 < l.ops.bufLen.toNat) : l.ops.bufLen ≠ 0 := fun h => by simp [h] at hlen
  refine ⟨fun h => ?_, fun h => ?_⟩
  · have hfixed := h.found.fixed
    rw [exec_pktDecode_v4 hl h.window (hne (by omega)) (first_of_bytes (by decide) h.bytes) h.version]
    exact v4DecodeWritesTheHeader s l b hl h
  · have hfixed := h.found.fixed
    rw [exec_pktDecode_v6 hl h.window (hne (by omega)) (first_of_bytes (by decide) h.bytes) h.version]
    exact v6DecodeWritesTheHeader s l b hl h

end Sys2Proof.Machine
end

section
/-! PROOFS. What a decode reads (rules R172, R176, R192, R200): it depends on the fixed header's bytes alone, and
where one of them is unwritten it records UNINIT_READ and ends as on some memory that has one there (rules R98, R290;
log 6). -/

namespace Sys2Proof.Machine

/-! ### One decoder per decode command -/

/-- The decoder that a decode command runs. -/
def decoder : Instr → State → Word → Word → DecodeResult
  | .v4Decode => ipv4Decode
  | .v6Decode => ipv6Decode
  | _ => packetDecode

theorem decoder_pktDecode : decoder .pktDecode = packetDecode := rfl

theorem exec_decode {s : State} {l : Latch} {i : Instr} (hl : s.latch = some l) (hi : IsDecode i) :
    exec i s = applyDecode s l.ops.bufBase.toNat (decoder i s l.ops.bufBase l.ops.bufLen) := by
  rcases hi with rfl | rfl | rfl
  · exact exec_pktDecode hl
  · exact exec_v4Decode hl
  · exact exec_v6Decode hl

theorem decoder_congr {s t : State} {i : Instr} (hi : IsDecode i) {base len : Word}
    (hc : t.cfg.bufSize = s.cfg.bufSize)
    (h : ∀ k < (decoder i s base len).reads, t.engineByte (base.toNat + k) = s.engineByte (base.toNat + k)) :
    decoder i t base len = decoder i s base len := by
  rcases hi with rfl | rfl | rfl
  · exact packetDecode_congr hc h
  · exact ipv4Decode_congr hc h
  · exact ipv6Decode_congr hc h

/-! ### Dependence on the window -/

theorem finishDecode_faults (s : State) (r : Except Failure Header) : (finishDecode s r).faults = s.faults := by
  cases r <;> rfl

/-- What a decode completes with is its outcome's alone; the state it runs on keeps its fault record. -/
theorem finishDecode_same (s t : State) (r : Except Failure Header) :
    (finishDecode t r).hdr = (finishDecode s r).hdr ∧ (finishDecode t r).res = (finishDecode s r).res ∧
      (finishDecode t r).status.code = (finishDecode s r).status.code ∧
      (finishDecode t r).status.bool = (finishDecode s r).status.bool ∧
      (finishDecode t r).status.uver = (finishDecode s r).status.uver ∧ (finishDecode t r).faults = t.faults := by
  cases r <;> exact ⟨rfl, rfl, rfl, rfl, rfl, rfl⟩

/-- Settles O42: a decode that records no fault has read written bytes alone, so the other state's decoder reads the
same ones and answers the same. -/
theorem decodeDependsOnTheWindowOnly : Obligations.DecodeDependsOnTheWindowOnly := by
  unfold Obligations.DecodeDependsOnTheWindowOnly
  intro s s' l l' i n hin hl hl' hbase hlen hsize hbytes t ht hfaults
  have hdec : IsDecode i ∧ ∀ base len, (decoder i s base len).reads ≤ n := by
    simp only [List.mem_cons, Prod.mk.injEq, List.not_mem_nil, or_false] at hin
    rcases hin with ⟨rfl, rfl⟩ | ⟨rfl, rfl⟩ | ⟨rfl, rfl⟩
    · exact ⟨.inr (.inl rfl), ipv4Decode_reads s⟩
    · exact ⟨.inr (.inr rfl), ipv6Decode_reads s⟩
    · exact ⟨.inl rfl, packetDecode_reads s⟩
  obtain ⟨hi, hreads⟩ := hdec
  rw [exec_decode hl hi] at ht
  cases ht
  rw [finishDecode_faults] at hfaults
  have hwritten := written_of_noteReads_faults hfaults
  have hsame : ∀ k < (decoder i s l.ops.bufBase l.ops.bufLen).reads,
      s'.readByte (l.ops.bufBase.toNat + k) = s.readByte (l.ops.bufBase.toNat + k) :=
    fun k hk => hbytes k (hk.trans_le (hreads _ _))
  have hnote := (noteReads_congr hsame).2 (noteReads_eq_self.2 hwritten)
  have hdecoder := decoder_congr hi hsize fun k hk => engineByte_congr_written (hwritten k hk) (hsame k hk)
  refine ⟨_, by rw [exec_decode hl' hi, hbase, hlen, hdecoder, applyDecode, hnote], finishDecode_same ..⟩

/-! ### BUF with every byte written as a command reads it -/

/-- BUF with the bytes below `n` written, each as a command would read it. -/
def State.filled (s : State) : Nat → Memory
  | 0 => s.buf
  | n + 1 => (s.filled n).write n (s.engineByte n)

theorem read_filled (s : State) (n a : Nat) :
    (s.filled n).read a = if a < n then some (s.engineByte a) else s.buf.read a := by
  induction n with
  | zero => simp [State.filled]
  | succ n ih =>
    by_cases ha : a = n
    · simp [State.filled, ha, Memory.read_write_same]
    · have hlt : a < n + 1 ↔ a < n := by omega
      simp only [State.filled, Memory.read_write_other _ _ _ _ ha, ih, hlt]

/-- The state with all of BUF written so. -/
def State.filledState (s : State) : State := { s with buf := s.filled s.cfg.bufSize }

theorem readByte_filledState (s : State) (a : Nat) :
    s.filledState.readByte a = if a < s.cfg.bufSize then some (s.engineByte a) else none := by
  simp +contextual [State.readByte, State.filledState, read_filled]

/-- It agrees with BUF wherever BUF is written. -/
theorem readByte_filledState_of_written {s : State} {a : Nat} {b : Byte} (h : s.readByte a = some b) :
    s.filledState.readByte a = some b := by
  have hlt : a < s.cfg.bufSize := by
    by_contra hout
    simp [State.readByte, hout] at h
  rw [readByte_filledState, if_pos hlt, engineByte_of_written h]

/-- A command reads the same bytes from it. -/
theorem engineByte_filledState (s : State) (a : Nat) : s.filledState.engineByte a = s.engineByte a := by
  rw [State.engineByte, readByte_filledState]
  split
  case isTrue => rfl
  case isFalse hout => simp [State.engineByte, State.readByte, hout, State.filledState]

/-! ### Reads of unwritten bytes -/

/-- No decoder reads past its window. -/
theorem ipv4Decode_reads_le_len (s : State) (base len : Word) : (ipv4Decode s base len).reads ≤ len.toNat := by
  by_cases hw : base.toNat + len.toNat ≤ s.cfg.bufSize
  · by_cases hlen : len.toNat < 20
    · rw [ipv4Decode_short hw hlen]
      exact Nat.zero_le _
    · exact (ipv4Decode_reads s base len).trans (Nat.not_lt.1 hlen)
  · rw [ipv4Decode_outside ((windowInBuf_eq_false_iff ..).2 (Nat.not_le.1 hw))]
    exact Nat.zero_le _

theorem ipv6Decode_reads_le_len (s : State) (base len : Word) : (ipv6Decode s base len).reads ≤ len.toNat := by
  by_cases hw : base.toNat + len.toNat ≤ s.cfg.bufSize
  · by_cases hlen : len.toNat < 40
    · rw [ipv6Decode_short hw hlen]
      exact Nat.zero_le _
    · exact (ipv6Decode_reads s base len).trans (Nat.not_lt.1 hlen)
  · rw [ipv6Decode_outside ((windowInBuf_eq_false_iff ..).2 (Nat.not_le.1 hw))]
    exact Nat.zero_le _

theorem packetDecode_reads_le_len (s : State) (base len : Word) : (packetDecode s base len).reads ≤ len.toNat := by
  have h4 := ipv4Decode_reads_le_len s base len
  have h6 := ipv6Decode_reads_le_len s base len
  unfold packetDecode
  dsimp only
  split
  · exact Nat.zero_le _
  split
  · exact Nat.zero_le _
  next hlen =>
  have hpos : 0 < len.toNat := Nat.pos_of_ne_zero fun h => hlen (BitVec.eq_of_toNat_eq h)
  repeat' split
  all_goals simp only [DecodeResult.fail, afterByte0_reads]
  all_goals omega

theorem decoder_reads_le_len (i : Instr) (s : State) (base len : Word) : (decoder i s base len).reads ≤ len.toNat := by
  unfold decoder
  split
  · exact ipv4Decode_reads_le_len s base len
  · exact ipv6Decode_reads_le_len s base len
  · exact packetDecode_reads_le_len s base len

/-- A decode that reads an unwritten byte of its window ends as on the filled BUF, with the fault recorded, the byte
still unwritten and one free value drawn. -/
theorem exec_decode_unwritten {s : State} {l : Latch} {c : Instr} (hl : s.latch = some l) (hc : IsDecode c)
    (hw : l.ops.bufBase.toNat + l.ops.bufLen.toNat ≤ s.cfg.bufSize) {k : Nat}
    (hk : k < (decoder c s l.ops.bufBase l.ops.bufLen).reads) (hnone : s.readByte (l.ops.bufBase.toNat + k) = none) :
    ∃ u, exec c s.filledState = .next u ∧ u.faults = s.faults ∧
      exec c s = .next { u with
        buf := s.buf, faults := s.faults ++ [.uninitRead s.time], draws := s.draws + 1 } := by
  have hle := decoder_reads_le_len c s l.ops.bufBase l.ops.bufLen
  have hdecoder : decoder c s.filledState l.ops.bufBase l.ops.bufLen = decoder c s l.ops.bufBase l.ops.bufLen :=
    decoder_congr hc rfl fun _ _ => engineByte_filledState s _
  have hclean : s.filledState.noteReads l.ops.bufBase.toNat (decoder c s l.ops.bufBase l.ops.bufLen).reads =
      s.filledState := noteReads_eq_self.2 fun i hi => by
    rw [readByte_filledState, if_pos (by omega)]
    nofun
  have hnoted : s.noteReads l.ops.bufBase.toNat (decoder c s l.ops.bufBase l.ops.bufLen).reads = s.uninitNoted :=
    noteReads_unwritten (readBytes_eq_none.2 ⟨k, hk, hnone⟩)
  refine ⟨finishDecode s.filledState (decoder c s l.ops.bufBase l.ops.bufLen).outcome, ?_, finishDecode_faults .., ?_⟩
  · rw [exec_decode (s := s.filledState) hl hc, hdecoder, applyDecode, hclean]
  · rw [exec_decode hl hc, applyDecode, hnoted]
    cases (decoder c s l.ops.bufBase l.ops.bufLen).outcome <;> rfl

/-- Settles O36: the decoders' read order decides which byte is read, and one that is read and unwritten is recorded. -/
theorem decodeOfUnwrittenBytesRecordsTheFault : Obligations.DecodeOfUnwrittenBytesRecordsTheFault := by
  unfold Obligations.DecodeOfUnwrittenBytesRecordsTheFault
  rintro s l _ _ recorded hl rfl rfl hw hrecorded
  have hrec (c : Instr) (hc : IsDecode c) (k : Nat) (hk : k < (decoder c s l.ops.bufBase l.ops.bufLen).reads)
      (hnone : s.readByte (l.ops.bufBase.toNat + k) = none) : recorded c :=
    (hrecorded c).2 ⟨s.filled s.cfg.bufSize, (exec_decode_unwritten hl hc hw hk hnone).imp fun u h =>
      ⟨fun _ _ => readByte_filledState_of_written, h⟩⟩
  have hv4 : IsDecode .v4Decode := .inr (.inl rfl)
  have hv6 : IsDecode .v6Decode := .inr (.inr rfl)
  have hpkt : IsDecode .pktDecode := .inl rfl
  refine ⟨fun hlen hnone => hrec _ hv4 0 (ipv4Decode_reads_pos hw hlen) hnone,
    fun hlen hnone => hrec _ hv6 0 (ipv6Decode_reads_pos hw hlen) hnone,
    fun hlen hnone => hrec _ hpkt 0 (packetDecode_reads_pos hw hlen) hnone,
    fun b0 i hlen hb0 hversion hihl hi hnone => ?_, fun b0 i hlen hb0 hversion hi hnone => ?_⟩
  · have hnibble := (versionNibble_eq_iff hb0 (n := 4) (by decide)).2 hversion
    have hreads := ipv4Decode_reads_eq hw hlen hnibble (by rwa [ihlNibble_toNat_of_written hb0])
    have hne : l.ops.bufLen ≠ 0 := fun h => by simp [h] at hlen
    refine ⟨hrec _ hv4 i (hreads ▸ hi) hnone, hrec _ hpkt i ?_ hnone⟩
    rw [decoder_pktDecode, packetDecode_v4 hw hne hnibble, afterByte0_reads, hreads]
    exact hi
  · have hnibble := (versionNibble_eq_iff hb0 (n := 6) (by decide)).2 hversion
    have hreads := ipv6Decode_reads_eq hw hlen hnibble
    have hne : l.ops.bufLen ≠ 0 := fun h => by simp [h] at hlen
    refine ⟨hrec _ hv6 i (hreads ▸ hi) hnone, hrec _ hpkt i ?_ hnone⟩
    rw [decoder_pktDecode, packetDecode_v6 hw hne hnibble, afterByte0_reads, hreads]
    exact hi

end Sys2Proof.Machine
end

section
/-! PROOFS. The adder (rules R210, R219, file 45_checksum.md): its definition, the residue law, and the odd tail. -/

namespace Sys2Proof.Machine

/-! ### Sum16 -/

/-- The `i`-th big-endian 16-bit word of a byte sequence, zero bytes past its end. -/
def wordAt (bs : List Byte) (i : Nat) : Nat := (bs.getD (2 * i) 0).toNat * 256 + (bs.getD (2 * i + 1) 0).toNat

theorem wordAt_cons_cons_succ (b c : Byte) (rest : List Byte) (i : Nat) :
    wordAt (b :: c :: rest) (i + 1) = wordAt rest i := rfl

theorem sum16_eq_sum_wordAt (bs : List Byte) :
    sum16 bs = ((List.range ((bs.length + 1) / 2)).map (wordAt bs)).sum := by
  induction bs using sum16.induct with
  | case1 => rfl
  | case2 b => simp [sum16, wordAt]
  | case3 b c rest ih =>
    have hlen : ((b :: c :: rest).length + 1) / 2 = (rest.length + 1) / 2 + 1 := by simp; omega
    have htail : wordAt (b :: c :: rest) ∘ Nat.succ = wordAt rest := funext fun i => wordAt_cons_cons_succ b c rest i
    rw [sum16, hlen, List.range_succ_eq_map, List.map_cons, List.sum_cons, List.map_map, htail, ← ih]
    rfl

/-- Settles O43: the three clauses are those of the model's recursion, word by word and folding by folding. -/
theorem adderMeetsItsDefinition : Obligations.AdderMeetsItsDefinition := by
  unfold Obligations.AdderMeetsItsDefinition
  refine ⟨sum16_eq_sum_wordAt, fun n => ?_, ocSum_toNat⟩
  split
  case isTrue hsmall => exact fold_small hsmall
  case isFalse hlarge => exact fold_large (Nat.not_le.1 hlarge)

/-- A 16-bit field at an even offset counts as its number. -/
theorem sum16_field {p post : List Byte} (x y : Byte) (hp : p.length % 2 = 0) :
    sum16 (p ++ [x, y] ++ post) = sum16 p + sum16 post + (x.toNat * 256 + y.toNat) := by
  rw [List.append_assoc, sum16_append _ hp]
  simp only [List.cons_append, List.nil_append, sum16]
  omega

/-- The last byte of an odd sequence is the high byte of the last word (rule R219). -/
theorem sum16_concat {u : List Byte} (b : Byte) (hu : u.length % 2 = 0) :
    sum16 (u ++ [b]) = sum16 u + b.toNat * 256 := by
  rw [sum16_append _ hu, sum16]

/-- Settles O45: the pad is the low byte of the word that the segment's last byte begins. -/
theorem oddSegmentIsZeroPadded : Obligations.OddSegmentIsZeroPadded := by
  unfold Obligations.OddSegmentIsZeroPadded
  intro p t hp ht
  have heven {u : List Byte} {b : Byte} (h : t = u ++ [b]) : (p ++ u).length % 2 = 0 := by
    rw [h, List.length_append, List.length_singleton] at ht
    rw [List.length_append]
    omega
  constructor
  · obtain rfl | ⟨u, b, h⟩ := t.eq_nil_or_concat'
    · cases ht
    · have hpad := sum16_field (post := []) b 0 (heven h)
      rw [List.append_nil] at hpad
      have hlast := sum16_concat b (heven h)
      have hsplit : p ++ t ++ [0x00] = p ++ u ++ [b, 0] := by simp [h]
      rw [ocSum, ocSum, hsplit, h, ← List.append_assoc, hpad, hlast]
      simp [sum16]
  · intro u b h
    have hu : sum16 (p ++ u) = sum16 p + sum16 u := sum16_append u hp
    rw [h, ← List.append_assoc, sum16_concat b (heven h), hu]

/-! ### Fold -/

/-- Folding keeps the residue modulo 0xFFFF, since 2^16 is 1 there. -/
theorem fold_mod (n : Nat) : fold n % 0xFFFF = n % 0xFFFF := by
  induction n using Nat.strongRecOn with
  | ind n ih =>
    by_cases hsmall : n ≤ 0xFFFF
    · rw [fold_small hsmall]
    · rw [fold_large (Nat.not_le.1 hsmall), ih _ (by omega)]
      omega

theorem fold_pos {n : Nat} (h : 0 < n) : 0 < fold n := by
  induction n using Nat.strongRecOn with
  | ind n ih =>
    by_cases hsmall : n ≤ 0xFFFF
    · rwa [fold_small hsmall]
    · rw [fold_large (Nat.not_le.1 hsmall)]
      exact ih _ (by omega) (by omega)

theorem fold_zero : fold 0 = 0 := fold_small (Nat.zero_le _)

/-- Two positive numbers with one residue fold alike, since 1..0xFFFF holds each residue once. -/
theorem fold_congr {m n : Nat} (hm : 0 < m) (hn : 0 < n) (h : m % 0xFFFF = n % 0xFFFF) : fold m = fold n := by
  have hmRange := fold_le m
  have hnRange := fold_le n
  have hmPos := fold_pos hm
  have hnPos := fold_pos hn
  have hsame : fold m % 0xFFFF = fold n % 0xFFFF := by rw [fold_mod, fold_mod, h]
  omega

theorem fold_add (a b : Nat) : fold (a + b) = fold (fold a + fold b) := by
  rcases Nat.eq_zero_or_pos (a + b) with hzero | hpos
  · obtain ⟨rfl, rfl⟩ : a = 0 ∧ b = 0 := by omega
    rw [fold_zero, fold_zero]
  · have hpos' : 0 < fold a + fold b := by
      rcases Nat.add_pos_iff_pos_or_pos.1 hpos with ha | hb
      · exact Nat.add_pos_left (fold_pos ha) _
      · exact Nat.add_pos_right _ (fold_pos hb)
    refine fold_congr hpos hpos' ?_
    rw [Nat.add_mod a, Nat.add_mod (fold a), fold_mod, fold_mod]

/-- Settles O44: folding keeps the residue and positivity, and ends in 16 bits. -/
theorem foldIsTheResidue : Obligations.FoldIsTheResidue := by
  unfold Obligations.FoldIsTheResidue
  refine ⟨fun n => ⟨fun h => ?_, ?_⟩, fun n hn => ⟨fold_pos hn, fold_le n, fold_mod n⟩, fold_add⟩
  · by_contra hne
    exact absurd h (fold_pos (Nat.pos_of_ne_zero hne)).ne'
  · rintro rfl
    exact fold_zero

end Sys2Proof.Machine
end

section
/-! PROOFS. The six checksum commands (rules R211 to R218, R220, R222, file 45_checksum.md) and the reads of the summing
commands (rules R98, R174, R290; log 6). First, what the common procedure does once its checks pass. -/

namespace Sys2Proof.Machine

/-! ### The common procedure past its checks -/

/-- The completion with the folded sum `n`: RES_A is its complement, RES_B the sum (rule R212). -/
theorem finish_sum_eq_completion (s : State) (q : Bool) (bs : List Byte) :
    s.finish q ((~~~ocSum bs).setWidth 32) ((ocSum bs).setWidth 32) =
      completion s s.hdr .ok q 0 (BitVec.ofNat 32 (0xFFFF - fold (sum16 bs))) (BitVec.ofNat 32 (fold (sum16 bs)))
        0 0 0 := by
  rw [finish_eq_completion, not_ocSum_setWidth, ocSum_setWidth]

theorem ocSum_beq_ones (bs : List Byte) : (ocSum bs == 0xFFFF#16) = decide (fold (sum16 bs) = 0xFFFF) := by
  rw [beq_eq_decide, decide_eq_decide, BitVec.toNat_eq, ocSum_toNat]
  rfl

/-- The state and the operands pass the three checks of the common procedure (rule R212). -/
structure SumsSegment (s : State) (l : Latch) (variant : Variant) : Prop where
  latch  : s.latch = some l
  kind   : s.hdr.kind = variant.kind
  window : l.ops.segBase.toNat + l.ops.segLen.toNat ≤ s.cfg.bufSize
  short  : variant = .v4 → l.ops.segLen.toNat ≤ 0xFFFF

section
variable {s : State} {l : Latch} {variant : Variant} (h : SumsSegment s l variant) (verify : Bool)
include h

theorem ckCommand_sums {bs : List Byte} {u : State}
    (hbs : s.engineBytes l.ops.segBase.toNat l.ops.segLen.toNat = bs)
    (hu : s.noteReads l.ops.segBase.toNat l.ops.segLen.toNat = u) {sum : Nat}
    (hsum : sum = fold (sum16 (pseudoHeader s.hdr l.ops.segLen variant ++ bs))) :
    ckCommand variant verify s = .next (completion u u.hdr .ok (verify && decide (sum = 0xFFFF)) 0
      (BitVec.ofNat 32 (0xFFFF - sum)) (BitVec.ofNat 32 sum) 0 0 0) := by
  have hwindow : ¬ (!s.windowInBuf l.ops.segBase l.ops.segLen) = true := by
    rw [(windowInBuf_iff ..).2 h.window]
    decide
  have hshort : ¬ (variant = .v4 ∧ 0xFFFF < l.ops.segLen.toNat) := fun hlong =>
    Nat.not_lt.2 (h.short hlong.1) hlong.2
  unfold ckCommand
  rw [withLatch_some h.latch, if_neg (not_not.2 h.kind), if_neg hwindow, if_neg hshort]
  dsimp only
  rw [hbs, hu, finish_sum_eq_completion, ocSum_beq_ones, hsum]

theorem ckCommand_written {bs : List Byte} (hread : s.readBytes l.ops.segBase.toNat l.ops.segLen.toNat = some bs)
    {sum : Nat} (hsum : sum = fold (sum16 (pseudoHeader s.hdr l.ops.segLen variant ++ bs))) :
    ckCommand variant verify s = .next (completion s s.hdr .ok (verify && decide (sum = 0xFFFF)) 0
      (BitVec.ofNat 32 (0xFFFF - sum)) (BitVec.ofNat 32 sum) 0 0 0) :=
  ckCommand_sums h verify (engineBytes_of_written hread) (noteReads_written hread) hsum

end

/-- A checksum command that completes OK has passed its checks. -/
theorem sumsSegment_of_ok {s t : State} {l : Latch} {variant : Variant} {verify : Bool} (hl : s.latch = some l)
    (h : ckCommand variant verify s = .next t) (hc : t.status.code = .ok) : SumsSegment s l variant := by
  by_cases hkind : s.hdr.kind = variant.kind
  case neg =>
    rw [ckCommand_otherKind hl hkind] at h
    cases h
    cases hc
  cases hw : s.windowInBuf l.ops.segBase l.ops.segLen
  case false =>
    rw [ckCommand_outside hl hkind hw] at h
    cases h
    cases hc
  refine ⟨hl, hkind, (windowInBuf_iff ..).1 hw, ?_⟩
  rintro rfl
  by_contra hlong
  rw [ckCommand_tooLong hl hkind hw (Nat.not_le.1 hlong)] at h
  cases h
  cases hc

/-! ### The compute and the verify commands -/

/-- The compute command of a variant (rules R213 to R215). -/
def Variant.compute : Variant → Instr
  | .v4 => .ckV4Compute
  | .v6 => .ckV6Compute
  | .icmpv6 => .ckIcmpv6Compute

/-- The verify command of a variant (rules R216 to R218). -/
def Variant.verify : Variant → Instr
  | .v4 => .ckV4Verify
  | .v6 => .ckV6Verify
  | .icmpv6 => .ckIcmpv6Verify

theorem exec_compute (v : Variant) : exec v.compute = ckCommand v false := by cases v <;> rfl

theorem exec_verify (v : Variant) : exec v.verify = ckCommand v true := by cases v <;> rfl

/-- Settles O48: the three compute commands are the common procedure with verify = 0. -/
theorem checksumComputeResults : Obligations.ChecksumComputeResults := by
  unfold Obligations.ChecksumComputeResults
  intro s l seg i kind v sum hrow hl hkind hw hshort hread hsum
  obtain ⟨rfl, rfl⟩ : i = v.compute ∧ kind = v.kind := by
    simp only [List.mem_cons, Prod.mk.injEq, List.not_mem_nil, or_false] at hrow
    rcases hrow with ⟨rfl, rfl, rfl⟩ | ⟨rfl, rfl, rfl⟩ | ⟨rfl, rfl, rfl⟩ <;> exact ⟨rfl, rfl⟩
  rw [exec_compute, ckCommand_written ⟨hl, hkind, hw, hshort⟩ false hread hsum, Bool.false_and]

/-- Settles O49: the three verify commands are the common procedure with verify = 1. -/
theorem checksumVerifyResults : Obligations.ChecksumVerifyResults := by
  unfold Obligations.ChecksumVerifyResults
  intro s l seg i kind v sum hrow hl hkind hw hshort hread hsum
  obtain ⟨rfl, rfl⟩ : i = v.verify ∧ kind = v.kind := by
    simp only [List.mem_cons, Prod.mk.injEq, List.not_mem_nil, or_false] at hrow
    rcases hrow with ⟨rfl, rfl, rfl⟩ | ⟨rfl, rfl, rfl⟩ | ⟨rfl, rfl, rfl⟩ <;> exact ⟨rfl, rfl⟩
  rw [exec_verify, ckCommand_written ⟨hl, hkind, hw, hshort⟩ true hread hsum, Bool.true_and]

/-! ### What the commands do not read -/

theorem pseudoHeader_cksum (h : Header) (x n : Word) (v : Variant) :
    pseudoHeader { h with cksum := x } n v = pseudoHeader h n v := by cases v <;> rfl

/-- The 58 of ICMPv6 is a constant (rule R121). -/
theorem pseudoHeader_icmpv6_nextHdr (h : Header) (x n : Word) :
    pseudoHeader { h with nextHdr := x } n .icmpv6 = pseudoHeader h n .icmpv6 := rfl

/-- Settles O53: HDR_CKSUM is in no pseudo-header, and HDR_NEXT_HDR in none of ICMPv6. -/
theorem checksumIgnoresOtherRegisters : Obligations.ChecksumIgnoresOtherRegisters := by
  unfold Obligations.ChecksumIgnoresOtherRegisters
  intro s t i x h
  have hcommute {v : Variant} {verify : Bool} (hexec : exec i = ckCommand v verify) (g : Header → Header)
      (hkind : (g s.hdr).kind = s.hdr.kind) (hpseudo : ∀ n, pseudoHeader (g s.hdr) n v = pseudoHeader s.hdr n v) :
      exec i (s.replace id g) = .next (t.replace id g) := by
    rw [hexec] at h ⊢
    rw [ckCommand_replace s id g hkind hpseudo, h]
    rfl
  refine ⟨fun hi => ?_, fun hi => ?_⟩
  · obtain ⟨v, verify, hexec⟩ : ∃ v verify, exec i = ckCommand v verify := by
      simp only [List.mem_cons, List.not_mem_nil, or_false] at hi
      rcases hi with rfl | rfl | rfl | rfl | rfl | rfl <;> exact ⟨_, _, rfl⟩
    exact hcommute hexec (fun g => { g with cksum := x }) rfl fun n => pseudoHeader_cksum ..
  · obtain ⟨verify, hexec⟩ : ∃ verify, exec i = ckCommand .icmpv6 verify := by
      simp only [List.mem_cons, List.not_mem_nil, or_false] at hi
      rcases hi with rfl | rfl <;> exact ⟨_, rfl⟩
    exact hcommute hexec (fun g => { g with nextHdr := x }) rfl fun n => pseudoHeader_icmpv6_nextHdr ..

/-! ### The computed checksum verifies -/

/-- Adding the complement of the folded sum makes the sum 0xFFFF (rule R220). -/
theorem fold_add_complement (n : Nat) : fold (n + (0xFFFF - fold n)) = 0xFFFF := by
  have hle := fold_le n
  rw [fold_add, fold_small (n := 0xFFFF - fold n) (by omega), Nat.add_sub_cancel' hle]
  exact fold_small (Nat.le_refl _)

theorem pseudoHeader_length_even (h : Header) (n : Word) (v : Variant) : (pseudoHeader h n v).length % 2 = 0 := by
  rw [pseudoHeader_length]
  split <;> rfl

/-- A 16-bit number in a zero field at an even offset of the segment adds itself to the sum. -/
theorem sum16_segment_field {p pre post : List Byte} (hp : p.length % 2 = 0) (hpre : pre.length % 2 = 0) {c : Nat}
    (hc : c < 0x10000) :
    sum16 (p ++ (pre ++ [BitVec.ofNat 8 (c / 256), BitVec.ofNat 8 c] ++ post)) =
      sum16 (p ++ (pre ++ [0x00, 0x00] ++ post)) + c := by
  have heven : (p ++ pre).length % 2 = 0 := by
    rw [List.length_append]
    omega
  have hfield : (BitVec.ofNat 8 (c / 256)).toNat * 256 + (BitVec.ofNat 8 c).toNat = c := by
    rw [BitVec.toNat_ofNat, BitVec.toNat_ofNat]
    omega
  simp only [← List.append_assoc]
  rw [sum16_field _ _ heven, sum16_field _ _ heven, hfield]
  rfl

/-- The common procedure with the complement of `s`'s sum in the zero field of its segment. -/
theorem ckCommand_verifies {s t s' : State} {l l' : Latch} {pre post : List Byte} {variant : Variant}
    (hl : s.latch = some l) (hl' : t.latch = some l') (hops : l'.ops = l.ops) (hhdr : t.hdr = s.hdr)
    (hcfg : t.cfg = s.cfg) (hpre : pre.length % 2 = 0)
    (hread : s.readBytes l.ops.segBase.toNat l.ops.segLen.toNat = some (pre ++ [0x00, 0x00] ++ post))
    (hs' : ckCommand variant false s = .next s') (hok : s'.status.code = .ok)
    (hread' : t.readBytes l.ops.segBase.toNat l.ops.segLen.toNat =
      some (pre ++ [BitVec.ofNat 8 (s'.res.resA.toNat / 256), BitVec.ofNat 8 s'.res.resA.toNat] ++ post)) :
    ∃ t', ckCommand variant true t = .next t' ∧ t'.status.bool = true ∧ t'.status.code = .ok ∧ t'.res.resA = 0 := by
  have hsums := sumsSegment_of_ok hl hs' hok
  have hsums' : SumsSegment t l' variant :=
    ⟨hl', hhdr ▸ hsums.kind, hops ▸ hcfg ▸ hsums.window, hops ▸ hsums.short⟩
  have hpseudo := pseudoHeader_length_even s.hdr l.ops.segLen variant
  rw [ckCommand_written hsums false hread rfl] at hs'
  cases hs'
  generalize hsum : fold (sum16 (pseudoHeader s.hdr l.ops.segLen variant ++ (pre ++ [0x00, 0x00] ++ post))) = sum at *
  have hresA : (BitVec.ofNat 32 (0xFFFF - sum)).toNat = 0xFFFF - sum := by
    rw [BitVec.toNat_ofNat, Nat.mod_eq_of_lt (by omega)]
  rw [completion, hresA] at hread'
  have hones : 0xFFFF = fold (sum16 (pseudoHeader t.hdr l'.ops.segLen variant ++
      (pre ++ [BitVec.ofNat 8 ((0xFFFF - sum) / 256), BitVec.ofNat 8 (0xFFFF - sum)] ++ post))) := by
    rw [hhdr, hops, sum16_segment_field hpseudo hpre (by omega), ← hsum, fold_add_complement]
  exact ⟨_, ckCommand_written hsums' true (hops ▸ hread') hones, rfl, rfl, rfl⟩

/-- Settles O54: the variant's compute and verify commands are one procedure, which sums the field's number too. -/
theorem computedChecksumVerifies : Obligations.ComputedChecksumVerifies := by
  unfold Obligations.ComputedChecksumVerifies
  intro s t s' l l' pre post c v hcv hl hl' hops hhdr hcfg hpre hread hs' hok hread'
  obtain ⟨variant, rfl, rfl⟩ : ∃ variant : Variant, c = variant.compute ∧ v = variant.verify := by
    simp only [List.mem_cons, Prod.mk.injEq, List.not_mem_nil, or_false] at hcv
    rcases hcv with hrow | hrow | hrow
    · exact ⟨.v4, hrow⟩
    · exact ⟨.v6, hrow⟩
    · exact ⟨.icmpv6, hrow⟩
  rw [exec_compute] at hs'
  rw [exec_verify]
  exact ckCommand_verifies hl hl' hops hhdr hcfg hpre hread hs' hok hread'

/-! ### Reads of unwritten bytes -/

/-- What a command reads agrees with every written byte. -/
theorem engineBytes_agree (s : State) (base n : Nat) :
    ∀ k b, k < (s.engineBytes base n).length → s.readByte (base + k) = some b →
      (s.engineBytes base n)[k]? = some b := by
  intro k b hk hb
  rw [engineBytes_length] at hk
  rw [engineBytes_getElem? s hk, engineByte_of_written hb]

theorem noteReads_of_unwritten {s : State} {base n i : Nat} (hi : i < n) (h : s.readByte (base + i) = none) :
    s.noteReads base n = s.uninitNoted :=
  noteReads_unwritten (readBytes_eq_none.2 ⟨i, hi, h⟩)

theorem exec_v4HdrVerify_sums {s : State} {l : Latch} (hl : s.latch = some l) (hkind : s.hdr.kind = 4) {u : State}
    (hu : s.noteReads s.hdr.base.toNat s.hdr.hlen.toNat = u) {sum : Nat}
    (hsum : sum = fold (sum16 (((s.engineBytes s.hdr.base.toNat s.hdr.hlen.toNat).set 10 0x00).set 11 0x00))) :
    exec .v4HdrVerify s = .next (completion u u.hdr .ok (decide (0xFFFF - sum = s.hdr.cksum.toNat)) 0
      (BitVec.ofNat 32 (0xFFFF - sum)) (BitVec.ofNat 32 sum) 0 0 0) := by
  simp only [exec, execV4HdrVerify, withLatch_some hl, if_neg (not_not.2 hkind), hu]
  rw [setWidth_beq_word, not_ocSum_toNat, finish_sum_eq_completion, hsum]
  rfl

/-- Settles O50: past its checks a summing command reads every byte of its window, and sums what it has read. -/
theorem summingUnwrittenBytesRecordsTheFault : Obligations.SummingUnwrittenBytesRecordsTheFault := by
  unfold Obligations.SummingUnwrittenBytesRecordsTheFault
  intro s l i done agrees hl hdone hagrees
  have hcompletes (q : Bool) (sum : Nat) : done q sum = completion s.uninitNoted s.uninitNoted.hdr .ok q 0
      (BitVec.ofNat 32 (0xFFFF - sum)) (BitVec.ofNat 32 sum) 0 0 0 := hdone q sum
  have hread (base n : Nat) : agrees base (s.engineBytes base n) := (hagrees ..).2 (engineBytes_agree s base n)
  simp only [hcompletes]
  constructor
  · intro hkind hi hnone
    exact ⟨_, _, engineBytes_length .., hread .., rfl,
      exec_v4HdrVerify_sums hl hkind (noteReads_of_unwritten hi hnone) rfl⟩
  · intro v compute verify kind hrow hkind hshort hw hi hnone
    obtain ⟨rfl, rfl, rfl⟩ : compute = v.compute ∧ verify = v.verify ∧ kind = v.kind := by
      simp only [List.mem_cons, Prod.mk.injEq, List.not_mem_nil, or_false] at hrow
      rcases hrow with ⟨rfl, hrow⟩ | ⟨rfl, hrow⟩ | ⟨rfl, hrow⟩ <;> exact hrow
    have hsums : SumsSegment s l v := ⟨hl, hkind, hw, hshort⟩
    have hu := noteReads_of_unwritten hi hnone
    refine ⟨_, _, engineBytes_length .., hread .., rfl, ?_, ?_⟩
    · rw [exec_compute, ckCommand_sums hsums false rfl hu rfl, Bool.false_and]
    · rw [exec_verify, ckCommand_sums hsums true rfl hu rfl, Bool.true_and]

end Sys2Proof.Machine
end
